-- ==== Sys2Proof/Word.lean ====
section
/-! DEFINITION. The value types of the block: bytes, channel values, words, and the four channels of a pixel. -/

namespace Sys2Proof

/-- An 8-bit value: a character, or a channel as written to the grid (00_scope.md §4, `OUT_BITS`). -/
abbrev Byte := BitVec 8

/-- A 16-bit channel value as read from the grid (00_scope.md §4, `CH_BITS`), and a grid coordinate (`DIM_BITS`). -/
abbrev Half := BitVec 16

/-- A 32-bit word of the register space (20_memory.md R56), a message code unit (`CU_BITS`). -/
abbrev Word := BitVec 32

/-- Four things, one per channel, in the order R, G, B, A of every grid transaction (20_memory.md R63,
30_encoding.md R86). -/
structure Quad (α : Type) where
  r : α
  g : α
  b : α
  a : α
  deriving DecidableEq, Repr

/-- The same function on each of the four channels. -/
def Quad.map {α β : Type} (f : α → β) (q : Quad α) : Quad β :=
  ⟨f q.r, f q.g, f q.b, f q.a⟩

end Sys2Proof
end

