-- ==== Sys2Proof/Config.lean ====
section
/-! DEFINITION. What an implementation fixes (the OPEN parameters of 92_eei_decisions.md) and the free values
(10_state.md R39): plain data where the model reads it, opaque constants where the spec leaves it open. -/

namespace Sys2Proof

/-- The largest depth a buffer may have: `MSG_DEPTH`, `OBUF_DEPTH ≤ 2^22` (00_scope.md §4, 92 D16). -/
abbrev maxDepth : Nat := 4194304

/-- The open parameters of the platform (92_eei_decisions.md, "Parameters left OPEN"; log 3). They are plain data of
the state that no step changes, so a claim about every state is a claim about every value of them. -/
structure Params where
  /-- `MSG_DEPTH`, entries of the message buffer. -/
  msgDepth : Fin (maxDepth + 1)
  /-- `OBUF_DEPTH`, entries of the output character buffer. -/
  obufDepth : Fin (maxDepth + 1)
  /-- `GRID_EXPAND` as its table: entry `w` is what a grid read returns for the byte `w` (20_memory.md R54). -/
  expand : Vector Half 256
  deriving DecidableEq, Repr

/-- `GRID_EXPAND(w)` (20_memory.md R54). -/
def Params.gridExpand (p : Params) (w : Byte) : Half :=
  p.expand[w.toNat]'w.isLt

namespace Config

/-- `MSG_DEPTH` of the machine State.reset describes: OPEN, so a free value (log 3). -/
opaque msgDepth : Fin (maxDepth + 1)

/-- `OBUF_DEPTH` of the machine State.reset describes: OPEN, so a free value (log 3). -/
opaque obufDepth : Fin (maxDepth + 1)

/-- `GRID_EXPAND` of the machine State.reset describes: OPEN, so a free value (log 3). -/
opaque gridExpand : Vector Half 256

/-- What `MSG[index]` holds while nothing has written it since the last reset: `unwrittenMsg resets index`
(10_state.md R39 "unspecified"; a free value, log 4). -/
opaque unwrittenMsg : Nat → Nat → Word

/-- The `n`-th draw of an 8-bit value for a read of `OUT[i]` that the spec leaves unspecified (10_state.md R39
"any 8-bit value (a draw ...)"; a free value, log 5). -/
opaque outDraw : Nat → Byte

end Config

end Sys2Proof
end

