-- ==== Sys2Proof/Syntax.lean ====
section
/-! DEFINITION. What the agents can be asked to do: the block's commands and micro-operations (one constructor per row
of spec/opcode_table.json), the words they are read from, the host's operations, and the entries of the agenda. -/

namespace Sys2Proof

/-- One constructor per row of spec/opcode_table.json. The four commands (30_encoding.md R81) have no operand field
(R83); the six micro-operations are the values of `PHASE` (R84). -/
inductive Instr where
  /-- `NOP`, command code 0 (40_control.md R101). -/
  | nop
  /-- `ENCODE`, command code 1 (40_control.md R102). -/
  | encode
  /-- `DECODE`, command code 2 (40_control.md R103). -/
  | decode
  /-- `ILLEGAL`, the reserved command code 3 (40_control.md R104). -/
  | illegal
  /-- `IDLE`, phase 0 (40_control.md R106). -/
  | idle
  /-- `ENC_LOAD`, phase 1 (43_embedder.md R144). -/
  | encLoad
  /-- `ENC_SLOT`, phase 2 (43_embedder.md R145). -/
  | encSlot
  /-- `ENC_STORE`, phase 3 (43_embedder.md R146). -/
  | encStore
  /-- `DEC_LOAD`, phase 4 (44_scanner.md R160). -/
  | decLoad
  /-- `DEC_SLOT`, phase 5 (44_scanner.md R161). -/
  | decSlot
  deriving DecidableEq, Repr

/-- What the block decodes: the 32-bit word of a `CTRL` write (30_encoding.md R80), or the 3-bit `PHASE` register
(R84). -/
inductive CodeWord where
  | command (v : Word)
  | phase (p : BitVec 3)
  deriving DecidableEq, Repr

/-- One operation of a host program (30_encoding.md R89). Names and labels are numbers (log 12). The width of an access
is its number of bytes; `W32` and `R32` are the accesses of width 4. -/
inductive HostOp where
  /-- `MemWrite(addr, width, value)`; `W32 addr, value` when the width is 4. -/
  | write (addr : Word) (width : Nat) (value : Word)
  /-- `name <- MemRead(addr, width)`; `R32 addr -> name` when the width is 4. -/
  | read (addr : Word) (width : Nat) (name : Nat)
  /-- `<label>:`, a position in the host program. -/
  | label (l : Nat)
  /-- `BNZ name, mask, label`: go to the label if `name & mask ≠ 0`. -/
  | bnz (name : Nat) (mask : Word) (l : Nat)
  deriving DecidableEq, Repr

/-- One pixel of a grid the platform attaches: its coordinates and its four channel values. -/
structure PixelInit where
  x : Half
  y : Half
  value : Quad Half
  deriving DecidableEq, Repr

/-- One entry of the agenda: which agent takes the next step, in the one total order of 20_memory.md R68. -/
inductive Event where
  /-- The block's sequencer takes a step (40_control.md R106). -/
  | block
  /-- The host performs the next operation of its program (20_memory.md R68). -/
  | host
  /-- Reset is asserted (70_reset_and_hazards.md R220). -/
  | reset
  /-- The platform attaches a grid: `W`, `H`, `WRITABLE` and its pixels (70_reset_and_hazards.md R222, R225). -/
  | attach (w h : Half) (writable : Bool) (pixels : List PixelInit)
  /-- Another agent reads the grid (70_reset_and_hazards.md R225). -/
  | drain
  deriving DecidableEq, Repr

end Sys2Proof
end

