-- ==== Sys2Proof/WellFormed.lean ====
section
/-! DEFINITION. Well-formed words and host programs. An Instr has no operand field (30_encoding.md R83), so every Instr
is well formed; what can be ill formed is a `PHASE` value, a host operation and a host program. -/

namespace Sys2Proof

/-- Every command word is well formed (30_encoding.md R82); a `PHASE` value is, unless it is one of the reserved 6 and 7
(R84, R87). -/
def CodeWord.wf : CodeWord → Bool
  | .command _ => true
  | .phase p => decide (p.toNat ≤ 5)

/-- A host access is well formed when it is 32 bits wide at a multiple of 4 (20_memory.md R60). -/
def HostOp.wf : HostOp → Bool
  | .write addr width _ => decide (width = 4 ∧ addr.toNat % 4 = 0)
  | .read addr width _ => decide (width = 4 ∧ addr.toNat % 4 = 0)
  | .label _ => true
  | .bnz _ _ _ => true

/-- The labels a host program defines, in its order. -/
def labelsOf : List HostOp → List Nat
  | [] => []
  | .label l :: rest => l :: labelsOf rest
  | .write _ _ _ :: rest => labelsOf rest
  | .read _ _ _ :: rest => labelsOf rest
  | .bnz _ _ _ :: rest => labelsOf rest

/-- Every `BNZ` branches on a name some earlier line has read, to a label in `labels`; `named` holds the names read so
far. -/
def branchesWf (labels named : List Nat) : List HostOp → Bool
  | [] => true
  | .read _ _ n :: rest => branchesWf labels (n :: named) rest
  | .bnz n _ l :: rest => named.contains n && labels.contains l && branchesWf labels named rest
  | .write _ _ _ :: rest => branchesWf labels named rest
  | .label _ :: rest => branchesWf labels named rest

/-- A host program is well formed: each access is, its labels differ, and each branch has a name read on an earlier line
and a label of the program (30_encoding.md R89, R90 "unique to this expansion"). -/
def hostProgramWf (prog : List HostOp) : Bool :=
  prog.all HostOp.wf && decide (labelsOf prog).Nodup && branchesWf (labelsOf prog) [] prog

end Sys2Proof
end

