-- ==== Sys2Proof/Decode.lean ====
section
/-! DEFINITION. Decoding of command words and `PHASE` values, total and rejecting by name, and the encoder written from
the same tables (30_encoding.md R80 to R88). -/

namespace Sys2Proof

/-- Why bits are no instruction. -/
inductive DecodeError where
  /-- `PHASE` 6 or 7 (30_encoding.md R87: reserved, never held). -/
  | reservedPhase
  /-- A byte whose bits above bit 2 are not all zero: `PHASE` has 3 bits (30_encoding.md R84; log 14). -/
  | notAPhase
  /-- Neither the 4 bytes of a command word (30_encoding.md R88) nor the one byte that holds a `PHASE` value. -/
  | badLength
  deriving DecidableEq, Repr

/-- The command field `CMD = v[1:0]` (30_encoding.md R80). -/
def commandField (v : Word) : BitVec 2 := v.extractLsb' 0 2

/-- The command of a `CTRL` write (30_encoding.md R81): each of the four codes is decoded, `v[31:2]` is ignored (R82). -/
def decodeCommand (v : Word) : Instr :=
  if commandField v = 0#2 then .nop
  else if commandField v = 1#2 then .encode
  else if commandField v = 2#2 then .decode
  else .illegal

/-- The micro-operation a `PHASE` value selects (30_encoding.md R84). -/
def decodePhase (p : BitVec 3) : Except DecodeError Instr :=
  if p = 0#3 then .ok .idle
  else if p = 1#3 then .ok .encLoad
  else if p = 2#3 then .ok .encSlot
  else if p = 3#3 then .ok .encStore
  else if p = 4#3 then .ok .decLoad
  else if p = 5#3 then .ok .decSlot
  else .error .reservedPhase

/-- The instruction of a code word, or why there is none. -/
def decode : CodeWord → Except DecodeError Instr
  | .command v => .ok (decodeCommand v)
  | .phase p => decodePhase p

/-- The command word with code `cmd` and the reserved bits `reserved` above it (30_encoding.md R80). -/
def commandWord (reserved : BitVec 30) (cmd : BitVec 2) : Word := reserved ++ cmd

/-- The word of an instruction; for a command, `reserved` are the bits [31:2] it is written with. -/
def encodeWith (reserved : BitVec 30) : Instr → CodeWord
  | .nop => .command (commandWord reserved 0#2)
  | .encode => .command (commandWord reserved 1#2)
  | .decode => .command (commandWord reserved 2#2)
  | .illegal => .command (commandWord reserved 3#2)
  | .idle => .phase 0#3
  | .encLoad => .phase 1#3
  | .encSlot => .phase 2#3
  | .encStore => .phase 3#3
  | .decLoad => .phase 4#3
  | .decSlot => .phase 5#3

/-- The word of an instruction as software should write it, reserved bits 0 (30_encoding.md R80). -/
def encode (i : Instr) : CodeWord := encodeWith 0#30 i

/-- A code word as bytes: a command word little-endian, least byte at the lowest address (20_memory.md R64); a `PHASE`
value in one byte, zeros above it (log 14). -/
def codeBytes : CodeWord → List Byte
  | .command v => [v.extractLsb' 0 8, v.extractLsb' 8 8, v.extractLsb' 16 8, v.extractLsb' 24 8]
  | .phase p => [p.setWidth 8]

/-- The decoder on any bytes. -/
def decodeBytes : List Byte → Except DecodeError Instr
  | [b0, b1, b2, b3] => decode (.command (b3 ++ b2 ++ b1 ++ b0))
  | [b] => if b.toNat < 8 then decode (.phase (b.setWidth 3)) else .error .notAPhase
  | _ => .error .badLength

/-- The first `n` bytes of the number `w`, least first. -/
def bytesOfNat (n w : Nat) : List Byte :=
  (List.range n).map fun k => BitVec.ofNat 8 (w / 256 ^ k)

/-- The instruction the decoder reads from an instruction whose bits are `w`: a command word is 4 bytes, a `PHASE` value
one. -/
def decodeTableWord (nbits w : Nat) : Option Instr :=
  match decodeBytes (bytesOfNat ((nbits + 7) / 8) w) with
  | .ok i => some i
  | .error _ => none

/-- The row of spec/opcode_table.json: the bits its `mask` fixes and the value its `match` gives them. -/
structure TableRow where
  mask : Nat
  pattern : Nat
  deriving DecidableEq, Repr

/-- `mask` and `match` of each row, as the table prints them. -/
def tableRow : Instr → TableRow
  | .nop => ⟨0x00000003, 0x00000000⟩
  | .encode => ⟨0x00000003, 0x00000001⟩
  | .decode => ⟨0x00000003, 0x00000002⟩
  | .illegal => ⟨0x00000003, 0x00000003⟩
  | .idle => ⟨0x7, 0x0⟩
  | .encLoad => ⟨0x7, 0x1⟩
  | .encSlot => ⟨0x7, 0x2⟩
  | .encStore => ⟨0x7, 0x3⟩
  | .decLoad => ⟨0x7, 0x4⟩
  | .decSlot => ⟨0x7, 0x5⟩

/-- The bits of a code word as one number, bit 0 the least significant. -/
def CodeWord.bits : CodeWord → Nat
  | .command v => v.toNat
  | .phase p => p.toNat

end Sys2Proof
end

