-- ==== Sys2Proof/Machine/State.lean ====
section
/-! DEFINITION. The state of the whole system (the block, the grid behind its port, the open parameters, the host and
the agenda), why a step can stop, and the state after reset. -/

namespace Sys2Proof.Machine

/-- What one pixel of the grid holds: four 16-bit values the platform supplied, or the four bytes of the last
`GridWrite` of that pixel, which a read returns through `GRID_EXPAND` (20_memory.md R53, R54; log 15). -/
inductive Stored where
  | carrier (p : Quad Half)
  | written (p : Quad Byte)
  deriving DecidableEq, Repr

/-- The pixels of the grid, by key (Ops.lean, `pixelKey`): keys strictly rising, no entry equal to what an unlisted
pixel holds (Ops.lean, `unlistedPixel`, `Memory.wf`). -/
abbrev Memory := List (Nat × Stored)

/-- What lies behind the grid port: the inputs `W`, `H`, `WRITABLE` (10_state.md R34) and the pixels (20_memory.md
R51). -/
structure Grid where
  w : Half
  h : Half
  writable : Bool
  pixels : Memory
  deriving DecidableEq, Repr

/-- The block's internal state, the elements of the table of 10_state.md R38 under their own names (`inp` is `IN`). -/
structure Block where
  /-- `PHASE` (10_state.md R22). -/
  phase : BitVec 3
  /-- `DONE` (R29). -/
  done : Bool
  /-- `RESULT` (R29). -/
  result : BitVec 4
  /-- `X` (R23). -/
  x : Half
  /-- `Y` (R23). -/
  y : Half
  /-- `CH` (R24). -/
  ch : BitVec 2
  /-- `NBITS` (R25). -/
  nbits : Word
  /-- `IN[0..3]` (R26). -/
  inp : Quad Half
  /-- `O8[0..3]` (R27). -/
  o8 : Quad Byte
  /-- `SR` (R28). -/
  sr : Byte
  /-- `MSG_LEN` (R30). -/
  msgLen : Word
  /-- `MSG` (R31): the entries written since reset, by index, strictly rising; an unlisted entry has not been (R39). -/
  msg : List (Nat × Word)
  /-- `OBUF` (R32): the characters stored since reset, by index, strictly rising. -/
  obuf : List (Nat × Byte)
  /-- `OUT_LEN` (R33). -/
  outLen : Word
  deriving DecidableEq, Repr

/-- The host: its program, its position in it, and the values its names hold (30_encoding.md R89), by name, strictly
rising. -/
structure HostState where
  prog : List HostOp
  pc : Nat
  names : List (Nat × Word)
  deriving DecidableEq, Repr

/-- The whole system. `agenda`, `resets` and `draws` are the model's own fields (log 1, log 4, log 5). -/
structure State where
  block : Block
  grid : Grid
  params : Params
  host : HostState
  /-- Which agent moves in the coming steps, soonest first (20_memory.md R68); when it is empty the block moves while
  busy, else the host (log 1). -/
  agenda : List Event
  /-- How many resets there have been: it keys the free contents of unwritten `MSG` entries (log 4). -/
  resets : Nat
  /-- How many free values reads of `OUT` have drawn (log 5). -/
  draws : Nat
  deriving DecidableEq, Repr

/-- Why the machine stops with no defined result. None is hardware behaviour (60_exceptions.md R215). -/
inductive Fault where
  /-- ENC_SLOT reads a `MSG` entry not written since reset (10_state.md R39, 60_exceptions.md R215). Safe: the hardware
  goes on with whatever the buffer holds. -/
  | msgUnwritten
  /-- The sequencer's turn with `PHASE` 6 or 7 (30_encoding.md R87, 60_exceptions.md R215). Safe: never held. -/
  | phaseReserved
  /-- ENC_LOAD, DEC_LOAD or ENC_STORE at a pixel outside the grid, an address that does not exist (20_memory.md R51,
  R55). Safe: never reached from an accepted command (log 8). -/
  | gridOutOfBounds
  /-- ENC_STORE with `WRITABLE = 0`, a write the block never issues (20_memory.md R53, R55). Safe: never reached from an
  accepted command (log 8). -/
  | gridNotWritable
  deriving DecidableEq, Repr

/-- Why a step has no meaning. -/
inductive Refusal where
  /-- An instruction with no meaning yet, by its mnemonic; raised by exec's arms only. Safe. -/
  | notModelled (mnemonic : String)
  /-- A host access that is not 32 bits wide at a multiple of 4 (20_memory.md R60, 60_exceptions.md R215). Safe. -/
  | busAccess
  /-- The grid or its inputs touched by another agent while the block is busy (70_reset_and_hazards.md R225,
  60_exceptions.md R215). Safe. -/
  | gridTouchedWhileBusy
  /-- A host `BNZ` on a name no `R32` has assigned: the host program means nothing (30_encoding.md R89; log 12). Safe. -/
  | hostNameUnassigned
  /-- A host `BNZ` to a label its program lacks: the host program means nothing (30_encoding.md R89; log 12). Safe. -/
  | hostLabelMissing
  deriving DecidableEq, Repr

/-- The block after reset (10_state.md R38, 70_reset_and_hazards.md R220): every register 0, and nothing written in
`MSG` or `OBUF`, whose contents are unspecified (R39). -/
def Block.reset : Block where
  phase := 0#3
  done := false
  result := 0#4
  x := 0#16
  y := 0#16
  ch := 0#2
  nbits := 0#32
  inp := ⟨0#16, 0#16, 0#16, 0#16⟩
  o8 := ⟨0#8, 0#8, 0#8, 0#8⟩
  sr := 0#8
  msgLen := 0#32
  msg := []
  obuf := []
  outLen := 0#32

/-- No grid attached: `W = H = 0`, `WRITABLE = 0` (DESIGN CHOICE: they are port inputs, log 2). -/
def Grid.empty : Grid := ⟨0#16, 0#16, false, []⟩

/-- The open parameters, at their free values (log 3). -/
def openParams : Params := ⟨Config.msgDepth, Config.obufDepth, Config.gridExpand⟩

/-- The system right after reset: the block at its reset values, no grid attached and no host program (log 2). -/
def State.reset : State where
  block := Block.reset
  grid := Grid.empty
  params := openParams
  host := ⟨[], 0, []⟩
  agenda := []
  resets := 0
  draws := 0

end Sys2Proof.Machine
end

