-- ==== Sys2Proof/Machine/Ops.lean ====
section
/-! DEFINITION. The named operations over the state: sorted lists by key (grid pixels, MSG, OBUF, host names), the grid
port, the cursor, and how an operation begins and ends (`finish`, the block's only "trap entry"; there is no return,
60_exceptions.md R205, R206). -/

namespace Sys2Proof.Machine

/-! ## Lists by key, keys strictly rising -/

/-- The value at key `k`, if the list has one. -/
def lookupAt {α : Type} (k : Nat) : List (Nat × α) → Option α
  | [] => none
  | (j, v) :: rest => if k = j then some v else lookupAt k rest

/-- Put `v` at key `k`, keeping the keys strictly rising. -/
def putAt {α : Type} (k : Nat) (v : α) : List (Nat × α) → List (Nat × α)
  | [] => [(k, v)]
  | (j, u) :: rest =>
    if k < j then (k, v) :: (j, u) :: rest
    else if k = j then (k, v) :: rest
    else (j, u) :: putAt k v rest

/-- Take the entry at key `k` out. -/
def dropAt {α : Type} (k : Nat) : List (Nat × α) → List (Nat × α)
  | [] => []
  | (j, u) :: rest => if k = j then rest else (j, u) :: dropAt k rest

/-- Whether every key is above `k`. -/
def keysAbove {α : Type} (k : Nat) (l : List (Nat × α)) : Bool :=
  l.all fun e => decide (k < e.1)

/-- Whether the keys strictly rise. -/
def rising {α : Type} : List (Nat × α) → Bool
  | [] => true
  | (k, _) :: rest => keysAbove k rest && rising rest

/-- Whether every key is below `n`. -/
def keysBelow {α : Type} (n : Nat) (l : List (Nat × α)) : Bool :=
  l.all fun e => decide (e.1 < n)

/-! ## Grid pixels -/

/-- The key of the pixel at `(x, y)`: keys rise in raster order (00_scope.md §6). -/
def pixelKey (x y : Half) : Nat := y.toNat * 65536 + x.toNat

/-- What a pixel the list does not name holds: four zero channels (log 7). -/
def unlistedPixel : Stored := .carrier ⟨0#16, 0#16, 0#16, 0#16⟩

/-- The canonical form of the pixels: keys strictly rising, no entry equal to an unlisted pixel. -/
def Memory.wf (m : Memory) : Bool :=
  rising m && m.all fun e => decide (e.2 ≠ unlistedPixel)

/-- What the pixel with key `k` holds. -/
def storedAt (m : Memory) (k : Nat) : Stored := (lookupAt k m).getD unlistedPixel

/-- Make the pixel with key `k` hold `v`, in canonical form. -/
def storePixel (m : Memory) (k : Nat) (v : Stored) : Memory :=
  if v = unlistedPixel then dropAt k m else putAt k v m

/-- Whether the grid has a pixel at `(x, y)`: `0 ≤ x < W`, `0 ≤ y < H` (20_memory.md R51). -/
def inGrid (g : Grid) (x y : Half) : Bool :=
  decide (x.toNat < g.w.toNat ∧ y.toNat < g.h.toNat)

/-- The four 16-bit values a read returns for what a pixel holds (20_memory.md R52, R53). -/
def readStored (p : Params) : Stored → Quad Half
  | .carrier v => v
  | .written v => v.map p.gridExpand

/-- The four values of the pixel at `(x, y)` as a grid read returns them. -/
def pixelAt (s : State) (x y : Half) : Quad Half :=
  readStored s.params (storedAt s.grid.pixels (pixelKey x y))

/-- `GridRead(x, y)` (20_memory.md R52): it changes nothing; outside the grid there is no pixel (R51). -/
def gridRead (s : State) (x y : Half) : Except Fault (Quad Half) :=
  if inGrid s.grid x y then .ok (pixelAt s x y) else .error .gridOutOfBounds

/-- `GridWrite(x, y, (r, g, b, a))` (20_memory.md R53): it replaces the whole pixel by four bytes. -/
def gridWrite (s : State) (x y : Half) (v : Quad Byte) : Except Fault State :=
  if inGrid s.grid x y then
    if s.grid.writable then
      .ok { s with grid := { s.grid with
        pixels := storePixel s.grid.pixels (pixelKey x y) (.written v) } }
    else .error .gridNotWritable
  else .error .gridOutOfBounds

/-! ## Phases and results -/

/-- `PHASE` values (10_state.md R22, 30_encoding.md R84). -/
def phaseIdle : BitVec 3 := 0#3
/-- ENC_LOAD. -/
def phaseEncLoad : BitVec 3 := 1#3
/-- ENC_SLOT. -/
def phaseEncSlot : BitVec 3 := 2#3
/-- ENC_STORE. -/
def phaseEncStore : BitVec 3 := 3#3
/-- DEC_LOAD. -/
def phaseDecLoad : BitVec 3 := 4#3
/-- DEC_SLOT. -/
def phaseDecSlot : BitVec 3 := 5#3

/-- `PHASE <- p`. -/
def setPhase (p : BitVec 3) (s : State) : State :=
  { s with block := { s.block with phase := p } }

/-- The block is busy exactly when `PHASE ≠ IDLE` (10_state.md R22, R37). -/
def busy (s : State) : Bool := decide (s.block.phase ≠ phaseIdle)

/-- The results of an operation (30_encoding.md R85). -/
inductive ResultCode where
  | ok
  | unsupportedCarrier
  | capacityExceeded
  | terminatorNotFound
  | illegalCommand
  | msgLenRange
  | outOverflow
  deriving DecidableEq, Repr

/-- The codes of `STATUS.RESULT` (30_encoding.md R85). -/
def resultBits : ResultCode → BitVec 4
  | .ok => 0#4
  | .unsupportedCarrier => 1#4
  | .capacityExceeded => 2#4
  | .terminatorNotFound => 3#4
  | .illegalCommand => 4#4
  | .msgLenRange => 5#4
  | .outOverflow => 6#4

/-- `finish(code)` (40_control.md R105): `PHASE <- IDLE`, `DONE <- 1`, `RESULT <- code`, and `NBITS <- 0` unless the
code is OK. Nothing else is saved or changed (60_exceptions.md R205). -/
def finish (code : ResultCode) (s : State) : State :=
  { s with block := { s.block with
    phase := phaseIdle
    done := true
    result := resultBits code
    nbits := if code = .ok then s.block.nbits else 0#32 } }

/-- The first line of ENCODE and DECODE acceptance (40_control.md R102, R103): `DONE <- 0; RESULT <- 0; NBITS <- 0`. -/
def beginOperation (s : State) : State :=
  { s with block := { s.block with done := false, result := 0#4, nbits := 0#32 } }

/-- `X <- 0; Y <- 0; CH <- 0` (40_control.md R102, R103). -/
def homeCursor (s : State) : State :=
  { s with block := { s.block with x := 0#16, y := 0#16, ch := 0#2 } }

/-! ## Cursor -/

/-- `Advance()` (42_traversal.md R131): the next pixel in raster order. `X + 1` and `Y + 1` keep 16 bits (log 9). -/
def advance (s : State) : State :=
  if s.block.x + 1#16 = s.grid.w then
    { s with block := { s.block with x := 0#16, y := s.block.y + 1#16 } }
  else
    { s with block := { s.block with x := s.block.x + 1#16 } }

/-- `NBITS <- NBITS + 1`, in 32 bits (log 9). -/
def countBit (s : State) : State :=
  { s with block := { s.block with nbits := s.block.nbits + 1#32 } }

/-- `CH <- CH + 1`. -/
def nextSlot (s : State) : State :=
  { s with block := { s.block with ch := s.block.ch + 1#2 } }

end Sys2Proof.Machine
end

