-- ==== Sys2Proof/Machine/Operands.lean ====
section
/-! DEFINITION. The implicit operands of the micro-operations (30_encoding.md R83): narrowing and parity, the channel
selected by `CH`, the message's stream bits, and the parity-toggle function. -/

namespace Sys2Proof.Machine

/-- `CH_MAX`, the largest channel value (00_scope.md §4). -/
def chMax : Int := 65535

/-- `narrow8(v) = v mod 256` (00_scope.md R4), so `narrow8(-1) = 255`. -/
def narrow8 (v : Int) : Byte := BitVec.ofNat 8 (v % 256).toNat

/-- Whether `parity(v) = v mod 2` is 1 (00_scope.md R5). -/
def oddInt (v : Int) : Bool := decide (v % 2 = 1)

/-- The parity bit of a channel value as read (00_scope.md R5; 44_scanner.md R161 "emit bit 0 if the value is even,
bit 1 if odd"). -/
def parityBit (v : Half) : Bool := oddInt (v.toNat : Int)

/-- The channel value of a pixel narrowed to 8 bits (43_embedder.md R144). -/
def narrowHalf (v : Half) : Byte := narrow8 (v.toNat : Int)

/-- Element `CH` of four (30_encoding.md R86: 0 = R, 1 = G, 2 = B, 3 = A). -/
def selectChannel {α : Type} (q : Quad α) (c : BitVec 2) : α :=
  if c = 0#2 then q.r else if c = 1#2 then q.g else if c = 2#2 then q.b else q.a

/-- Replace element `CH` of four. -/
def replaceChannel {α : Type} (q : Quad α) (c : BitVec 2) (v : α) : Quad α :=
  if c = 0#2 then { q with r := v }
  else if c = 1#2 then { q with g := v }
  else if c = 2#2 then { q with b := v }
  else { q with a := v }

/-- `Toggle(v, b)` (43_embedder.md R140): exactly the comparisons the source makes, in their order, the zero case
decrementing to -1. -/
def toggle (v : Half) (b : Bool) : Int :=
  if b = false then
    if parityBit v = true then
      if (v.toNat : Int) = chMax then (v.toNat : Int) - 1 else (v.toNat : Int) + 1
    else (v.toNat : Int)
  else
    if parityBit v = false then
      if v.toNat = 0 then (v.toNat : Int) - 1 else (v.toNat : Int) + 1
    else (v.toNat : Int)

/-- The byte written for a slot that read `v` and carries bit `b` (43_embedder.md R141). -/
def embedByte (v : Half) (b : Bool) : Byte := narrow8 (toggle v b)

/-- `NB(L) = 8·(L + 1)`, exact (41_bitstream_encoder.md R120). -/
def streamLength (len : Nat) : Nat := 8 * (len + 1)

/-- The low 8 bits of a code unit, masked and never range-checked (41_bitstream_encoder.md R122). -/
def maskUnit (u : Word) : Byte := u.setWidth 8

/-- `StreamBit(i)` (41_bitstream_encoder.md R121), most significant bit of each character first, then the terminator's
zeros; none where it needs a `MSG` entry not written since reset (10_state.md R39). -/
def streamBit (b : Block) (i : Nat) : Option Bool :=
  if i < 8 * b.msgLen.toNat then
    (lookupAt (i / 8) b.msg).map fun u => (maskUnit u).getLsbD (7 - i % 8)
  else some false

/-- `SR <- (2·SR + b) mod 256` (44_scanner.md R161). -/
def shiftIn (sr : Byte) (b : Bool) : Byte := BitVec.ofNat 8 (2 * sr.toNat + b.toNat)

/-- The slots of the carrier, `3·W·H`, exact (42_traversal.md R133). -/
def carrierSlots (g : Grid) : Nat := 3 * (g.w.toNat * g.h.toNat)

end Sys2Proof.Machine
end

