-- ==== Sys2Proof/Machine/Flags.lean ====
section
/-! DEFINITION. The block has no condition codes; its status flags are `DONE` and `RESULT` (10_state.md R29), written by
`beginOperation` and `finish` (Ops.lean). Here: the tests the rules make on the state, and the `STATUS` word that shows
the flags to the host. -/

namespace Sys2Proof.Machine

/-- One bit as a register field. -/
def bitField (b : Bool) : BitVec 1 := BitVec.ofBool b

/-- `STATUS` (10_state.md R35): reserved [31:14], CH [13:12], reserved [11], PHASE [10:8], RESULT [7:4], reserved [3],
WRITABLE [2], DONE [1], BUSY [0]. -/
def statusWord (s : State) : Word :=
  0#18 ++ s.block.ch ++ 0#1 ++ s.block.phase ++ s.block.result ++ 0#1 ++
    bitField s.grid.writable ++ bitField s.block.done ++ bitField (busy s)

/-- Whether the whole stream has been consumed: `NBITS = 8·(MSG_LEN + 1)`, the product exact (43_embedder.md R145,
R146). -/
def streamDone (s : State) : Bool :=
  decide (s.block.nbits.toNat = streamLength s.block.msgLen.toNat)

/-- Whether a character has just completed: `NBITS mod 8 = 0` (44_scanner.md R161). -/
def characterDone (s : State) : Bool := decide (s.block.nbits.toNat % 8 = 0)

/-- The index of the character just completed: `NBITS div 8 - 1` (44_scanner.md R161). -/
def characterIndex (s : State) : Nat := s.block.nbits.toNat / 8 - 1

/-- The terminator: `SR = 0` and `NBITS ≥ 8` (44_scanner.md R162). -/
def terminatorSeen (s : State) : Bool :=
  decide (s.block.sr = 0#8 ∧ 8 ≤ s.block.nbits.toNat)

end Sys2Proof.Machine
end

