-- ==== Sys2Proof/Machine/Command.lean ====
section
/-! DEFINITION. The four commands (40_control.md R101 to R104), as performed when one is accepted. That a command
written while busy is not performed at all (R100) is the host access's business (Bus.lean, `acceptCommand`; log 11). -/

namespace Sys2Proof.Machine

/-- NOP (40_control.md R101): no state changes. -/
def execNop (s : State) : Host.Outcome State Fault Refusal := .next s

/-- ENCODE (40_control.md R102): writability, then length, then capacity, in that order (60_exceptions.md R202). -/
def execEncode (s : State) : Host.Outcome State Fault Refusal :=
  if s.grid.writable = false then
    .next (finish .unsupportedCarrier (beginOperation s))
  else if s.block.msgLen.toNat > s.params.msgDepth.val then
    .next (finish .msgLenRange (beginOperation s))
  else if streamLength s.block.msgLen.toNat > carrierSlots s.grid then
    .next (finish .capacityExceeded (beginOperation s))
  else
    .next (setPhase phaseEncLoad (homeCursor (beginOperation s)))

/-- `OUT_LEN <- 0; SR <- 0` (40_control.md R103). -/
def clearDecode (s : State) : State :=
  { s with block := { s.block with outLen := 0#32, sr := 0#8 } }

/-- DECODE (40_control.md R103): an empty grid ends it at once. -/
def execDecode (s : State) : Host.Outcome State Fault Refusal :=
  if s.grid.w = 0#16 ∨ s.grid.h = 0#16 then
    .next (finish .terminatorNotFound (homeCursor (clearDecode (beginOperation s))))
  else
    .next (setPhase phaseDecLoad (homeCursor (clearDecode (beginOperation s))))

/-- The reserved command code 3 (40_control.md R104): `finish(ILLEGAL_COMMAND)`. -/
def execIllegal (s : State) : Host.Outcome State Fault Refusal :=
  .next (finish .illegalCommand s)

end Sys2Proof.Machine
end

