-- ==== Sys2Proof/Machine/Embed.lean ====
section
/-! DEFINITION. The encode micro-operations (43_embedder.md R144 to R146). -/

namespace Sys2Proof.Machine

/-- The latch, the working copy and slot R of a pixel just read (43_embedder.md R144). -/
def latchForEncode (p : Quad Half) (s : State) : State :=
  { s with block := { s.block with inp := p, o8 := p.map narrowHalf, ch := 0#2 } }

/-- ENC_LOAD (43_embedder.md R144). -/
def execEncLoad (s : State) : Host.Outcome State Fault Refusal :=
  match gridRead s s.block.x s.block.y with
  | .error f => .fault f
  | .ok p => .next (setPhase phaseEncSlot (latchForEncode p s))

/-- `O8[CH] <- narrow8(Toggle(IN[CH], b))` (43_embedder.md R145): from the latch, never from the grid. -/
def embedBit (b : Bool) (s : State) : State :=
  { s with block := { s.block with
    o8 := replaceChannel s.block.o8 s.block.ch (embedByte (selectChannel s.block.inp s.block.ch) b) } }

/-- ENC_SLOT (43_embedder.md R145). -/
def execEncSlot (s : State) : Host.Outcome State Fault Refusal :=
  match streamBit s.block s.block.nbits.toNat with
  | none => .fault .msgUnwritten
  | some b =>
    let t := countBit (embedBit b s)
    if streamDone t = true ∨ t.block.ch = 2#2 then .next (setPhase phaseEncStore t)
    else .next (nextSlot t)

/-- ENC_STORE (43_embedder.md R146). -/
def execEncStore (s : State) : Host.Outcome State Fault Refusal :=
  match gridWrite s s.block.x s.block.y s.block.o8 with
  | .error f => .fault f
  | .ok t =>
    if streamDone t = true then .next (finish .ok (advance t))
    else .next (setPhase phaseEncLoad (advance t))

end Sys2Proof.Machine
end

