-- ==== Sys2Proof/Machine/Scan.lean ====
section
/-! DEFINITION. The decode micro-operations (44_scanner.md R160, R161) and the character deserializer that runs inside
DEC_SLOT (45_decoder.md R181, R183, R184). -/

namespace Sys2Proof.Machine

/-- The latch and slot R of a pixel just read (44_scanner.md R160). -/
def latchForDecode (p : Quad Half) (s : State) : State :=
  { s with block := { s.block with inp := p, ch := 0#2 } }

/-- DEC_LOAD (44_scanner.md R160). -/
def execDecLoad (s : State) : Host.Outcome State Fault Refusal :=
  match gridRead s s.block.x s.block.y with
  | .error f => .fault f
  | .ok p => .next (setPhase phaseDecSlot (latchForDecode p s))

/-- `SR <- (2·SR + b) mod 256` with the parity bit of `IN[CH]` (44_scanner.md R161). -/
def scanBit (s : State) : State :=
  { s with block := { s.block with
    sr := shiftIn s.block.sr (parityBit (selectChannel s.block.inp s.block.ch)) } }

/-- `OBUF[j] <- SR` (44_scanner.md R161, 45_decoder.md R181). -/
def storeCharacter (j : Nat) (s : State) : State :=
  { s with block := { s.block with obuf := putAt j s.block.sr s.block.obuf } }

/-- `OUT_LEN <- NBITS div 8` (45_decoder.md R183). -/
def setOutLen (s : State) : State :=
  { s with block := { s.block with outLen := BitVec.ofNat 32 (s.block.nbits.toNat / 8) } }

/-- The end of DEC_SLOT when it has not stopped (44_scanner.md R161): the next slot of the pixel, or the next pixel, or
the end of the grid. -/
def nextScan (s : State) : State :=
  if s.block.ch.toNat < 2 then nextSlot s
  else if (advance s).block.y = s.grid.h then finish .terminatorNotFound (advance s)
  else setPhase phaseDecLoad (advance s)

/-- The terminator check of DEC_SLOT and what follows it (44_scanner.md R161, R162). -/
def afterCharacter (s : State) : State :=
  if terminatorSeen s = true then finish .ok (setOutLen s) else nextScan s

/-- DEC_SLOT (44_scanner.md R161): character store with its overflow check, terminator, end of grid, in that order
(60_exceptions.md R203). -/
def execDecSlot (s : State) : Host.Outcome State Fault Refusal :=
  let t := countBit (scanBit s)
  if characterDone t = true then
    if t.params.obufDepth.val ≤ characterIndex t then .next (finish .outOverflow t)
    else .next (afterCharacter (storeCharacter (characterIndex t) t))
  else .next (afterCharacter t)

end Sys2Proof.Machine
end

