-- ==== Sys2Proof/Machine/Sequencer.lean ====
section
/-! DEFINITION. The sequencer's IDLE (40_control.md R106). -/

namespace Sys2Proof.Machine

/-- IDLE (40_control.md R106, 60_exceptions.md R214): the block takes no step; its state persists. -/
def execIdle (s : State) : Host.Outcome State Fault Refusal := .next s

end Sys2Proof.Machine
end

