-- ==== Sys2Proof/Machine/Dispatch.lean ====
section
/-! DEFINITION. One arm per instruction of spec/opcode_table.json, each one call of its meaning. -/

namespace Sys2Proof.Machine

/-- What one instruction does. -/
def exec (i : Instr) (s : State) : Host.Outcome State Fault Refusal :=
  match i with
  | .nop => Sys2Proof.Machine.execNop s
  | .encode => Sys2Proof.Machine.execEncode s
  | .decode => Sys2Proof.Machine.execDecode s
  | .illegal => Sys2Proof.Machine.execIllegal s
  | .idle => Sys2Proof.Machine.execIdle s
  | .encLoad => Sys2Proof.Machine.execEncLoad s
  | .encSlot => Sys2Proof.Machine.execEncSlot s
  | .encStore => Sys2Proof.Machine.execEncStore s
  | .decLoad => Sys2Proof.Machine.execDecLoad s
  | .decSlot => Sys2Proof.Machine.execDecSlot s

end Sys2Proof.Machine
end

