-- ==== Sys2Proof/Machine/Bus.lean ====
section
/-! DEFINITION. The register space (20_memory.md R56 to R60): which register an address names, what a read returns, what
a write does, and the acceptance of a command (40_control.md R100). -/

namespace Sys2Proof.Machine

/-- What an address of the register space names (10_state.md R35, 20_memory.md R56). -/
inductive Reg where
  | ctrl
  | status
  | msgLen
  | gridW
  | gridH
  | nbits
  | outLen
  | posX
  | posY
  /-- `MSG[i]`, `i < MSG_DEPTH`. -/
  | msg (i : Nat)
  /-- `OUT[i]`, `i < OBUF_DEPTH`. -/
  | out (i : Nat)
  /-- Any other address: reads 0, ignores writes (20_memory.md R59). -/
  | unmapped
  deriving DecidableEq, Repr

/-- The first address of the message window (20_memory.md R56). -/
def msgBase : Nat := 0x01000000

/-- The first address of the output window (20_memory.md R56). -/
def outBase : Nat := 0x02000000

/-- The registers at `0x00` to `0x20`, by word index (10_state.md R35). -/
def fixedReg : Nat → Reg
  | 0 => .ctrl
  | 1 => .status
  | 2 => .msgLen
  | 3 => .gridW
  | 4 => .gridH
  | 5 => .nbits
  | 6 => .outLen
  | 7 => .posX
  | 8 => .posY
  | _ => .unmapped

/-- The register at a byte address that is a multiple of 4 (10_state.md R35, 20_memory.md R56). -/
def regAt (p : Params) (addr : Word) : Reg :=
  if addr.toNat < 0x24 then fixedReg (addr.toNat / 4)
  else if msgBase ≤ addr.toNat ∧ addr.toNat < msgBase + 4 * p.msgDepth.val then
    .msg ((addr.toNat - msgBase) / 4)
  else if outBase ≤ addr.toNat ∧ addr.toNat < outBase + 4 * p.obufDepth.val then
    .out ((addr.toNat - outBase) / 4)
  else .unmapped

/-- The character a read of `OUT[i]` returns, where the spec says which: below `OUT_LEN` (10_state.md R32, R39,
20_memory.md R57). While a decode runs `OUT_LEN` is 0, so it says it of none (log 6). -/
def outCharacter (s : State) (i : Nat) : Option Byte :=
  if i < s.block.outLen.toNat then lookupAt i s.block.obuf else none

/-- A read of a register: its value, and the state after it, which is the state before it but for the draw of a free
value (10_state.md R35 to R37, 20_memory.md R57; log 4, log 5). -/
def readReg (s : State) : Reg → Word × State
  | .ctrl => (0#32, s)
  | .status => (statusWord s, s)
  | .msgLen => (s.block.msgLen, s)
  | .gridW => (s.grid.w.setWidth 32, s)
  | .gridH => (s.grid.h.setWidth 32, s)
  | .nbits => (s.block.nbits, s)
  | .outLen => (s.block.outLen, s)
  | .posX => (s.block.x.setWidth 32, s)
  | .posY => (s.block.y.setWidth 32, s)
  | .msg i => ((lookupAt i s.block.msg).getD (Config.unwrittenMsg s.resets i), s)
  | .out i =>
    match outCharacter s i with
    | some c => (c.setWidth 32, s)
    | none => ((Config.outDraw s.draws).setWidth 32, { s with draws := s.draws + 1 })
  | .unmapped => (0#32, s)

/-- `accept_command` (40_control.md R100): nothing at all while busy, else the command in the same step. -/
def acceptCommand (v : Word) (s : State) : Host.Outcome State Fault Refusal :=
  if busy s = true then .next s else exec (decodeCommand v) s

/-- `MSG_LEN <- v`. -/
def setMsgLen (v : Word) (s : State) : State :=
  { s with block := { s.block with msgLen := v } }

/-- `MSG[i] <- v`. -/
def setMsgEntry (i : Nat) (v : Word) (s : State) : State :=
  { s with block := { s.block with msg := putAt i v s.block.msg } }

/-- A write of a register (20_memory.md R58): a command, `MSG_LEN` or a `MSG` entry while idle, else no effect. -/
def writeReg (v : Word) (s : State) : Reg → Host.Outcome State Fault Refusal
  | .ctrl => acceptCommand v s
  | .msgLen => if busy s = true then .next s else .next (setMsgLen v s)
  | .msg i => if busy s = true then .next s else .next (setMsgEntry i v s)
  | .status => .next s
  | .gridW => .next s
  | .gridH => .next s
  | .nbits => .next s
  | .outLen => .next s
  | .posX => .next s
  | .posY => .next s
  | .out _ => .next s
  | .unmapped => .next s

/-- Whether the bus offers the access: 32 bits at a multiple of 4 (20_memory.md R60). -/
def busOffers (addr : Word) (width : Nat) : Bool := decide (width = 4 ∧ addr.toNat % 4 = 0)

/-- `MemWrite(addr, width, v)` (20_memory.md R58, R60). -/
def memWrite (addr : Word) (width : Nat) (v : Word) (s : State) : Host.Outcome State Fault Refusal :=
  if busOffers addr width = true then writeReg v s (regAt s.params addr) else .refused .busAccess

/-- `MemRead(addr, width)` (20_memory.md R57, R60): the value and the state after it. -/
def memRead (addr : Word) (width : Nat) (s : State) : Except Refusal (Word × State) :=
  if busOffers addr width = true then .ok (readReg s (regAt s.params addr)) else .error .busAccess

end Sys2Proof.Machine
end

