-- ==== Sys2Proof/Machine/Agents.lean ====
section
/-! DEFINITION. One step of each agent: the block's sequencer (40_control.md R106), the host and its program
(30_encoding.md R89 to R91), reset (70_reset_and_hazards.md R220) and the platform (R225). -/

namespace Sys2Proof.Machine

/-! ## The block -/

/-- One step of the sequencer (40_control.md R106): the micro-operation `PHASE` selects; 6 and 7 fault (30_encoding.md
R87). -/
def blockTurn (s : State) : Host.Outcome State Fault Refusal :=
  match decode (.phase s.block.phase) with
  | .ok i => exec i s
  | .error _ => .fault .phaseReserved

/-! ## The host -/

/-- The operation the host performs next, if its program goes on. -/
def hostOp (s : State) : Option HostOp := s.host.prog[s.host.pc]?

/-- The host moves to the next line of its program. -/
def hostAdvance (s : State) : State :=
  { s with host := { s.host with pc := s.host.pc + 1 } }

/-- The host goes to line `k` of its program. -/
def hostGoto (k : Nat) (s : State) : State :=
  { s with host := { s.host with pc := k } }

/-- `name <- v`. -/
def hostAssign (name : Nat) (v : Word) (s : State) : State :=
  { s with host := { s.host with names := putAt name v s.host.names } }

/-- The line a label stands on, counted from `k` (30_encoding.md R89 "a position in the host program"). -/
def labelLine (l : Nat) : List HostOp → Nat → Option Nat
  | [], _ => none
  | op :: rest, k => if op = .label l then some k else labelLine l rest (k + 1)

/-- `BNZ name, mask, label` (30_encoding.md R89): a branch of the host, no bus transaction. -/
def hostBranch (name : Nat) (mask : Word) (l : Nat) (s : State) : Host.Outcome State Fault Refusal :=
  match lookupAt name s.host.names with
  | none => .refused .hostNameUnassigned
  | some v =>
    if v &&& mask = 0#32 then .next (hostAdvance s)
    else
      match labelLine l s.host.prog 0 with
      | none => .refused .hostLabelMissing
      | some k => .next (hostGoto k s)

/-- One operation of the host (30_encoding.md R89). -/
def hostPerform (op : HostOp) (s : State) : Host.Outcome State Fault Refusal :=
  match op with
  | .write addr width v => memWrite addr width v (hostAdvance s)
  | .read addr width name =>
    match memRead addr width (hostAdvance s) with
    | .error r => .refused r
    | .ok (v, t) => .next (hostAssign name v t)
  | .label _ => .next (hostAdvance s)
  | .bnz name mask l => hostBranch name mask l s

/-- One step of the host: the next operation of its program, in its order (20_memory.md R68); nothing when the program
has ended. -/
def hostTurn (s : State) : Host.Outcome State Fault Refusal :=
  match hostOp s with
  | none => .next s
  | some op => hostPerform op s

/-- `W32 addr, value` (30_encoding.md R89). -/
def w32 (addr value : Word) : HostOp := .write addr 4 value

/-- `R32 addr -> name` (30_encoding.md R89). -/
def r32 (addr : Word) (name : Nat) : HostOp := .read addr 4 name

/-- `CMD_NOP` (30_encoding.md R89). -/
def cmdNop : HostOp := w32 0x00000000#32 0x00000000#32

/-- `CMD_ENCODE` (30_encoding.md R89). -/
def cmdEncode : HostOp := w32 0x00000000#32 0x00000001#32

/-- `CMD_DECODE` (30_encoding.md R89). -/
def cmdDecode : HostOp := w32 0x00000000#32 0x00000002#32

/-- `WAIT_DONE` with its label and the name it reads `STATUS` into (30_encoding.md R90). -/
def waitDone (l name : Nat) : List HostOp :=
  [.label l, r32 0x00000004#32 name, .bnz name 0x00000001#32 l]

/-- The writes of `MSG[i], MSG[i + 1], …` of `SET_MSG` (30_encoding.md R91). -/
def setMsgFrom (i : Nat) : List Word → List HostOp
  | [] => []
  | u :: rest => w32 (BitVec.ofNat 32 (msgBase + 4 * i)) u :: setMsgFrom (i + 1) rest

/-- `SET_MSG u0, …, u(L-1)` (30_encoding.md R91). -/
def setMsg (us : List Word) : List HostOp :=
  setMsgFrom 0 us ++ [w32 0x00000008#32 (BitVec.ofNat 32 us.length)]

/-- The code units of a text: its characters, in order (30_encoding.md R91), each as its Unicode number (log 18). -/
def textUnits (text : String) : List Word := text.toList.map fun c => BitVec.ofNat 32 c.toNat

/-- `SET_MSG "text"` (30_encoding.md R91). -/
def setMsgText (text : String) : List HostOp := setMsg (textUnits text)

/-! ## Reset and the platform -/

/-- Reset (70_reset_and_hazards.md R220): every register to its reset value, `MSG` and `OBUF` unspecified again, the grid
and its inputs untouched; the host goes on with its program. -/
def resetBlock (s : State) : State :=
  { s with block := Block.reset, resets := s.resets + 1 }

/-- Give the pixels of `ps` that lie in the grid their values, in order. -/
def fillPixels (g : Grid) : List PixelInit → Grid
  | [] => g
  | p :: ps =>
    fillPixels
      (if inGrid g p.x p.y then
        { g with pixels := storePixel g.pixels (pixelKey p.x p.y) (.carrier p.value) }
      else g) ps

/-- The grid the platform attaches: `W`, `H`, `WRITABLE` and its pixels (70_reset_and_hazards.md R222; log 16). -/
def attachGrid (w h : Half) (writable : Bool) (pixels : List PixelInit) : Grid :=
  fillPixels ⟨w, h, writable, []⟩ pixels

/-- The platform attaches a grid; refused while busy (70_reset_and_hazards.md R225). -/
def attachTurn (w h : Half) (writable : Bool) (pixels : List PixelInit) (s : State) :
    Host.Outcome State Fault Refusal :=
  if busy s = true then .refused .gridTouchedWhileBusy
  else .next { s with grid := attachGrid w h writable pixels }

/-- Another agent reads the grid: nothing changes; refused while busy (70_reset_and_hazards.md R225). -/
def drainTurn (s : State) : Host.Outcome State Fault Refusal :=
  if busy s = true then .refused .gridTouchedWhileBusy else .next s

/-- The step of one agenda entry. -/
def perform (e : Event) (s : State) : Host.Outcome State Fault Refusal :=
  match e with
  | .block => blockTurn s
  | .host => hostTurn s
  | .reset => .next (resetBlock s)
  | .attach w h writable pixels => attachTurn w h writable pixels s
  | .drain => drainTurn s

/-- Who moves when the agenda is empty (log 1): the block while busy, else the host while its program goes on, else the
block, which is idle. -/
def defaultEvent (s : State) : Event :=
  if busy s = true then .block
  else if (hostOp s).isSome = true then .host
  else .block

/-- The agent that moves next. -/
def nextEvent (s : State) : Event :=
  match s.agenda with
  | [] => defaultEvent s
  | e :: _ => e

/-- The agenda without the entry about to be performed. -/
def popAgenda (s : State) : State := { s with agenda := s.agenda.tail }

/-! ## Placing an instruction to be run next -/

/-- A grid that has a pixel at `(x, y)` and may be written: the grid itself if so, else one just large enough (log 13). -/
def coverPixel (g : Grid) (x y : Half) : Grid :=
  if inGrid g x y = true ∧ g.writable = true then g
  else if x.toNat < 65535 ∧ y.toNat < 65535 then
    ⟨if x.toNat < g.w.toNat then g.w else x + 1#16,
      if y.toNat < g.h.toNat then g.h else y + 1#16, true, g.pixels⟩
  else g

/-- The state with `PHASE` holding `p` in an operation that may hold it, and the block's turn (log 13). -/
def placePhase (p : BitVec 3) (s : State) : State :=
  { s with
    block := { s.block with phase := p }
    grid := if p = phaseIdle then s.grid else coverPixel s.grid s.block.x s.block.y
    agenda := .block :: s.agenda }

/-- The state idle, with `W32 CTRL, v` the host's next operation and the host's turn (log 13). -/
def placeCommand (v : Word) (s : State) : State :=
  { s with
    block := { s.block with phase := phaseIdle }
    host := { s.host with
      prog := s.host.prog.take s.host.pc ++ w32 0x00000000#32 v :: s.host.prog.drop s.host.pc
      pc := min s.host.pc s.host.prog.length }
    agenda := .host :: s.agenda }

/-- The instruction whose bits are `w`, placed where the next step finds it: a table row of at most 8 bits is a `PHASE`
value, any other a command word (log 13). -/
def placeWord (nbits w : Nat) (s : State) : State :=
  if nbits ≤ 8 then placePhase (BitVec.ofNat 3 w) s else placeCommand (BitVec.ofNat 32 w) s

end Sys2Proof.Machine
end

