-- ==== Sys2Proof/Machine/Step.lean ====
section
/-! DEFINITION. One step of the system: the next agent of the agenda moves. -/

namespace Sys2Proof.Machine

/-- One step: the next agent's turn (20_memory.md R68, log 1). -/
def step (s : State) : Host.Outcome State Fault Refusal :=
  perform (nextEvent s) (popAgenda s)

/-- The state in which the very next step runs the instruction whose bits are `w` (log 13). -/
def State.withFetchWord (s : State) (nbits w : Nat) : State := placeWord nbits w s

end Sys2Proof.Machine
end

