-- ==== Sys2Proof/Safety.lean ====
section
/-! DEFINITION. The terms claims are stated in: the slots of the grid and the first terminator, the text of a scan,
and the invariant of every reachable state (10_state.md R40). -/

namespace Sys2Proof.Machine

/-! ## Slots, streams and terminators -/

/-- The index of the pixel at the cursor, `p = Y·W + X` (42_traversal.md R130). -/
def pixelIndex (s : State) : Nat := s.block.y.toNat * s.grid.w.toNat + s.block.x.toNat

/-- What pixel `p` in raster order holds: the pixel at `(p mod W, p div W)` (42_traversal.md R130). -/
def rasterPixel (s : State) (p : Nat) : Quad Half :=
  pixelAt s (BitVec.ofNat 16 (p % s.grid.w.toNat)) (BitVec.ofNat 16 (p / s.grid.w.toNat))

/-- Channel `i mod 3` of pixel `i div 3`: the value in slot `i` of the carrier (42_traversal.md R133). -/
def slotValue (s : State) (i : Nat) : Half :=
  selectChannel (rasterPixel s (i / 3)) (BitVec.ofNat 2 (i % 3))

/-- The parity of slot `i` (44_scanner.md R166, `s[i]`). -/
def slotParity (s : State) (i : Nat) : Bool := parityBit (slotValue s i)

/-- Whether the `n` first bits of a sequence end in 8 zeros (44_scanner.md R162, R166). -/
def endsInTerminator (f : Nat → Bool) (n : Nat) : Prop :=
  8 ≤ n ∧ ∀ k, k < 8 → f (n - 1 - k) = false

/-- `n*`: the least `n ≥ 8` whose last 8 bits are zero (44_scanner.md R166). -/
def firstTerminator (f : Nat → Bool) (n : Nat) : Prop :=
  endsInTerminator f n ∧ ∀ m, m < n → ¬ endsInTerminator f m

/-- Character `j` of a bit sequence, first bit most significant (45_decoder.md R180): `Σ S[8j+k]·2^(7-k)`. -/
def packCharacter (f : Nat → Bool) (j : Nat) : Byte :=
  BitVec.ofNat 8 (((List.range 8).map fun k => (f (8 * j + k)).toNat * 2 ^ (7 - k)).sum)

/-- The source's running count of consecutive zero bits after `n` bits (44_scanner.md R162, `Z(n)`). -/
def zeroCount (f : Nat → Bool) : Nat → Nat
  | 0 => 0
  | n + 1 => if f n = true then 0 else zeroCount f n + 1

/-- `SR` after `n` bits have been shifted into it from 0 (44_scanner.md R162, `SR(n)`). -/
def shiftRegister (f : Nat → Bool) : Nat → Byte
  | 0 => 0#8
  | n + 1 => shiftIn (shiftRegister f n) (f n)

/-- The number of pixels `n` slots touch, `ceil(n / 3)` (42_traversal.md R134). -/
def pixelsFor (n : Nat) : Nat := (n + 2) / 3

/-- Stream bit `i` of the message, the terminator's zero where the message has none (41_bitstream_encoder.md R121). -/
def streamBitOr (b : Block) (i : Nat) : Bool := (streamBit b i).getD false

/-- Every code unit of the message has been written since reset (70_reset_and_hazards.md R222). -/
def messageWritten (b : Block) : Prop := ∀ i, i < b.msgLen.toNat → (lookupAt i b.msg).isSome = true

/-- The four bytes an encode of `nb` stream bits writes to the pixel of index `q` that it read as `v` (43_embedder.md
R150): a slot the stream reaches carries its bit, any other and alpha are as read, narrowed. -/
def encodedPixel (b : Block) (nb q : Nat) (v : Quad Half) : Quad Byte :=
  let slot (c : Nat) (w : Half) : Byte :=
    if 3 * q + c < nb then narrow8 (toggle w (streamBitOr b (3 * q + c))) else w.setWidth 8
  ⟨slot 0 v.r, slot 1 v.g, slot 2 v.b, v.a.setWidth 8⟩

/-! ## The invariant -/

/-- `PHASE` is one of the encode micro-operations. -/
def encoding (s : State) : Prop :=
  s.block.phase = phaseEncLoad ∨ s.block.phase = phaseEncSlot ∨ s.block.phase = phaseEncStore

/-- `PHASE` is one of the decode micro-operations. -/
def decoding (s : State) : Bool :=
  decide (s.block.phase = phaseDecLoad ∨ s.block.phase = phaseDecSlot)

/-- The state is at a pixel of the grid with no result yet (10_state.md R37, R40). -/
structure AtPixel (s : State) : Prop where
  xInGrid : s.block.x.toNat < s.grid.w.toNat
  yInGrid : s.block.y.toNat < s.grid.h.toNat
  notDone : s.block.done = false
  noResult : s.block.result = 0#4

/-- What holds while an encode runs (10_state.md R25 to R27, R40): the message fits, the cursor and `NBITS` agree, and the
working copy carries the bits embedded so far. -/
structure EncodeProgress (s : State) : Prop where
  atPixel : AtPixel s
  writable : s.grid.writable = true
  lengthFits : s.block.msgLen.toNat ≤ s.params.msgDepth.val
  streamFits : streamLength s.block.msgLen.toNat ≤ carrierSlots s.grid
  loadCursor : s.block.phase = phaseEncLoad →
    s.block.nbits.toNat = 3 * pixelIndex s ∧ s.block.nbits.toNat < streamLength s.block.msgLen.toNat
  slotCursor : s.block.phase = phaseEncSlot →
    s.block.nbits.toNat = 3 * pixelIndex s + s.block.ch.toNat ∧
      s.block.nbits.toNat < streamLength s.block.msgLen.toNat
  storeCursor : s.block.phase = phaseEncStore →
    s.block.nbits.toNat = 3 * pixelIndex s + s.block.ch.toNat + 1 ∧
      s.block.nbits.toNat ≤ streamLength s.block.msgLen.toNat ∧
      (s.block.nbits.toNat = streamLength s.block.msgLen.toNat ∨ s.block.ch = 2#2)
  latched : s.block.phase ≠ phaseEncLoad → s.block.inp = pixelAt s s.block.x s.block.y
  workingCopy : s.block.phase ≠ phaseEncLoad → ∀ c : BitVec 2,
    selectChannel s.block.o8 c =
      if c.toNat < 3 ∧ 3 * pixelIndex s + c.toNat < s.block.nbits.toNat then
        embedByte (selectChannel s.block.inp c) (streamBitOr s.block (3 * pixelIndex s + c.toNat))
      else narrowHalf (selectChannel s.block.inp c)
  bitsWritten : ∀ i, i < s.block.nbits.toNat → (streamBit s.block i).isSome = true

/-- What holds while a decode runs (10_state.md R25, R26, R28, R40): the cursor and `NBITS` agree, `SR` holds the last
bits scanned, `OBUF` the characters completed, and no terminator has been passed. -/
structure DecodeProgress (s : State) : Prop where
  atPixel : AtPixel s
  loadCursor : s.block.phase = phaseDecLoad → s.block.nbits.toNat = 3 * pixelIndex s
  slotCursor : s.block.phase = phaseDecSlot → s.block.nbits.toNat = 3 * pixelIndex s + s.block.ch.toNat
  latched : s.block.phase = phaseDecSlot → s.block.inp = pixelAt s s.block.x s.block.y
  noOutput : s.block.outLen = 0#32
  fitsOutput : s.block.nbits.toNat / 8 ≤ s.params.obufDepth.val
  shiftRegister : ∀ k, k < 8 → s.block.sr.getLsbD k =
    (decide (k < s.block.nbits.toNat) && slotParity s (s.block.nbits.toNat - 1 - k))
  characters : ∀ j, j < s.block.nbits.toNat / 8 →
    lookupAt j s.block.obuf = some (packCharacter (slotParity s) j)
  noTerminator : ∀ n, n ≤ s.block.nbits.toNat → ¬ endsInTerminator (slotParity s) n

/-- The canonical form of everything held as a list by key, and its bounds: pixels inside the grid, `MSG` and `OBUF`
entries below their depths. -/
structure StorageCanonical (s : State) : Prop where
  pixels : Memory.wf s.grid.pixels = true
  pixelsInGrid : ∀ e ∈ s.grid.pixels, e.1 / 65536 < s.grid.h.toNat ∧ e.1 % 65536 < s.grid.w.toNat
  msg : rising s.block.msg = true
  msgBelow : keysBelow s.params.msgDepth.val s.block.msg = true
  obuf : rising s.block.obuf = true
  obufBelow : keysBelow s.params.obufDepth.val s.block.obuf = true
  names : rising s.host.names = true

/-- The invariant of every reachable state (10_state.md R22, R24, R32, R37, R40, 30_encoding.md R87). -/
structure Inv (s : State) : Prop where
  phaseLegal : s.block.phase.toNat ≤ 5
  channelLegal : s.block.ch.toNat ≤ 2
  resultLegal : s.block.result.toNat ≤ 6
  resultNeedsDone : s.block.done = false → s.block.result = 0#4
  encode : encoding s → EncodeProgress s
  decode : decoding s = true → DecodeProgress s
  output : ∀ i, i < s.block.outLen.toNat → (lookupAt i s.block.obuf).isSome = true
  storage : StorageCanonical s

/-! ## Runs of the block alone -/

/-- `k` steps of the system (Host/Core.lean). -/
def runSteps (k : Nat) (s : State) : Host.Outcome State Fault Refusal := Host.Core.run Sys2Proof.core k s

/-- From `s`, the block takes exactly `n` steps to its end: it is busy after each smaller number, and after `n` it is
idle in the state `t` (70_reset_and_hazards.md R228). -/
def endsAfter (n : Nat) (s t : State) : Prop :=
  runSteps n s = .next t ∧ busy t = false ∧
    ∀ k, k < n → ∃ u, runSteps k s = .next u ∧ busy u = true

end Sys2Proof.Machine
end

