-- ==== Sys2Proof/Certificates/Slice0/Obligations.lean ====
section
/-! DEFINITION. The statements for the provers, from the numbered rules of spec/. -/

open Sys2Proof Sys2Proof.Machine

/-! ## Encoding -/

/-- R82: the command is selected by `v[1:0]` alone, over all values written; while busy a `CTRL` write is not decoded. -/
def Obligations.CommandSelectedByLowTwoBits : Prop :=
  ∀ (v : Word) (s : State),
    (v.toNat % 4 = 0 → decode (.command v) = .ok .nop) ∧
    (v.toNat % 4 = 1 → decode (.command v) = .ok .encode) ∧
    (v.toNat % 4 = 2 → decode (.command v) = .ok .decode) ∧
    (v.toNat % 4 = 3 → decode (.command v) = .ok .illegal) ∧
    (busy s = true → acceptCommand v s = .next s)

/-- R84, R87: the six `PHASE` values name their micro-operations; 6 and 7 name none. -/
def Obligations.PhaseValuesNameTheirMicroOps : Prop :=
  decode (.phase 0#3) = .ok .idle ∧ decode (.phase 1#3) = .ok .encLoad ∧
  decode (.phase 2#3) = .ok .encSlot ∧ decode (.phase 3#3) = .ok .encStore ∧
  decode (.phase 4#3) = .ok .decLoad ∧ decode (.phase 5#3) = .ok .decSlot ∧
  decode (.phase 6#3) = .error .reservedPhase ∧ decode (.phase 7#3) = .error .reservedPhase

/-- Decode and encode agree, with the reserved bits of a command at every value: each way round, and through bytes
(20_memory.md R64 for the byte order; the one byte of a `PHASE` value is the model's choice, log 14). -/
def Obligations.DecodingUndoesEncoding : Prop :=
  (∀ (r : BitVec 30) (i : Instr), decode (encodeWith r i) = .ok i) ∧
  (∀ (c : CodeWord) (i : Instr), decode c = .ok i → ∃ r, c = encodeWith r i) ∧
  (∀ c : CodeWord, decodeBytes (codeBytes c) = decode c)

/-- Words of spec/opcode_table.json and of vectors V-CMD-2, V-CMD-3, as numbers, decode to their rows. -/
def Obligations.ListedWordsDecodeToTheirRows : Prop :=
  decodeTableWord 32 0x00000000 = some .nop ∧ decodeTableWord 32 0x00000001 = some .encode ∧
  decodeTableWord 32 0x00000002 = some .decode ∧ decodeTableWord 32 0x00000003 = some .illegal ∧
  decodeTableWord 32 0x00000007 = some .illegal ∧ decodeTableWord 32 0xFFFFFFFF = some .illegal ∧
  decodeTableWord 8 0x0 = some .idle ∧ decodeTableWord 8 0x1 = some .encLoad ∧
  decodeTableWord 8 0x2 = some .encSlot ∧ decodeTableWord 8 0x3 = some .encStore ∧
  decodeTableWord 8 0x4 = some .decLoad ∧ decodeTableWord 8 0x5 = some .decSlot ∧
  decodeTableWord 8 0x6 = none ∧ decodeTableWord 8 0x7 = none

/-! ## A step runs the decoded instruction -/

/-- R106: on the block's turn the step is the micro-operation `PHASE` selects, and a fault on 6 and 7 (R87). The agenda
that says whose turn it is is the model's (log 1): its head, or, when it is empty, the block while busy. -/
def Obligations.BlockTurnRunsThePhase : Prop :=
  ∀ s : State,
    (∀ rest i, s.agenda = .block :: rest → decode (.phase s.block.phase) = .ok i →
      step s = exec i { s with agenda := rest }) ∧
    (∀ i, s.agenda = [] → s.block.phase ≠ 0#3 → decode (.phase s.block.phase) = .ok i →
      step s = exec i s) ∧
    (6 ≤ s.block.phase.toNat → s.agenda = [] ∨ (∃ rest, s.agenda = .block :: rest) →
      step s = .fault .phaseReserved)

/-- R100: a `CTRL` write performs its command in the same step if the block is idle, and has no effect at all if it is
busy. The host's turn is the model's (log 1), and so are its program and its move to its next line (log 12). -/
def Obligations.ControlWritePerformsItsCommand : Prop :=
  ∀ (s : State) (rest : List Event) (v : Word),
    s.agenda = .host :: rest → s.host.prog[s.host.pc]? = some (.write 0#32 4 v) →
    ∀ t : State, t = { s with agenda := rest, host := { s.host with pc := s.host.pc + 1 } } →
      (s.block.phase ≠ 0#3 → step s = .next t) ∧
      (s.block.phase = 0#3 → v.toNat % 4 = 0 → step s = exec .nop t) ∧
      (s.block.phase = 0#3 → v.toNat % 4 = 1 → step s = exec .encode t) ∧
      (s.block.phase = 0#3 → v.toNat % 4 = 2 → step s = exec .decode t) ∧
      (s.block.phase = 0#3 → v.toNat % 4 = 3 → step s = exec .illegal t)

/-! ## Commands -/

/-- R101: NOP performs nothing, and a `CTRL` write that carries it changes nothing, busy or idle. -/
def Obligations.NopChangesNothing : Prop :=
  ∀ s : State, exec .nop s = .next s ∧ ∀ v : Word, v.toNat % 4 = 0 → acceptCommand v s = .next s

/-- R102: ENCODE acceptance: its three checks in their order, their results, and the start of the operation. Everything
not named keeps its value. -/
def Obligations.EncodeAcceptance : Prop :=
  ∀ s : State,
    (s.grid.writable = false → exec .encode s = .next { s with block := { s.block with
      phase := 0#3, done := true, result := 1#4, nbits := 0#32 } }) ∧
    (s.grid.writable = true → s.params.msgDepth.val < s.block.msgLen.toNat →
      exec .encode s = .next { s with block := { s.block with
        phase := 0#3, done := true, result := 5#4, nbits := 0#32 } }) ∧
    (s.grid.writable = true → s.block.msgLen.toNat ≤ s.params.msgDepth.val →
      3 * s.grid.w.toNat * s.grid.h.toNat < 8 * (s.block.msgLen.toNat + 1) →
      exec .encode s = .next { s with block := { s.block with
        phase := 0#3, done := true, result := 2#4, nbits := 0#32 } }) ∧
    (s.grid.writable = true → s.block.msgLen.toNat ≤ s.params.msgDepth.val →
      8 * (s.block.msgLen.toNat + 1) ≤ 3 * s.grid.w.toNat * s.grid.h.toNat →
      exec .encode s = .next { s with block := { s.block with
        phase := 1#3, done := false, result := 0#4, nbits := 0#32, x := 0#16, y := 0#16, ch := 0#2 } })

/-- R103: DECODE acceptance: an empty grid ends it at once with TERMINATOR_NOT_FOUND, any other starts the scan. -/
def Obligations.DecodeAcceptance : Prop :=
  ∀ s : State,
    (s.grid.w = 0#16 ∨ s.grid.h = 0#16 → exec .decode s = .next { s with block := { s.block with
      phase := 0#3, done := true, result := 3#4, nbits := 0#32, outLen := 0#32, sr := 0#8,
      x := 0#16, y := 0#16, ch := 0#2 } }) ∧
    (s.grid.w ≠ 0#16 → s.grid.h ≠ 0#16 → exec .decode s = .next { s with block := { s.block with
      phase := 4#3, done := false, result := 0#4, nbits := 0#32, outLen := 0#32, sr := 0#8,
      x := 0#16, y := 0#16, ch := 0#2 } })

/-- R104: the reserved command code ends at once with ILLEGAL_COMMAND; while busy the write is ignored. -/
def Obligations.IllegalCommandReports : Prop :=
  ∀ s : State,
    exec .illegal s = .next { s with block := { s.block with
      phase := 0#3, done := true, result := 4#4, nbits := 0#32 } } ∧
    (∀ v : Word, v.toNat % 4 = 3 → s.block.phase ≠ 0#3 → acceptCommand v s = .next s)

/-- R106, R214: an idle block takes no step. -/
def Obligations.IdleBlockTakesNoStep : Prop :=
  ∀ s : State, exec .idle s = .next s

/-! ## Encode micro-operations -/

/-- R144: ENC_LOAD latches the pixel, copies it narrowed, selects slot R and goes to ENC_SLOT. -/
def Obligations.EncLoadLatchesThePixel : Prop :=
  ∀ s : State, s.block.x.toNat < s.grid.w.toNat → s.block.y.toNat < s.grid.h.toNat →
    ∀ p : Quad Half, p = pixelAt s s.block.x s.block.y →
      exec .encLoad s = .next { s with block := { s.block with
        inp := p
        o8 := ⟨p.r.setWidth 8, p.g.setWidth 8, p.b.setWidth 8, p.a.setWidth 8⟩
        ch := 0#2
        phase := 2#3 } }

/-- R145: ENC_SLOT embeds the stream bit into slot `CH` of the working copy, counts it, and goes to ENC_STORE at the end
of the stream or of the pixel, else to the next slot. -/
def Obligations.EncSlotEmbedsOneBit : Prop :=
  ∀ (s : State) (b : Bool), streamBit s.block s.block.nbits.toNat = some b →
    ∀ (n : Word) (o : Quad Byte), n = s.block.nbits + 1#32 →
      o = replaceChannel s.block.o8 s.block.ch (narrow8 (toggle (selectChannel s.block.inp s.block.ch) b)) →
      (n.toNat = 8 * (s.block.msgLen.toNat + 1) ∨ s.block.ch = 2#2 →
        exec .encSlot s = .next { s with block := { s.block with o8 := o, nbits := n, phase := 3#3 } }) ∧
      (n.toNat ≠ 8 * (s.block.msgLen.toNat + 1) → s.block.ch ≠ 2#2 →
        exec .encSlot s = .next { s with block := { s.block with
          o8 := o, nbits := n, ch := s.block.ch + 1#2 } })

/-- R39, R215: an ENC_SLOT that needs a `MSG` entry not written since reset is a fault; one that needs none, or a written
one, has its stream bit. -/
def Obligations.UnwrittenMessageFaults : Prop :=
  ∀ s : State,
    (s.block.nbits.toNat < 8 * s.block.msgLen.toNat →
      lookupAt (s.block.nbits.toNat / 8) s.block.msg = none → exec .encSlot s = .fault .msgUnwritten) ∧
    (∀ u, s.block.nbits.toNat < 8 * s.block.msgLen.toNat →
      lookupAt (s.block.nbits.toNat / 8) s.block.msg = some u → ∃ t, exec .encSlot s = .next t) ∧
    (8 * s.block.msgLen.toNat ≤ s.block.nbits.toNat → ∃ t, exec .encSlot s = .next t)

/-- R146: ENC_STORE writes the working copy to the current pixel and to no other, advances, and finishes OK at the end of
the stream or loads the next pixel. -/
def Obligations.EncStoreWritesThePixel : Prop :=
  ∀ s : State, s.block.x.toNat < s.grid.w.toNat → s.block.y.toNat < s.grid.h.toNat →
    s.grid.writable = true →
    ∀ x' y' : Half, (x', y') =
      (if s.block.x + 1#16 = s.grid.w then (0#16, s.block.y + 1#16) else (s.block.x + 1#16, s.block.y)) →
    ∃ m : Memory,
      (∀ k, storedAt m k =
        if k = pixelKey s.block.x s.block.y then .written s.block.o8 else storedAt s.grid.pixels k) ∧
      (s.block.nbits.toNat = 8 * (s.block.msgLen.toNat + 1) → exec .encStore s = .next { s with
        grid := { s.grid with pixels := m }
        block := { s.block with x := x', y := y', phase := 0#3, done := true, result := 0#4 } }) ∧
      (s.block.nbits.toNat ≠ 8 * (s.block.msgLen.toNat + 1) → exec .encStore s = .next { s with
        grid := { s.grid with pixels := m }
        block := { s.block with x := x', y := y', phase := 1#3 } })

/-- R53, R54: after an ENC_STORE a read of the written pixel returns the expansions of the four bytes, and every other
pixel reads as before. -/
def Obligations.StoredPixelReadsBackExpanded : Prop :=
  ∀ s t : State, exec .encStore s = .next t →
    gridRead t s.block.x s.block.y = .ok ⟨s.params.gridExpand s.block.o8.r, s.params.gridExpand s.block.o8.g,
      s.params.gridExpand s.block.o8.b, s.params.gridExpand s.block.o8.a⟩ ∧
    ∀ x y : Half, x ≠ s.block.x ∨ y ≠ s.block.y → gridRead t x y = gridRead s x y

/-- 20_memory.md R51, R53, R55: a load outside the grid, and a store outside it or to an unwritable one, stop. The fault
names are the model's (log 8); R55 says no operation reaches them. -/
def Obligations.GridAccessOutsideTheRulesFaults : Prop :=
  ∀ s : State,
    (s.grid.w.toNat ≤ s.block.x.toNat ∨ s.grid.h.toNat ≤ s.block.y.toNat →
      exec .encLoad s = .fault .gridOutOfBounds ∧ exec .decLoad s = .fault .gridOutOfBounds ∧
      exec .encStore s = .fault .gridOutOfBounds) ∧
    (s.block.x.toNat < s.grid.w.toNat → s.block.y.toNat < s.grid.h.toNat → s.grid.writable = false →
      exec .encStore s = .fault .gridNotWritable)

/-! ## Decode micro-operations -/

/-- R160: DEC_LOAD latches the pixel, selects slot R and goes to DEC_SLOT. -/
def Obligations.DecLoadLatchesThePixel : Prop :=
  ∀ s : State, s.block.x.toNat < s.grid.w.toNat → s.block.y.toNat < s.grid.h.toNat →
    exec .decLoad s = .next { s with block := { s.block with
      inp := pixelAt s s.block.x s.block.y, ch := 0#2, phase := 5#3 } }

/-- R161: DEC_SLOT: the shift, the character store with its overflow check, the terminator, the end of the grid, in that
order; every case, with everything it does not name unchanged. (`NBITS` below its last value: the spec says it never
wraps, R25.) -/
def Obligations.DecSlotScansOneBit : Prop :=
  ∀ (s : State) (n : Word) (sr : Byte),
    n = s.block.nbits + 1#32 → n.toNat ≠ 0 →
    sr = BitVec.ofNat 8 ((2 * s.block.sr.toNat + (selectChannel s.block.inp s.block.ch).toNat % 2) % 256) →
    (n.toNat % 8 = 0 → s.params.obufDepth.val ≤ n.toNat / 8 - 1 →
      exec .decSlot s = .next { s with block := { s.block with
        sr := sr, phase := 0#3, done := true, result := 6#4, nbits := 0#32 } }) ∧
    (¬ (n.toNat % 8 = 0 ∧ s.params.obufDepth.val ≤ n.toNat / 8 - 1) →
      ∀ o : List (Nat × Byte),
      o = (if n.toNat % 8 = 0 then putAt (n.toNat / 8 - 1) sr s.block.obuf else s.block.obuf) →
      (sr = 0#8 → 8 ≤ n.toNat → exec .decSlot s = .next { s with block := { s.block with
        sr := sr, obuf := o, nbits := n, outLen := BitVec.ofNat 32 (n.toNat / 8),
        phase := 0#3, done := true, result := 0#4 } }) ∧
      (¬ (sr = 0#8 ∧ 8 ≤ n.toNat) →
        (s.block.ch.toNat < 2 → exec .decSlot s = .next { s with block := { s.block with
          sr := sr, obuf := o, nbits := n, ch := s.block.ch + 1#2 } }) ∧
        (2 ≤ s.block.ch.toNat → ∀ x' y' : Half, (x', y') =
          (if s.block.x + 1#16 = s.grid.w then (0#16, s.block.y + 1#16)
            else (s.block.x + 1#16, s.block.y)) →
          (y' ≠ s.grid.h → exec .decSlot s = .next { s with block := { s.block with
            sr := sr, obuf := o, nbits := n, x := x', y := y', phase := 4#3 } }) ∧
          (y' = s.grid.h → exec .decSlot s = .next { s with block := { s.block with
            sr := sr, obuf := o, nbits := 0#32, x := x', y := y',
            phase := 0#3, done := true, result := 3#4 } }))))

/-! ## What the instructions leave alone -/

/-- R55, R165: only ENC_STORE changes a pixel; none changes `W`, `H` or `WRITABLE`. -/
def Obligations.OnlyEncStoreWritesTheGrid : Prop :=
  ∀ (i : Instr) (s t : State), exec i s = .next t →
    (i ≠ .encStore → t.grid = s.grid) ∧
    (t.grid.w = s.grid.w ∧ t.grid.h = s.grid.h ∧ t.grid.writable = s.grid.writable)

/-- R31: no instruction writes `MSG`; nor `MSG_LEN` (R30), the parameters, the host, or the model's own fields. -/
def Obligations.BlockNeverWritesTheMessage : Prop :=
  ∀ (i : Instr) (s t : State), exec i s = .next t →
    t.block.msg = s.block.msg ∧ t.block.msgLen = s.block.msgLen ∧ t.params = s.params ∧ t.host = s.host ∧
    t.agenda = s.agenda ∧ t.resets = s.resets ∧ t.draws = s.draws

/-- R33: `OUT_LEN` is cleared by DECODE acceptance, set to `NBITS div 8` by a decode that ends OK, and written by nothing
else: not by another instruction, and not by a host write other than of `CTRL`. -/
def Obligations.OutLenWrittenOnlyByDecode : Prop :=
  (∀ (i : Instr) (s t : State), exec i s = .next t →
    (i = .decode → t.block.outLen = 0#32) ∧
    (i ≠ .decode → i ≠ .decSlot → t.block.outLen = s.block.outLen) ∧
    (i = .decSlot → s.block.phase = 5#3 →
      (t.block.phase = 0#3 ∧ t.block.result = 0#4 →
        t.block.outLen.toNat = t.block.nbits.toNat / 8) ∧
      (¬ (t.block.phase = 0#3 ∧ t.block.result = 0#4) → t.block.outLen = s.block.outLen))) ∧
  (∀ (addr : Word) (width : Nat) (v : Word) (s t : State), addr ≠ 0#32 →
    memWrite addr width v s = .next t → t.block.outLen = s.block.outLen)

/-- R29, R105: `DONE` and `RESULT` keep their values in every instruction that neither accepts an operation nor ends one.
Only ENCODE, DECODE, the reserved command, ENC_STORE and DEC_SLOT can end one, and then leave `PHASE` idle with `DONE`
set; only ENCODE and DECODE clear the two. -/
def Obligations.FlagsWrittenOnlyAtStartAndEnd : Prop :=
  ∀ (i : Instr) (s t : State), exec i s = .next t →
    (t.block.done = s.block.done ∧ t.block.result = s.block.result) ∨
    ((i = .encode ∨ i = .decode ∨ i = .illegal ∨ i = .encStore ∨ i = .decSlot) ∧
      t.block.done = true ∧ t.block.phase = 0#3) ∨
    ((i = .encode ∨ i = .decode) ∧ t.block.done = false ∧ t.block.result = 0#4)

/-! ## Functions -/

/-- R4, R5: narrowing keeps the low 8 bits, so it keeps the parity, and `narrow8(-1) = 255`. -/
def Obligations.NarrowingKeepsParity : Prop :=
  (∀ v : Int, ((narrow8 v).toNat : Int) = v % 256) ∧
  (∀ v : Int, (((narrow8 v).toNat : Int) % 2 = v % 2)) ∧
  narrow8 (-1) = 255#8

/-- R140: `Toggle`, comparison by comparison. -/
def Obligations.ToggleMakesTheseComparisons : Prop :=
  ∀ v : Half,
    (v.toNat % 2 = 1 → v.toNat = 65535 → toggle v false = (v.toNat : Int) - 1) ∧
    (v.toNat % 2 = 1 → v.toNat ≠ 65535 → toggle v false = (v.toNat : Int) + 1) ∧
    (v.toNat % 2 = 0 → toggle v false = (v.toNat : Int)) ∧
    (v.toNat % 2 = 0 → v.toNat = 0 → toggle v true = (v.toNat : Int) - 1) ∧
    (v.toNat % 2 = 0 → v.toNat ≠ 0 → toggle v true = (v.toNat : Int) + 1) ∧
    (v.toNat % 2 = 1 → toggle v true = (v.toNat : Int))

/-- R142: the written byte always has the parity of the bit, the two edge cases included. -/
def Obligations.WrittenByteHasTheBitsParity : Prop :=
  ∀ (v : Half) (b : Bool), (narrow8 (toggle v b)).toNat % 2 = b.toNat

/-- R143: `Toggle` moves a value by nothing or by one; on an 8-bit carrier read as `257·w` the written byte is the one
listed. -/
def Obligations.ToggleMovesByAtMostOne : Prop :=
  (∀ (v : Half) (b : Bool),
    (v.toNat % 2 = b.toNat → toggle v b = (v.toNat : Int)) ∧
    (v.toNat % 2 ≠ b.toNat → (toggle v b - (v.toNat : Int)).natAbs = 1)) ∧
  (∀ (w : Byte) (b : Bool), embedByte (BitVec.ofNat 16 (257 * w.toNat)) b =
    if w.toNat % 2 = b.toNat then w
    else if w.toNat = 255 ∧ b = false then 254#8
    else if w.toNat = 0 ∧ b = true then 255#8
    else w + 1#8)

/-- R120: the stream of a written message is its characters' bits, most significant first, then 8 zeros: `8·(L + 1)`
bits in all. -/
def Obligations.StreamIsMessageThenTerminator : Prop :=
  ∀ (b : Block) (u : Nat → Word), (∀ j, j < b.msgLen.toNat → lookupAt j b.msg = some (u j)) →
    (List.range (8 * (b.msgLen.toNat + 1))).map (streamBit b) =
      ((List.range b.msgLen.toNat).flatMap fun j =>
        [(u j).getLsbD 7, (u j).getLsbD 6, (u j).getLsbD 5, (u j).getLsbD 4,
         (u j).getLsbD 3, (u j).getLsbD 2, (u j).getLsbD 1, (u j).getLsbD 0].map some) ++
      List.replicate 8 (some false)

/-- R122, R123: only the low 8 bits of a code unit matter, and no code unit is an error; the empty message is the
terminator. -/
def Obligations.StreamMasksCodeUnits : Prop :=
  (∀ b b' : Block, b.msgLen = b'.msgLen →
    (∀ j, (lookupAt j b.msg).map (fun u => u.toNat % 256) =
      (lookupAt j b'.msg).map (fun u => u.toNat % 256)) →
    ∀ i, streamBit b i = streamBit b' i) ∧
  (∀ (b : Block) (i : Nat) (u : Word), lookupAt (i / 8) b.msg = some u → (streamBit b i).isSome = true) ∧
  (∀ b : Block, b.msgLen = 0#32 → streamLength b.msgLen.toNat = 8 ∧ ∀ i, streamBit b i = some false)

/-- R130, R131: inside the grid, `Advance` is the next pixel in raster order: the pixel index grows by one and the cursor
is at that index's place. -/
def Obligations.AdvanceIsRasterOrder : Prop :=
  ∀ s : State, s.block.x.toNat < s.grid.w.toNat → s.block.y.toNat < s.grid.h.toNat →
    pixelIndex (advance s) = pixelIndex s + 1 ∧
    (advance s).block.x.toNat = (pixelIndex s + 1) % s.grid.w.toNat ∧
    (advance s).block.y.toNat = (pixelIndex s + 1) / s.grid.w.toNat

/-- R162: the zero register with its guard, the last 8 bits all zero, and the source's running count are one condition;
at the first such point the count is exactly 8. -/
def Obligations.TerminatorTestsAgree : Prop :=
  ∀ (f : Nat → Bool) (n : Nat),
    ((shiftRegister f n = 0#8 ∧ 8 ≤ n) ↔ endsInTerminator f n) ∧
    (endsInTerminator f n ↔ 8 ≤ zeroCount f n) ∧
    (firstTerminator f n → zeroCount f n = 8)

/-- R180, R181: after `8·(j + 1)` shifts the register holds character `j`. -/
def Obligations.RegisterAssemblesCharacters : Prop :=
  ∀ (f : Nat → Bool) (j : Nat), shiftRegister f (8 * (j + 1)) = packCharacter f j

/-! ## The register space -/

/-- R35, R37: `STATUS` field by field; reserved bits read 0. -/
def Obligations.StatusShowsItsFields : Prop :=
  ∀ s : State, ∃ v : Word, memRead 4#32 4 s = .ok (v, s) ∧
    v.getLsbD 0 = decide (s.block.phase ≠ 0#3) ∧ v.getLsbD 1 = s.block.done ∧
    v.getLsbD 2 = s.grid.writable ∧ v.getLsbD 3 = false ∧
    v.extractLsb' 4 4 = s.block.result ∧ v.extractLsb' 8 3 = s.block.phase ∧ v.getLsbD 11 = false ∧
    v.extractLsb' 12 2 = s.block.ch ∧ v.extractLsb' 14 18 = 0#18

/-- R35, R57: what a read of each other register and of each defined buffer entry returns; it changes no state. -/
def Obligations.RegisterReads : Prop :=
  ∀ s : State,
    memRead 0x00#32 4 s = .ok (0#32, s) ∧ memRead 0x08#32 4 s = .ok (s.block.msgLen, s) ∧
    memRead 0x0C#32 4 s = .ok (s.grid.w.setWidth 32, s) ∧ memRead 0x10#32 4 s = .ok (s.grid.h.setWidth 32, s) ∧
    memRead 0x14#32 4 s = .ok (s.block.nbits, s) ∧ memRead 0x18#32 4 s = .ok (s.block.outLen, s) ∧
    memRead 0x1C#32 4 s = .ok (s.block.x.setWidth 32, s) ∧
    memRead 0x20#32 4 s = .ok (s.block.y.setWidth 32, s) ∧
    (∀ i u, i < s.params.msgDepth.val → lookupAt i s.block.msg = some u →
      memRead (BitVec.ofNat 32 (0x01000000 + 4 * i)) 4 s = .ok (u, s)) ∧
    (∀ i c, i < s.params.obufDepth.val → i < s.block.outLen.toNat → lookupAt i s.block.obuf = some c →
      memRead (BitVec.ofNat 32 (0x02000000 + 4 * i)) 4 s = .ok (c.setWidth 32, s))

/-- R59: every aligned address with no register reads 0 and ignores writes. -/
def Obligations.UnmappedReadsZero : Prop :=
  ∀ (s : State) (addr v : Word), addr.toNat % 4 = 0 → 0x20 < addr.toNat →
    (addr.toNat < 0x01000000 ∨ 0x01000000 + 4 * s.params.msgDepth.val ≤ addr.toNat) →
    (addr.toNat < 0x02000000 ∨ 0x02000000 + 4 * s.params.obufDepth.val ≤ addr.toNat) →
    memRead addr 4 s = .ok (0#32, s) ∧ memWrite addr 4 v s = .next s

/-- R39, R57: the reads the spec leaves unspecified. A read of `OUT[i]` at or above `OUT_LEN` returns the next free draw,
zero-extended, whatever it is, while a decode runs as at any other time; a read of a `MSG` entry not written since reset
returns the free content it holds. That a draw counts itself, and that an unwritten entry keeps one content until reset,
are the model's (log 4, log 5). -/
def Obligations.UnspecifiedReadsAreFree : Prop :=
  ∀ (s : State) (i : Nat),
    (i < s.params.obufDepth.val → s.block.outLen.toNat ≤ i →
      memRead (BitVec.ofNat 32 (0x02000000 + 4 * i)) 4 s =
        .ok ((Config.outDraw s.draws).setWidth 32, { s with draws := s.draws + 1 })) ∧
    (i < s.params.msgDepth.val → lookupAt i s.block.msg = none →
      memRead (BitVec.ofNat 32 (0x01000000 + 4 * i)) 4 s = .ok (Config.unwrittenMsg s.resets i, s))

/-- R224, R37: while a decode runs, `STATUS` reads BUSY 1, DONE 0, RESULT 0, with PHASE and CH as they are, `NBITS`,
`POS_X` and `POS_Y` read the progress, `OUT_LEN` reads 0, and `OBUF[j]` for `j < NBITS div 8` already holds character `j`
of the decode. A read of that `OUT[j]` is a free draw all the same, since it is above `OUT_LEN` (R39, R57; log 6). -/
def Obligations.ProgressReadsWhileDecoding : Prop :=
  ∀ s : State, Inv s → s.block.phase = 4#3 ∨ s.block.phase = 5#3 →
    (∃ v : Word, memRead 0x04#32 4 s = .ok (v, s) ∧ v.getLsbD 0 = true ∧ v.getLsbD 1 = false ∧
      v.extractLsb' 4 4 = 0#4 ∧ v.extractLsb' 8 3 = s.block.phase ∧ v.extractLsb' 12 2 = s.block.ch) ∧
    memRead 0x14#32 4 s = .ok (s.block.nbits, s) ∧ memRead 0x18#32 4 s = .ok (0#32, s) ∧
    memRead 0x1C#32 4 s = .ok (s.block.x.setWidth 32, s) ∧
    memRead 0x20#32 4 s = .ok (s.block.y.setWidth 32, s) ∧
    (∀ j, j < s.block.nbits.toNat / 8 →
      lookupAt j s.block.obuf = some (packCharacter (slotParity s) j) ∧
      memRead (BitVec.ofNat 32 (0x02000000 + 4 * j)) 4 s =
        .ok ((Config.outDraw s.draws).setWidth 32, { s with draws := s.draws + 1 }))

/-- R57: a read changes nothing of the block, the grid, the parameters or the host; `draws`, which a free value counts,
is the model's own field (log 5). -/
def Obligations.ReadsChangeNothing : Prop :=
  ∀ (addr : Word) (width : Nat) (s t : State) (v : Word), memRead addr width s = .ok (v, t) →
    t = { s with draws := t.draws }

/-- R60: an access that is not 32 bits wide at a multiple of 4 has no meaning. -/
def Obligations.MisalignedAccessRefused : Prop :=
  ∀ (addr : Word) (width : Nat) (v : Word) (s : State), width ≠ 4 ∨ addr.toNat % 4 ≠ 0 →
    memWrite addr width v s = .refused .busAccess ∧ memRead addr width s = .error .busAccess

/-- R58: what a write does: a command at `CTRL`, `MSG_LEN` and `MSG` while idle, no effect elsewhere or while busy. -/
def Obligations.RegisterWrites : Prop :=
  ∀ (s : State) (v : Word),
    memWrite 0x00#32 4 v s = acceptCommand v s ∧
    (s.block.phase = 0#3 → memWrite 0x08#32 4 v s = .next { s with block := { s.block with msgLen := v } }) ∧
    (s.block.phase = 0#3 → ∀ i, i < s.params.msgDepth.val →
      ∃ m, memWrite (BitVec.ofNat 32 (0x01000000 + 4 * i)) 4 v s =
          .next { s with block := { s.block with msg := m } } ∧
        ∀ j, lookupAt j m = if j = i then some v else lookupAt j s.block.msg) ∧
    (∀ addr : Word, addr.toNat % 4 = 0 → s.block.phase ≠ 0#3 → memWrite addr 4 v s = .next s) ∧
    (∀ addr : Word, addr.toNat % 4 = 0 → addr ≠ 0x00#32 → addr ≠ 0x08#32 →
      (addr.toNat < 0x01000000 ∨ 0x01000000 + 4 * s.params.msgDepth.val ≤ addr.toNat) →
      memWrite addr 4 v s = .next s)

/-- R226, R227, R213: a host step while the block is busy, whatever the host does, leaves the block and the grid alone; so
does what it reads. -/
def Obligations.HostCannotDisturbABusyBlock : Prop :=
  ∀ s t : State, busy s = true → hostTurn s = .next t →
    t.block = s.block ∧ t.grid = s.grid ∧ t.params = s.params ∧ t.agenda = s.agenda ∧ t.resets = s.resets

/-! ## Reset, the platform and the host's program -/

/-- R220: reset gives every register its reset value and makes `MSG` and `OBUF` unspecified (nothing written), and touches
neither the grid nor its inputs. The agenda and the reset counter are the model's (log 1, log 4). -/
def Obligations.ResetGivesTheResetValues : Prop :=
  ∀ (s : State) (rest : List Event), s.agenda = .reset :: rest →
    step s = .next { s with
      agenda := rest
      resets := s.resets + 1
      block := {
        phase := 0#3, done := false, result := 0#4, x := 0#16, y := 0#16, ch := 0#2, nbits := 0#32
        inp := ⟨0#16, 0#16, 0#16, 0#16⟩, o8 := ⟨0#8, 0#8, 0#8, 0#8⟩, sr := 0#8
        msgLen := 0#32, msg := [], obuf := [], outLen := 0#32 } }

/-- R225, R215: any touch of the grid by another agent while the block is busy is refused; while idle, reading it changes
nothing and attaching one replaces it. -/
def Obligations.GridTouchedWhileBusyRefused : Prop :=
  ∀ (s : State) (rest : List Event) (w h : Half) (wr : Bool) (ps : List PixelInit),
    (s.agenda = .attach w h wr ps :: rest →
      (s.block.phase ≠ 0#3 → step s = .refused .gridTouchedWhileBusy) ∧
      (s.block.phase = 0#3 → step s = .next { s with agenda := rest, grid := attachGrid w h wr ps })) ∧
    (s.agenda = .drain :: rest →
      (s.block.phase ≠ 0#3 → step s = .refused .gridTouchedWhileBusy) ∧
      (s.block.phase = 0#3 → step s = .next { s with agenda := rest }))

/-- 20_memory.md R51, R52, 70_reset_and_hazards.md R222: a grid the platform attaches has its size and writability, is in
canonical form, and each of its pixels reads as the value listed for it. That the last of several listed values wins
(log 16), and that a pixel not listed reads as four zeros (log 7), are the model's choices. -/
def Obligations.AttachedGridReadsAsGiven : Prop :=
  ∀ (s : State) (w h : Half) (wr : Bool) (ps : List PixelInit) (x y : Half),
    s.grid = attachGrid w h wr ps →
    s.grid.w = w ∧ s.grid.h = h ∧ s.grid.writable = wr ∧ Memory.wf s.grid.pixels = true ∧
    (x.toNat < w.toNat → y.toNat < h.toNat →
      gridRead s x y = .ok (((ps.reverse.find? fun p => decide (p.x = x ∧ p.y = y)).map PixelInit.value).getD
        ⟨0#16, 0#16, 0#16, 0#16⟩))

/-- R89: the host's own operations: `R32` assigns what the read returns, a label is passed over, `BNZ` goes to its label
exactly when the masked name is not zero. The host's line counter and the values of its names, and that `BNZ` goes to the
first of several lines with one label, are the model's choices (log 12). -/
def Obligations.HostProgramOperations : Prop :=
  ∀ (s : State),
    (∀ addr n v t, s.host.prog[s.host.pc]? = some (.read addr 4 n) → addr.toNat % 4 = 0 →
      memRead addr 4 s = .ok (v, t) →
      ∃ names, hostTurn s = .next { s with
          draws := t.draws, host := { s.host with pc := s.host.pc + 1, names := names } } ∧
        ∀ m, lookupAt m names = if m = n then some v else lookupAt m s.host.names) ∧
    (∀ l, s.host.prog[s.host.pc]? = some (.label l) →
      hostTurn s = .next { s with host := { s.host with pc := s.host.pc + 1 } }) ∧
    (∀ n mask l v, s.host.prog[s.host.pc]? = some (.bnz n mask l) → lookupAt n s.host.names = some v →
      (v &&& mask = 0#32 → hostTurn s = .next { s with host := { s.host with pc := s.host.pc + 1 } }) ∧
      (v &&& mask ≠ 0#32 → ∀ k, s.host.prog[k]? = some (.label l) →
        (∀ j, j < k → s.host.prog[j]? ≠ some (.label l)) →
        hostTurn s = .next { s with host := { s.host with pc := k } }))

/-- R91: `SET_MSG` is its writes of `MSG[0]`, …, `MSG[L-1]` and then of `MSG_LEN`; `SET_MSG "text"` the same with the
text's characters, in order, as code units. That a character's code unit is its Unicode number is the model's choice
(log 18). -/
def Obligations.SetMsgExpandsToItsWrites : Prop :=
  (∀ us : List Word,
    (setMsg us).length = us.length + 1 ∧
    (∀ i u, us[i]? = some u →
      (setMsg us)[i]? = some (HostOp.write (BitVec.ofNat 32 (0x01000000 + 4 * i)) 4 u)) ∧
    (setMsg us)[us.length]? = some (HostOp.write 0x08#32 4 (BitVec.ofNat 32 us.length))) ∧
  (∀ (cs : List Char) (text : String), text = String.ofList cs →
    (setMsgText text).length = cs.length + 1 ∧
    (∀ i c, cs[i]? = some c → (setMsgText text)[i]? =
      some (HostOp.write (BitVec.ofNat 32 (0x01000000 + 4 * i)) 4 (BitVec.ofNat 32 c.toNat))) ∧
    (setMsgText text)[cs.length]? = some (HostOp.write 0x08#32 4 (BitVec.ofNat 32 cs.length)))

/-- R90: at the read of a `WAIT_DONE`, two host steps either go back to its label, if the block is busy, or leave it with
`BUSY = 0` in the name it reads into. -/
def Obligations.WaitDoneLoopsWhileBusy : Prop :=
  ∀ (s : State) (pre post : List HostOp) (l n : Nat),
    s.host.prog = pre ++ waitDone l n ++ post → l ∉ labelsOf pre → s.host.pc = pre.length + 1 →
    ∃ t u v, hostTurn s = .next t ∧ hostTurn t = .next u ∧ lookupAt n u.host.names = some v ∧
      u.block = s.block ∧
      (s.block.phase ≠ 0#3 → u.host.pc = pre.length) ∧
      (s.block.phase = 0#3 → u.host.pc = pre.length + 3 ∧ v.getLsbD 0 = false)

/-! ## The invariant -/

/-- R22, R24, R40: every step keeps the invariant, whichever agent moves. -/
def Obligations.EveryStepKeepsTheInvariant : Prop :=
  ∀ s t : State, Inv s → step s = .next t → Inv t

/-- R38: the invariant holds at reset. -/
def Obligations.InvariantHoldsAtReset : Prop :=
  Inv State.reset

/-- R40: what the invariant gives of the invariants the spec lists, in its words: the legal phases and channels, the
bounds of `NBITS` in an encode, the cursor inside the grid while busy, and, in a scan, the bits in `SR` and the characters
in `OBUF`. -/
def Obligations.InvariantGivesTheListedOnes : Prop :=
  ∀ s : State, Inv s →
    s.block.phase.toNat ≤ 5 ∧ s.block.ch.toNat ≤ 2 ∧
    (s.block.phase = 1#3 ∨ s.block.phase = 2#3 → s.block.nbits.toNat < 8 * (s.block.msgLen.toNat + 1)) ∧
    (s.block.phase = 3#3 → s.block.nbits.toNat ≤ 8 * (s.block.msgLen.toNat + 1)) ∧
    (s.block.phase ≠ 0#3 → s.block.x.toNat < s.grid.w.toNat ∧ s.block.y.toNat < s.grid.h.toNat) ∧
    (s.block.phase = 5#3 →
      (∀ k, k < 8 → s.block.sr.getLsbD k =
        if k < min s.block.nbits.toNat 8 then slotParity s (s.block.nbits.toNat - 1 - k) else false) ∧
      s.block.sr = shiftRegister (slotParity s) s.block.nbits.toNat ∧
      ∀ j, j < s.block.nbits.toNat / 8 → lookupAt j s.block.obuf = some (packCharacter (slotParity s) j))

/-- R55: from every state that meets the invariant, what the micro-operation `PHASE` selects does to the grid. It never
stops at the grid port; a pixel it changes is the one at the cursor, inside the grid, with `WRITABLE = 1`, in an encode;
and it reads no other pixel: on any grid with the same inputs and the same pixel at the cursor it does the same to the
block. -/
def Obligations.TransactionsStayInTheGrid : Prop :=
  ∀ (s : State) (i : Instr), Inv s → decode (.phase s.block.phase) = .ok i →
    exec i s ≠ .fault .gridOutOfBounds ∧ exec i s ≠ .fault .gridNotWritable ∧
    (∀ t, exec i s = .next t → ∀ k, storedAt t.grid.pixels k ≠ storedAt s.grid.pixels k →
      k = pixelKey s.block.x s.block.y ∧ s.block.x.toNat < s.grid.w.toNat ∧
      s.block.y.toNat < s.grid.h.toNat ∧ s.grid.writable = true ∧ encoding s) ∧
    (∀ t m, exec i s = .next t →
      storedAt m (pixelKey s.block.x s.block.y) = storedAt s.grid.pixels (pixelKey s.block.x s.block.y) →
      ∃ u, exec i { s with grid := { s.grid with pixels := m } } = .next u ∧ u.block = t.block)

/-- R215: from a state that meets the invariant, the one fault a step can end in is ENC_SLOT's read of a `MSG` entry not
written since reset. -/
def Obligations.OnlyAnUnwrittenMessageFaults : Prop :=
  ∀ (s : State) (f : Fault), Inv s → step s = .fault f →
    f = .msgUnwritten ∧ s.block.phase = 2#3 ∧
    lookupAt (s.block.nbits.toNat / 8) s.block.msg = none ∧ s.block.nbits.toNat / 8 < s.block.msgLen.toNat

/-! ## Whole operations -/

/-- R150, R152, R228: an accepted ENCODE of a written message ends OK after `NB + 2·P` steps, having written exactly the
pixels `0 .. P - 1` with the bytes of R150, and no other; `NBITS` as R25 says, and the output of an earlier decode left
alone (R33). The block runs alone while the agenda is empty, the model's choice (log 1). -/
def Obligations.EncodeWritesTheStream : Prop :=
  ∀ s t : State, Inv s → busy s = false → s.agenda = [] → messageWritten s.block →
    exec .encode s = .next t → busy t = true →
    ∀ nb p : Nat, nb = 8 * (s.block.msgLen.toNat + 1) → p = (nb + 2) / 3 →
    ∃ u : State, endsAfter (nb + 2 * p) t u ∧
      u.block.done = true ∧ u.block.result = 0#4 ∧ u.block.nbits.toNat = nb ∧
      u.block.x.toNat = p % s.grid.w.toNat ∧ u.block.y.toNat = p / s.grid.w.toNat ∧
      u.block.ch.toNat = (nb - 1) % 3 ∧
      u.block.outLen = s.block.outLen ∧ u.block.obuf = s.block.obuf ∧ u.block.msg = s.block.msg ∧
      u.block.msgLen = s.block.msgLen ∧
      u.grid.w = s.grid.w ∧ u.grid.h = s.grid.h ∧ u.grid.writable = s.grid.writable ∧
      ∀ x y : Half, x.toNat < s.grid.w.toNat → y.toNat < s.grid.h.toNat →
        ∀ q, q = y.toNat * s.grid.w.toNat + x.toNat →
        storedAt u.grid.pixels (pixelKey x y) =
          if q < p then .written (encodedPixel s.block nb q (pixelAt s x y))
          else storedAt s.grid.pixels (pixelKey x y)

/-- R221: a reset in the middle of an encode reports no result and keeps the writes made: the pixels `0 .. m - 1` hold the
bytes of R150 for some `m` not above the number the encode would have written, the rest as before. The reset comes as an
entry of the model's agenda (log 1). -/
def Obligations.ResetAbandonsAnEncode : Prop :=
  ∀ (s t u v : State) (k : Nat), Inv s → busy s = false → s.agenda = [] →
    exec .encode s = .next t → busy t = true → runSteps k t = .next u → busy u = true →
    step { u with agenda := [.reset] } = .next v →
    ∀ nb : Nat, nb = 8 * (s.block.msgLen.toNat + 1) →
    v.block.phase = 0#3 ∧ v.block.done = false ∧ v.block.result = 0#4 ∧
    v.grid.w = s.grid.w ∧ v.grid.h = s.grid.h ∧ v.grid.writable = s.grid.writable ∧
    ∃ m, m ≤ (nb + 2) / 3 ∧
      ∀ x y : Half, x.toNat < s.grid.w.toNat → y.toNat < s.grid.h.toNat →
        ∀ q, q = y.toNat * s.grid.w.toNat + x.toNat →
        storedAt v.grid.pixels (pixelKey x y) =
          if q < m then .written (encodedPixel s.block nb q (pixelAt s x y))
          else storedAt s.grid.pixels (pixelKey x y)

/-- R166, R167, R183, R228: a DECODE of a grid whose first terminator ends at bit `n` (with room for the text) ends OK after
`n + ceil(n / 3)` steps with `NBITS = n`, the text of R180 and the cursor on the terminator's last bit; the grid and the
message are unchanged. The block runs alone while the agenda is empty, the model's choice (log 1). -/
def Obligations.DecodeReadsUpToTheTerminator : Prop :=
  ∀ (s t : State) (n : Nat), Inv s → busy s = false → s.agenda = [] →
    exec .decode s = .next t → busy t = true →
    firstTerminator (slotParity s) n → n ≤ 3 * s.grid.w.toNat * s.grid.h.toNat →
    n / 8 ≤ s.params.obufDepth.val →
    ∃ u : State, endsAfter (n + (n + 2) / 3) t u ∧
      u.block.done = true ∧ u.block.result = 0#4 ∧ u.block.nbits.toNat = n ∧ u.block.outLen.toNat = n / 8 ∧
      (∀ j, j < n / 8 → lookupAt j u.block.obuf = some (packCharacter (slotParity s) j)) ∧
      u.block.x.toNat = (n - 1) / 3 % s.grid.w.toNat ∧ u.block.y.toNat = (n - 1) / 3 / s.grid.w.toNat ∧
      u.block.ch.toNat = (n - 1) % 3 ∧
      u.grid = s.grid ∧ u.block.msg = s.block.msg ∧ u.block.msgLen = s.block.msgLen

/-- R184, R228: a DECODE whose character at index `OBUF_DEPTH` completes before the scan has stopped ends with
OUT_OVERFLOW at that bit, with an empty text. The block runs alone while the agenda is empty, the model's choice
(log 1). -/
def Obligations.DecodeOverflowsTheBuffer : Prop :=
  ∀ (s t : State) (n : Nat), Inv s → busy s = false → s.agenda = [] →
    exec .decode s = .next t → busy t = true →
    n = 8 * (s.params.obufDepth.val + 1) → n ≤ 3 * s.grid.w.toNat * s.grid.h.toNat →
    (∀ m, m < n → ¬ endsInTerminator (slotParity s) m) →
    ∃ u : State, endsAfter (n + (n + 2) / 3) t u ∧
      u.block.done = true ∧ u.block.result = 6#4 ∧ u.block.nbits = 0#32 ∧ u.block.outLen = 0#32 ∧
      u.grid = s.grid

/-- R164, R165, R167, R228: a DECODE of a grid with no terminator (and room for its characters) ends with
TERMINATOR_NOT_FOUND after `4·W·H` steps, with an empty text, the cursor past the grid, and the grid unchanged. The block
runs alone while the agenda is empty, the model's choice (log 1). -/
def Obligations.DecodeWithoutTerminator : Prop :=
  ∀ s t : State, Inv s → busy s = false → s.agenda = [] →
    exec .decode s = .next t → busy t = true →
    (∀ m, m ≤ 3 * s.grid.w.toNat * s.grid.h.toNat → ¬ endsInTerminator (slotParity s) m) →
    3 * s.grid.w.toNat * s.grid.h.toNat / 8 ≤ s.params.obufDepth.val →
    ∃ u : State, endsAfter (4 * s.grid.w.toNat * s.grid.h.toNat) t u ∧
      u.block.done = true ∧ u.block.result = 3#4 ∧ u.block.nbits = 0#32 ∧ u.block.outLen = 0#32 ∧
      u.block.x = 0#16 ∧ u.block.y = s.grid.h ∧ u.block.ch = 2#2 ∧ u.grid = s.grid

/-- R185, R228: the round trip. A written message, encoded OK and then decoded with nothing between, comes back as the first
`n* div 8` bytes of the message followed by a NUL, `n*` the first terminator of its stream, after `n* + ceil(n* / 3)`
steps. The block runs alone while the agenda is empty, the model's choice (log 1). -/
def Obligations.RoundTrip : Prop :=
  ∀ (s t u v : State) (k : Nat), Inv s → busy s = false → s.agenda = [] → messageWritten s.block →
    (∀ w : Byte, (s.params.gridExpand w).toNat % 2 = w.toNat % 2) →
    s.block.msgLen.toNat + 1 ≤ s.params.obufDepth.val →
    exec .encode s = .next t → busy t = true → endsAfter k t u → exec .decode u = .next v →
    ∃ n : Nat, firstTerminator (streamBitOr s.block) n ∧ n ≤ 8 * (s.block.msgLen.toNat + 1) ∧
      ∃ z : State, endsAfter (n + (n + 2) / 3) v z ∧
        z.block.done = true ∧ z.block.result = 0#4 ∧ z.block.nbits.toNat = n ∧ z.block.outLen.toNat = n / 8 ∧
        ∀ j, j < n / 8 → lookupAt j z.block.obuf =
          some (if j < s.block.msgLen.toNat then ((lookupAt j s.block.msg).getD 0#32).setWidth 8 else 0#8)

/-- R185, its three cases: where the first terminator of a message's stream is. -/
def Obligations.RoundTripCases : Prop :=
  ∀ (b : Block) (n : Nat), messageWritten b → firstTerminator (streamBitOr b) n →
    ((∀ m, m ≤ 8 * b.msgLen.toNat → ¬ endsInTerminator (streamBitOr b) m) →
      (b.msgLen.toNat = 0 → n = 8) ∧
      (∀ (u : Word) (z : Nat), 0 < b.msgLen.toNat → lookupAt (b.msgLen.toNat - 1) b.msg = some u →
        z < 8 → (∀ k, k < z → u.getLsbD k = false) → u.getLsbD z = true →
        n = 8 * b.msgLen.toNat + 8 - z)) ∧
    ((∃ m, m ≤ 8 * b.msgLen.toNat ∧ endsInTerminator (streamBitOr b) m) → n ≤ 8 * b.msgLen.toNat)

/-- R229, R228: every operation ends: from a busy state that meets the invariant, the block alone is idle within `5·W·H` steps,
a decode within `4·W·H`, an encode within `NB + 2·ceil(NB / 3)`, or has stopped at a `MSG` entry not written since
reset, a stop R229 does not speak of (R39, R215; where it comes is log 4's choice). The block runs alone while the agenda
is empty, the model's choice (log 1). -/
def Obligations.EveryOperationEnds : Prop :=
  ∀ s : State, Inv s → busy s = true → s.agenda = [] →
    ∃ k, k ≤ 5 * s.grid.w.toNat * s.grid.h.toNat ∧
      (decoding s = true → k ≤ 4 * s.grid.w.toNat * s.grid.h.toNat) ∧
      (encoding s → ∀ nb, nb = 8 * (s.block.msgLen.toNat + 1) → k ≤ nb + 2 * ((nb + 2) / 3)) ∧
      ((∃ t, endsAfter k s t ∧ t.block.done = true) ∨
        (encoding s ∧ runSteps k s = .fault .msgUnwritten ∧ ¬ messageWritten s.block))
end

