-- ==== Sys2Proof/Laws/State.lean ====
section
/-! SUPPORT. What each named update of the state does to each of its fields, true by unfolding, for simp. An update of the
block is given by the block after it; the other fields are unchanged. -/

namespace Sys2Proof.Machine

@[simp] theorem setPhase_block (p : BitVec 3) (s : State) : (setPhase p s).block =
    { s.block with phase := p } := rfl
@[simp] theorem setPhase_grid (p : BitVec 3) (s : State) : (setPhase p s).grid = s.grid := rfl
@[simp] theorem setPhase_params (p : BitVec 3) (s : State) : (setPhase p s).params = s.params := rfl
@[simp] theorem setPhase_host (p : BitVec 3) (s : State) : (setPhase p s).host = s.host := rfl
@[simp] theorem setPhase_agenda (p : BitVec 3) (s : State) : (setPhase p s).agenda = s.agenda := rfl
@[simp] theorem setPhase_resets (p : BitVec 3) (s : State) : (setPhase p s).resets = s.resets := rfl
@[simp] theorem setPhase_draws (p : BitVec 3) (s : State) : (setPhase p s).draws = s.draws := rfl

@[simp] theorem finish_block (code : ResultCode) (s : State) : (finish code s).block =
    { s.block with
      phase := phaseIdle, done := true, result := resultBits code,
      nbits := if code = .ok then s.block.nbits else 0#32 } := rfl
@[simp] theorem finish_grid (code : ResultCode) (s : State) : (finish code s).grid = s.grid := rfl
@[simp] theorem finish_params (code : ResultCode) (s : State) : (finish code s).params = s.params := rfl
@[simp] theorem finish_host (code : ResultCode) (s : State) : (finish code s).host = s.host := rfl
@[simp] theorem finish_agenda (code : ResultCode) (s : State) : (finish code s).agenda = s.agenda := rfl
@[simp] theorem finish_resets (code : ResultCode) (s : State) : (finish code s).resets = s.resets := rfl
@[simp] theorem finish_draws (code : ResultCode) (s : State) : (finish code s).draws = s.draws := rfl

@[simp] theorem beginOperation_block (s : State) : (beginOperation s).block =
    { s.block with done := false, result := 0#4, nbits := 0#32 } := rfl
@[simp] theorem beginOperation_grid (s : State) : (beginOperation s).grid = s.grid := rfl
@[simp] theorem beginOperation_params (s : State) : (beginOperation s).params = s.params := rfl
@[simp] theorem beginOperation_host (s : State) : (beginOperation s).host = s.host := rfl
@[simp] theorem beginOperation_agenda (s : State) : (beginOperation s).agenda = s.agenda := rfl
@[simp] theorem beginOperation_resets (s : State) : (beginOperation s).resets = s.resets := rfl
@[simp] theorem beginOperation_draws (s : State) : (beginOperation s).draws = s.draws := rfl

@[simp] theorem homeCursor_block (s : State) : (homeCursor s).block =
    { s.block with x := 0#16, y := 0#16, ch := 0#2 } := rfl
@[simp] theorem homeCursor_grid (s : State) : (homeCursor s).grid = s.grid := rfl
@[simp] theorem homeCursor_params (s : State) : (homeCursor s).params = s.params := rfl
@[simp] theorem homeCursor_host (s : State) : (homeCursor s).host = s.host := rfl
@[simp] theorem homeCursor_agenda (s : State) : (homeCursor s).agenda = s.agenda := rfl
@[simp] theorem homeCursor_resets (s : State) : (homeCursor s).resets = s.resets := rfl
@[simp] theorem homeCursor_draws (s : State) : (homeCursor s).draws = s.draws := rfl

@[simp] theorem countBit_block (s : State) : (countBit s).block =
    { s.block with nbits := s.block.nbits + 1#32 } := rfl
@[simp] theorem countBit_grid (s : State) : (countBit s).grid = s.grid := rfl
@[simp] theorem countBit_params (s : State) : (countBit s).params = s.params := rfl
@[simp] theorem countBit_host (s : State) : (countBit s).host = s.host := rfl
@[simp] theorem countBit_agenda (s : State) : (countBit s).agenda = s.agenda := rfl
@[simp] theorem countBit_resets (s : State) : (countBit s).resets = s.resets := rfl
@[simp] theorem countBit_draws (s : State) : (countBit s).draws = s.draws := rfl

@[simp] theorem nextSlot_block (s : State) : (nextSlot s).block =
    { s.block with ch := s.block.ch + 1#2 } := rfl
@[simp] theorem nextSlot_grid (s : State) : (nextSlot s).grid = s.grid := rfl
@[simp] theorem nextSlot_params (s : State) : (nextSlot s).params = s.params := rfl
@[simp] theorem nextSlot_host (s : State) : (nextSlot s).host = s.host := rfl
@[simp] theorem nextSlot_agenda (s : State) : (nextSlot s).agenda = s.agenda := rfl
@[simp] theorem nextSlot_resets (s : State) : (nextSlot s).resets = s.resets := rfl
@[simp] theorem nextSlot_draws (s : State) : (nextSlot s).draws = s.draws := rfl

@[simp] theorem clearDecode_block (s : State) : (clearDecode s).block =
    { s.block with outLen := 0#32, sr := 0#8 } := rfl
@[simp] theorem clearDecode_grid (s : State) : (clearDecode s).grid = s.grid := rfl
@[simp] theorem clearDecode_params (s : State) : (clearDecode s).params = s.params := rfl
@[simp] theorem clearDecode_host (s : State) : (clearDecode s).host = s.host := rfl
@[simp] theorem clearDecode_agenda (s : State) : (clearDecode s).agenda = s.agenda := rfl
@[simp] theorem clearDecode_resets (s : State) : (clearDecode s).resets = s.resets := rfl
@[simp] theorem clearDecode_draws (s : State) : (clearDecode s).draws = s.draws := rfl

@[simp] theorem latchForEncode_block (p : Quad Half) (s : State) : (latchForEncode p s).block =
    { s.block with inp := p, o8 := p.map narrowHalf, ch := 0#2 } := rfl
@[simp] theorem latchForEncode_grid (p : Quad Half) (s : State) : (latchForEncode p s).grid = s.grid := rfl
@[simp] theorem latchForEncode_params (p : Quad Half) (s : State) : (latchForEncode p s).params = s.params := rfl
@[simp] theorem latchForEncode_host (p : Quad Half) (s : State) : (latchForEncode p s).host = s.host := rfl
@[simp] theorem latchForEncode_agenda (p : Quad Half) (s : State) : (latchForEncode p s).agenda = s.agenda := rfl
@[simp] theorem latchForEncode_resets (p : Quad Half) (s : State) : (latchForEncode p s).resets = s.resets := rfl
@[simp] theorem latchForEncode_draws (p : Quad Half) (s : State) : (latchForEncode p s).draws = s.draws := rfl

@[simp] theorem embedBit_block (b : Bool) (s : State) : (embedBit b s).block =
    { s.block with
      o8 := replaceChannel s.block.o8 s.block.ch (embedByte (selectChannel s.block.inp s.block.ch) b) } := rfl
@[simp] theorem embedBit_grid (b : Bool) (s : State) : (embedBit b s).grid = s.grid := rfl
@[simp] theorem embedBit_params (b : Bool) (s : State) : (embedBit b s).params = s.params := rfl
@[simp] theorem embedBit_host (b : Bool) (s : State) : (embedBit b s).host = s.host := rfl
@[simp] theorem embedBit_agenda (b : Bool) (s : State) : (embedBit b s).agenda = s.agenda := rfl
@[simp] theorem embedBit_resets (b : Bool) (s : State) : (embedBit b s).resets = s.resets := rfl
@[simp] theorem embedBit_draws (b : Bool) (s : State) : (embedBit b s).draws = s.draws := rfl

@[simp] theorem latchForDecode_block (p : Quad Half) (s : State) : (latchForDecode p s).block =
    { s.block with inp := p, ch := 0#2 } := rfl
@[simp] theorem latchForDecode_grid (p : Quad Half) (s : State) : (latchForDecode p s).grid = s.grid := rfl
@[simp] theorem latchForDecode_params (p : Quad Half) (s : State) : (latchForDecode p s).params = s.params := rfl
@[simp] theorem latchForDecode_host (p : Quad Half) (s : State) : (latchForDecode p s).host = s.host := rfl
@[simp] theorem latchForDecode_agenda (p : Quad Half) (s : State) : (latchForDecode p s).agenda = s.agenda := rfl
@[simp] theorem latchForDecode_resets (p : Quad Half) (s : State) : (latchForDecode p s).resets = s.resets := rfl
@[simp] theorem latchForDecode_draws (p : Quad Half) (s : State) : (latchForDecode p s).draws = s.draws := rfl

@[simp] theorem scanBit_block (s : State) : (scanBit s).block =
    { s.block with
      sr := shiftIn s.block.sr (parityBit (selectChannel s.block.inp s.block.ch)) } := rfl
@[simp] theorem scanBit_grid (s : State) : (scanBit s).grid = s.grid := rfl
@[simp] theorem scanBit_params (s : State) : (scanBit s).params = s.params := rfl
@[simp] theorem scanBit_host (s : State) : (scanBit s).host = s.host := rfl
@[simp] theorem scanBit_agenda (s : State) : (scanBit s).agenda = s.agenda := rfl
@[simp] theorem scanBit_resets (s : State) : (scanBit s).resets = s.resets := rfl
@[simp] theorem scanBit_draws (s : State) : (scanBit s).draws = s.draws := rfl

@[simp] theorem storeCharacter_block (j : Nat) (s : State) : (storeCharacter j s).block =
    { s.block with obuf := putAt j s.block.sr s.block.obuf } := rfl
@[simp] theorem storeCharacter_grid (j : Nat) (s : State) : (storeCharacter j s).grid = s.grid := rfl
@[simp] theorem storeCharacter_params (j : Nat) (s : State) : (storeCharacter j s).params = s.params := rfl
@[simp] theorem storeCharacter_host (j : Nat) (s : State) : (storeCharacter j s).host = s.host := rfl
@[simp] theorem storeCharacter_agenda (j : Nat) (s : State) : (storeCharacter j s).agenda = s.agenda := rfl
@[simp] theorem storeCharacter_resets (j : Nat) (s : State) : (storeCharacter j s).resets = s.resets := rfl
@[simp] theorem storeCharacter_draws (j : Nat) (s : State) : (storeCharacter j s).draws = s.draws := rfl

@[simp] theorem setOutLen_block (s : State) : (setOutLen s).block =
    { s.block with outLen := BitVec.ofNat 32 (s.block.nbits.toNat / 8) } := rfl
@[simp] theorem setOutLen_grid (s : State) : (setOutLen s).grid = s.grid := rfl
@[simp] theorem setOutLen_params (s : State) : (setOutLen s).params = s.params := rfl
@[simp] theorem setOutLen_host (s : State) : (setOutLen s).host = s.host := rfl
@[simp] theorem setOutLen_agenda (s : State) : (setOutLen s).agenda = s.agenda := rfl
@[simp] theorem setOutLen_resets (s : State) : (setOutLen s).resets = s.resets := rfl
@[simp] theorem setOutLen_draws (s : State) : (setOutLen s).draws = s.draws := rfl

@[simp] theorem setMsgLen_block (v : Word) (s : State) : (setMsgLen v s).block =
    { s.block with msgLen := v } := rfl
@[simp] theorem setMsgLen_grid (v : Word) (s : State) : (setMsgLen v s).grid = s.grid := rfl
@[simp] theorem setMsgLen_params (v : Word) (s : State) : (setMsgLen v s).params = s.params := rfl
@[simp] theorem setMsgLen_host (v : Word) (s : State) : (setMsgLen v s).host = s.host := rfl
@[simp] theorem setMsgLen_agenda (v : Word) (s : State) : (setMsgLen v s).agenda = s.agenda := rfl
@[simp] theorem setMsgLen_resets (v : Word) (s : State) : (setMsgLen v s).resets = s.resets := rfl
@[simp] theorem setMsgLen_draws (v : Word) (s : State) : (setMsgLen v s).draws = s.draws := rfl

@[simp] theorem setMsgEntry_block (i : Nat) (v : Word) (s : State) : (setMsgEntry i v s).block =
    { s.block with msg := putAt i v s.block.msg } := rfl
@[simp] theorem setMsgEntry_grid (i : Nat) (v : Word) (s : State) : (setMsgEntry i v s).grid = s.grid := rfl
@[simp] theorem setMsgEntry_params (i : Nat) (v : Word) (s : State) : (setMsgEntry i v s).params = s.params := rfl
@[simp] theorem setMsgEntry_host (i : Nat) (v : Word) (s : State) : (setMsgEntry i v s).host = s.host := rfl
@[simp] theorem setMsgEntry_agenda (i : Nat) (v : Word) (s : State) : (setMsgEntry i v s).agenda = s.agenda := rfl
@[simp] theorem setMsgEntry_resets (i : Nat) (v : Word) (s : State) : (setMsgEntry i v s).resets = s.resets := rfl
@[simp] theorem setMsgEntry_draws (i : Nat) (v : Word) (s : State) : (setMsgEntry i v s).draws = s.draws := rfl

@[simp] theorem advance_block (s : State) : (advance s).block =
    if s.block.x + 1#16 = s.grid.w then { s.block with x := 0#16, y := s.block.y + 1#16 }
    else { s.block with x := s.block.x + 1#16 } := by
  unfold advance; split <;> rfl
@[simp] theorem advance_grid (s : State) : (advance s).grid = s.grid := by
  unfold advance; split <;> rfl
@[simp] theorem advance_params (s : State) : (advance s).params = s.params := by
  unfold advance; split <;> rfl
@[simp] theorem advance_host (s : State) : (advance s).host = s.host := by
  unfold advance; split <;> rfl
@[simp] theorem advance_agenda (s : State) : (advance s).agenda = s.agenda := by
  unfold advance; split <;> rfl
@[simp] theorem advance_resets (s : State) : (advance s).resets = s.resets := by
  unfold advance; split <;> rfl
@[simp] theorem advance_draws (s : State) : (advance s).draws = s.draws := by
  unfold advance; split <;> rfl

@[simp] theorem hostAdvance_host (s : State) : (hostAdvance s).host =
    { s.host with pc := s.host.pc + 1 } := rfl
@[simp] theorem hostAdvance_block (s : State) : (hostAdvance s).block = s.block := rfl
@[simp] theorem hostAdvance_grid (s : State) : (hostAdvance s).grid = s.grid := rfl
@[simp] theorem hostAdvance_params (s : State) : (hostAdvance s).params = s.params := rfl
@[simp] theorem hostAdvance_agenda (s : State) : (hostAdvance s).agenda = s.agenda := rfl
@[simp] theorem hostAdvance_resets (s : State) : (hostAdvance s).resets = s.resets := rfl
@[simp] theorem hostAdvance_draws (s : State) : (hostAdvance s).draws = s.draws := rfl

@[simp] theorem hostGoto_host (k : Nat) (s : State) : (hostGoto k s).host =
    { s.host with pc := k } := rfl
@[simp] theorem hostGoto_block (k : Nat) (s : State) : (hostGoto k s).block = s.block := rfl
@[simp] theorem hostGoto_grid (k : Nat) (s : State) : (hostGoto k s).grid = s.grid := rfl
@[simp] theorem hostGoto_params (k : Nat) (s : State) : (hostGoto k s).params = s.params := rfl
@[simp] theorem hostGoto_agenda (k : Nat) (s : State) : (hostGoto k s).agenda = s.agenda := rfl
@[simp] theorem hostGoto_resets (k : Nat) (s : State) : (hostGoto k s).resets = s.resets := rfl
@[simp] theorem hostGoto_draws (k : Nat) (s : State) : (hostGoto k s).draws = s.draws := rfl

@[simp] theorem hostAssign_host (name : Nat) (v : Word) (s : State) : (hostAssign name v s).host =
    { s.host with names := putAt name v s.host.names } := rfl
@[simp] theorem hostAssign_block (name : Nat) (v : Word) (s : State) : (hostAssign name v s).block = s.block := rfl
@[simp] theorem hostAssign_grid (name : Nat) (v : Word) (s : State) : (hostAssign name v s).grid = s.grid := rfl
@[simp] theorem hostAssign_params (name : Nat) (v : Word) (s : State) : (hostAssign name v s).params = s.params := rfl
@[simp] theorem hostAssign_agenda (name : Nat) (v : Word) (s : State) : (hostAssign name v s).agenda = s.agenda := rfl
@[simp] theorem hostAssign_resets (name : Nat) (v : Word) (s : State) : (hostAssign name v s).resets = s.resets := rfl
@[simp] theorem hostAssign_draws (name : Nat) (v : Word) (s : State) : (hostAssign name v s).draws = s.draws := rfl

@[simp] theorem popAgenda_agenda (s : State) : (popAgenda s).agenda = s.agenda.tail := rfl
@[simp] theorem popAgenda_block (s : State) : (popAgenda s).block = s.block := rfl
@[simp] theorem popAgenda_grid (s : State) : (popAgenda s).grid = s.grid := rfl
@[simp] theorem popAgenda_params (s : State) : (popAgenda s).params = s.params := rfl
@[simp] theorem popAgenda_host (s : State) : (popAgenda s).host = s.host := rfl
@[simp] theorem popAgenda_resets (s : State) : (popAgenda s).resets = s.resets := rfl
@[simp] theorem popAgenda_draws (s : State) : (popAgenda s).draws = s.draws := rfl

@[simp] theorem resetBlock_block (s : State) : (resetBlock s).block = Block.reset := rfl
@[simp] theorem resetBlock_resets (s : State) : (resetBlock s).resets = s.resets + 1 := rfl
@[simp] theorem resetBlock_grid (s : State) : (resetBlock s).grid = s.grid := rfl
@[simp] theorem resetBlock_params (s : State) : (resetBlock s).params = s.params := rfl
@[simp] theorem resetBlock_host (s : State) : (resetBlock s).host = s.host := rfl
@[simp] theorem resetBlock_agenda (s : State) : (resetBlock s).agenda = s.agenda := rfl
@[simp] theorem resetBlock_draws (s : State) : (resetBlock s).draws = s.draws := rfl

end Sys2Proof.Machine
end

