-- ==== Sys2Proof/Laws/Bus.lean ====
section
/-! SUPPORT. What each address of the register space names, and everything a host write can do. -/

namespace Sys2Proof.Machine

theorem fixedReg_cases (k : Nat) :
    fixedReg k = .ctrl ∧ k = 0 ∨ fixedReg k = .status ∧ k = 1 ∨ fixedReg k = .msgLen ∧ k = 2 ∨
    fixedReg k = .gridW ∧ k = 3 ∨ fixedReg k = .gridH ∧ k = 4 ∨ fixedReg k = .nbits ∧ k = 5 ∨
    fixedReg k = .outLen ∧ k = 6 ∨ fixedReg k = .posX ∧ k = 7 ∨ fixedReg k = .posY ∧ k = 8 ∨
    fixedReg k = .unmapped ∧ 9 ≤ k := by
  unfold fixedReg
  split <;> simp_all
  omega

/-- The address of a register below `0x24`. -/
theorem regAt_fixed (p : Params) {addr : Word} (h : addr.toNat < 0x24) :
    regAt p addr = fixedReg (addr.toNat / 4) := by
  simp [regAt, h]

/-- The address of `MSG[i]` (20_memory.md R56). -/
theorem regAt_msg (p : Params) {i : Nat} (h : i < p.msgDepth.val) :
    regAt p (BitVec.ofNat 32 (0x01000000 + 4 * i)) = .msg i := by
  have hd : p.msgDepth.val ≤ 4194304 := Nat.le_of_lt_succ p.msgDepth.isLt
  have ha : (BitVec.ofNat 32 (0x01000000 + 4 * i)).toNat = 0x01000000 + 4 * i := by
    rw [BitVec.toNat_ofNat]; omega
  unfold regAt
  rw [ha, if_neg (by omega), if_pos (by unfold msgBase; omega)]
  congr 1
  unfold msgBase; omega

/-- The address of `OUT[i]` (20_memory.md R56). -/
theorem regAt_out (p : Params) {i : Nat} (h : i < p.obufDepth.val) :
    regAt p (BitVec.ofNat 32 (0x02000000 + 4 * i)) = .out i := by
  have hd : p.obufDepth.val ≤ 4194304 := Nat.le_of_lt_succ p.obufDepth.isLt
  have hm : p.msgDepth.val ≤ 4194304 := Nat.le_of_lt_succ p.msgDepth.isLt
  have ha : (BitVec.ofNat 32 (0x02000000 + 4 * i)).toNat = 0x02000000 + 4 * i := by
    rw [BitVec.toNat_ofNat]; omega
  unfold regAt
  rw [ha, if_neg (by omega), if_neg (by unfold msgBase; omega), if_pos (by unfold outBase; omega)]
  congr 1
  unfold outBase; omega

/-- Every register but `CTRL` and `MSG_LEN` and the buffers, and every address with no register, by what `regAt` answers:
the address it answers it for. -/
theorem regAt_cases (p : Params) (addr : Word) :
    (∃ k, addr.toNat < 0x24 ∧ addr.toNat / 4 = k ∧ regAt p addr = fixedReg k) ∨
    (∃ i, i < p.msgDepth.val ∧ 0x01000000 ≤ addr.toNat ∧ addr.toNat < 0x01000000 + 4 * p.msgDepth.val ∧
      regAt p addr = .msg i) ∨
    (∃ i, i < p.obufDepth.val ∧ 0x02000000 ≤ addr.toNat ∧ addr.toNat < 0x02000000 + 4 * p.obufDepth.val ∧
      regAt p addr = .out i) ∨
    regAt p addr = .unmapped := by
  unfold regAt
  by_cases h0 : addr.toNat < 0x24
  · exact .inl ⟨_, h0, rfl, if_pos h0⟩
  · rw [if_neg h0]
    by_cases h1 : msgBase ≤ addr.toNat ∧ addr.toNat < msgBase + 4 * p.msgDepth.val
    · rw [if_pos h1]
      unfold msgBase at *
      exact .inr (.inl ⟨_, by omega, h1.1, h1.2, rfl⟩)
    · rw [if_neg h1]
      by_cases h2 : outBase ≤ addr.toNat ∧ addr.toNat < outBase + 4 * p.obufDepth.val
      · rw [if_pos h2]
        unfold outBase at *
        exact .inr (.inr (.inl ⟨_, by omega, h2.1, h2.2, rfl⟩))
      · rw [if_neg h2]
        exact .inr (.inr (.inr rfl))

/-- `CTRL` is at address 0 only. -/
theorem regAt_ctrl {p : Params} {addr : Word} (ha : addr.toNat % 4 = 0) (h : regAt p addr = .ctrl) :
    addr = 0#32 := by
  rcases regAt_cases p addr with ⟨k, hlt, hk, hr⟩ | ⟨i, -, -, -, hr⟩ | ⟨i, -, -, -, hr⟩ | hr <;>
    rw [hr] at h
  · rcases fixedReg_cases k with h' | h' | h' | h' | h' | h' | h' | h' | h' | h' <;>
      rw [h'.1] at h
    · exact BitVec.eq_of_toNat_eq (by simpa using (by omega : addr.toNat = 0))
    all_goals cases h
  all_goals cases h

/-- A `MSG` entry the space has is below `MSG_DEPTH`. -/
theorem regAt_msg_lt {p : Params} {addr : Word} {i : Nat} (h : regAt p addr = .msg i) :
    i < p.msgDepth.val := by
  rcases regAt_cases p addr with ⟨k, hlt, hk, hr⟩ | ⟨j, hj, -, -, hr⟩ | ⟨j, -, -, -, hr⟩ | hr <;>
    rw [hr] at h
  · rcases fixedReg_cases k with h' | h' | h' | h' | h' | h' | h' | h' | h' | h' <;>
      (rw [h'.1] at h; cases h)
  · cases h; exact hj
  all_goals cases h

/-- Everything a host write that goes on can do (20_memory.md R58): a command at `CTRL`, nothing, a write of `MSG_LEN`, or
a write of a `MSG` entry. -/
theorem memWrite_cases {addr : Word} {width : Nat} {v : Word} {s t : State}
    (h : memWrite addr width v s = .next t) :
    (addr = 0#32 ∧ acceptCommand v s = .next t) ∨ t = s ∨
    (busy s = false ∧ t = setMsgLen v s) ∨
    (busy s = false ∧ ∃ i, i < s.params.msgDepth.val ∧ t = setMsgEntry i v s) := by
  unfold memWrite at h
  split at h
  · next hb =>
    have ha : addr.toNat % 4 = 0 := by
      simp only [busOffers, decide_eq_true_eq] at hb; exact hb.2
    generalize hr : regAt s.params addr = r at h
    cases r with
    | ctrl => exact .inl ⟨regAt_ctrl ha hr, h⟩
    | msgLen =>
      simp only [writeReg] at h
      split at h
      · cases h; exact .inr (.inl rfl)
      · next hn => cases h; exact .inr (.inr (.inl ⟨by simpa using hn, rfl⟩))
    | msg i =>
      simp only [writeReg] at h
      split at h
      · cases h; exact .inr (.inl rfl)
      · next hn => cases h; exact .inr (.inr (.inr ⟨by simpa using hn, i, regAt_msg_lt hr, rfl⟩))
    | _ => simp only [writeReg] at h; cases h; exact .inr (.inl rfl)
  · cases h

/-- A read changes at most the count of draws. -/
theorem readReg_state (s : State) (r : Reg) :
    (readReg s r).2 = s ∨ (readReg s r).2 = { s with draws := s.draws + 1 } := by
  cases r with
  | out i =>
    simp only [readReg]
    split
    · exact .inl rfl
    · exact .inr rfl
  | _ => exact .inl rfl

/-- At and above `OUT_LEN` no character is promised. -/
theorem outCharacter_above {s : State} {i : Nat} (h : s.block.outLen.toNat ≤ i) : outCharacter s i = none := by
  simp [outCharacter, Nat.not_lt.2 h]

/-- Below `OUT_LEN` it is the one `OBUF` holds. -/
theorem outCharacter_below {s : State} {i : Nat} (h : i < s.block.outLen.toNat) :
    outCharacter s i = lookupAt i s.block.obuf := by
  simp [outCharacter, h]

end Sys2Proof.Machine
end

