-- ==== Sys2Proof/Laws/Lists.lean ====
section
/-! SUPPORT. The laws of lists by key: a read after a write, that a write leaves every other key alone, and that the
operations keep the keys strictly rising and below a bound; then the same of the grid's pixels. -/

namespace Sys2Proof.Machine

variable {α : Type}

theorem lookupAt_putAt_same (k : Nat) (v : α) (l : List (Nat × α)) :
    lookupAt k (putAt k v l) = some v := by
  induction l with
  | nil => simp [putAt, lookupAt]
  | cons e rest ih =>
    obtain ⟨j, u⟩ := e
    simp only [putAt]
    split
    · simp [lookupAt]
    · split
      · simp [lookupAt]
      · simp [lookupAt, *]

theorem lookupAt_putAt_other {k j : Nat} (h : j ≠ k) (v : α) (l : List (Nat × α)) :
    lookupAt j (putAt k v l) = lookupAt j l := by
  induction l with
  | nil => simp [putAt, lookupAt, h]
  | cons e rest ih =>
    obtain ⟨m, u⟩ := e
    simp only [putAt]
    split
    · simp [lookupAt, h]
    · split
      · rename_i h1 h2
        subst h2
        simp [lookupAt, h]
      · simp [lookupAt, ih]

/-- What a put list reads as at every key. -/
theorem lookupAt_putAt (j k : Nat) (v : α) (l : List (Nat × α)) :
    lookupAt j (putAt k v l) = if j = k then some v else lookupAt j l := by
  split
  · next h => rw [h]; exact lookupAt_putAt_same k v l
  · next h => exact lookupAt_putAt_other h v l

@[simp] theorem keysAbove_nil (k : Nat) : keysAbove k ([] : List (Nat × α)) = true := rfl

@[simp] theorem keysAbove_cons (k : Nat) (e : Nat × α) (l : List (Nat × α)) :
    keysAbove k (e :: l) = true ↔ k < e.1 ∧ keysAbove k l = true := by
  simp [keysAbove]

@[simp] theorem keysBelow_nil (n : Nat) : keysBelow n ([] : List (Nat × α)) = true := rfl

@[simp] theorem keysBelow_cons (n : Nat) (e : Nat × α) (l : List (Nat × α)) :
    keysBelow n (e :: l) = true ↔ e.1 < n ∧ keysBelow n l = true := by
  simp [keysBelow]

@[simp] theorem rising_nil : rising ([] : List (Nat × α)) = true := rfl

@[simp] theorem rising_cons (e : Nat × α) (l : List (Nat × α)) :
    rising (e :: l) = true ↔ keysAbove e.1 l = true ∧ rising l = true := by
  simp [rising]

theorem keysAbove_putAt {b k : Nat} (h : b < k) (v : α) {l : List (Nat × α)}
    (hl : keysAbove b l = true) : keysAbove b (putAt k v l) = true := by
  induction l with
  | nil => simpa [putAt] using h
  | cons e rest ih =>
    obtain ⟨m, u⟩ := e
    simp only [keysAbove_cons] at hl
    simp only [putAt]
    split
    · simp [h, hl]
    · split
      · simp [h, hl]
      · simp [hl, ih hl.2]

theorem keysBelow_putAt {n k : Nat} (h : k < n) (v : α) {l : List (Nat × α)}
    (hl : keysBelow n l = true) : keysBelow n (putAt k v l) = true := by
  induction l with
  | nil => simpa [putAt] using h
  | cons e rest ih =>
    obtain ⟨m, u⟩ := e
    simp only [keysBelow_cons] at hl
    simp only [putAt]
    split
    · simp [h, hl]
    · split
      · simp [h, hl]
      · simp [hl, ih hl.2]

theorem keysAbove_of_lt {b c : Nat} (h : b ≤ c) {l : List (Nat × α)}
    (hl : keysAbove c l = true) : keysAbove b l = true := by
  simp only [keysAbove, List.all_eq_true, decide_eq_true_eq] at hl ⊢
  intro e he
  exact lt_of_le_of_lt h (hl e he)

theorem rising_putAt (k : Nat) (v : α) {l : List (Nat × α)} (hl : rising l = true) :
    rising (putAt k v l) = true := by
  induction l with
  | nil => simp [putAt]
  | cons e rest ih =>
    obtain ⟨m, u⟩ := e
    simp only [rising_cons] at hl
    simp only [putAt]
    split
    · next h => simp [h, hl, keysAbove_of_lt (Nat.le_of_lt h) hl.1]
    · split
      · next h1 h2 => subst h2; simp [hl]
      · next h1 h2 => simp [ih hl.2, keysAbove_putAt (by omega : m < k) v hl.1]

theorem mem_putAt {k : Nat} {v : α} {l : List (Nat × α)} {e : Nat × α} (h : e ∈ putAt k v l) :
    e = (k, v) ∨ e ∈ l := by
  induction l with
  | nil => simpa [putAt] using h
  | cons f rest ih =>
    obtain ⟨m, u⟩ := f
    simp only [putAt] at h
    split at h
    · simpa using h
    · split at h
      · rcases List.mem_cons.1 h with h | h
        · exact .inl h
        · exact .inr (List.mem_cons_of_mem _ h)
      · rcases List.mem_cons.1 h with h | h
        · exact .inr (h ▸ List.mem_cons_self)
        · exact (ih h).imp id (List.mem_cons_of_mem _)

theorem mem_dropAt {k : Nat} {l : List (Nat × α)} {e : Nat × α} (h : e ∈ dropAt k l) : e ∈ l := by
  induction l with
  | nil => simp [dropAt] at h
  | cons f rest ih =>
    obtain ⟨m, u⟩ := f
    simp only [dropAt] at h
    split at h
    · exact List.mem_cons_of_mem _ h
    · rcases List.mem_cons.1 h with h | h
      · exact h ▸ List.mem_cons_self
      · exact List.mem_cons_of_mem _ (ih h)

theorem keysAbove_dropAt {b k : Nat} {l : List (Nat × α)} (hl : keysAbove b l = true) :
    keysAbove b (dropAt k l) = true := by
  simp only [keysAbove, List.all_eq_true] at hl ⊢
  exact fun e he => hl e (mem_dropAt he)

theorem rising_dropAt (k : Nat) {l : List (Nat × α)} (hl : rising l = true) :
    rising (dropAt k l) = true := by
  induction l with
  | nil => rfl
  | cons e rest ih =>
    obtain ⟨m, u⟩ := e
    simp only [rising_cons] at hl
    simp only [dropAt]
    split
    · exact hl.2
    · simp [ih hl.2, keysAbove_dropAt hl.1]

theorem lookupAt_of_keysAbove {b k : Nat} (h : k ≤ b) {l : List (Nat × α)}
    (hl : keysAbove b l = true) : lookupAt k l = none := by
  induction l with
  | nil => rfl
  | cons e rest ih =>
    obtain ⟨m, u⟩ := e
    simp only [keysAbove_cons] at hl
    have : k ≠ m := by omega
    simp [lookupAt, this, ih hl.2]

/-- What a list with a key taken out reads as at every key. -/
theorem lookupAt_dropAt (j k : Nat) {l : List (Nat × α)} (hl : rising l = true) :
    lookupAt j (dropAt k l) = if j = k then none else lookupAt j l := by
  induction l with
  | nil => simp [dropAt, lookupAt]
  | cons e rest ih =>
    obtain ⟨m, u⟩ := e
    simp only [rising_cons] at hl
    simp only [dropAt]
    split
    · next h =>
      subst h
      split
      · next h2 => subst h2; exact lookupAt_of_keysAbove (Nat.le_refl _) hl.1
      · next h2 => simp [lookupAt, h2]
    · next h =>
      simp only [lookupAt, ih hl.2]
      by_cases h1 : j = m
      · subst h1; simp [Ne.symm h]
      · simp [h1]

/-- An entry of a list whose keys rise is what the list reads as at its key. -/
theorem lookupAt_of_mem {l : List (Nat × α)} (hl : rising l = true) {k : Nat} {v : α}
    (h : (k, v) ∈ l) : lookupAt k l = some v := by
  induction l with
  | nil => simp at h
  | cons e rest ih =>
    obtain ⟨m, u⟩ := e
    simp only [rising_cons] at hl
    rcases List.mem_cons.1 h with h | h
    · cases h; simp [lookupAt]
    · have hk : m < k := by
        have := List.all_eq_true.1 hl.1 _ h
        simpa using this
      have : k ≠ m := by omega
      simp [lookupAt, this, ih hl.2 h]

/-! ## Pixels -/

theorem pixelKey_div (x y : Half) : pixelKey x y / 65536 = y.toNat := by
  have := x.isLt
  unfold pixelKey; omega

theorem pixelKey_mod (x y : Half) : pixelKey x y % 65536 = x.toNat := by
  have := x.isLt
  unfold pixelKey; omega

/-- Two pixels with one key are one pixel. -/
theorem pixelKey_inj {x y x' y' : Half} (h : pixelKey x y = pixelKey x' y') : x = x' ∧ y = y' := by
  have h1 := congrArg (· / 65536) h
  have h2 := congrArg (· % 65536) h
  simp only [pixelKey_div, pixelKey_mod] at h1 h2
  exact ⟨BitVec.eq_of_toNat_eq h2, BitVec.eq_of_toNat_eq h1⟩

theorem Memory.wf_iff (m : Memory) :
    Memory.wf m = true ↔ rising m = true ∧ ∀ e ∈ m, e.2 ≠ unlistedPixel := by
  simp [Memory.wf]

/-- Every store keeps the canonical form. -/
theorem storePixel_wf {m : Memory} (hm : Memory.wf m = true) (k : Nat) (v : Stored) :
    Memory.wf (storePixel m k v) = true := by
  rw [Memory.wf_iff] at hm ⊢
  unfold storePixel
  split
  · exact ⟨rising_dropAt k hm.1, fun e he => hm.2 e (mem_dropAt he)⟩
  · next hv =>
    refine ⟨rising_putAt k v hm.1, fun e he => ?_⟩
    rcases mem_putAt he with rfl | he
    · exact hv
    · exact hm.2 e he

/-- What the pixels read as after a store. -/
theorem storedAt_storePixel {m : Memory} (hm : Memory.wf m = true) (j k : Nat) (v : Stored) :
    storedAt (storePixel m k v) j = if j = k then v else storedAt m j := by
  rw [Memory.wf_iff] at hm
  unfold storePixel storedAt
  split
  · next h => subst h; rw [lookupAt_dropAt _ _ hm.1]; split <;> simp
  · rw [lookupAt_putAt]; split <;> simp

/-- A store of four bytes reads back, and leaves every other pixel alone, whatever the list. -/
theorem storedAt_storePixel_written (m : Memory) (j k : Nat) (q : Quad Byte) :
    storedAt (storePixel m k (.written q)) j = if j = k then .written q else storedAt m j := by
  unfold storePixel storedAt
  rw [if_neg (by simp [unlistedPixel]), lookupAt_putAt]
  split <;> simp

theorem mem_storePixel {m : Memory} {k : Nat} {v : Stored} {e : Nat × Stored}
    (h : e ∈ storePixel m k v) : e = (k, v) ∨ e ∈ m := by
  unfold storePixel at h
  split at h
  · exact .inr (mem_dropAt h)
  · exact mem_putAt h

/-- Canonical pixels that read alike are equal. -/
theorem Memory.ext_of_storedAt {m n : Memory} (hm : Memory.wf m = true) (hn : Memory.wf n = true)
    (h : ∀ k, storedAt m k = storedAt n k) : m = n := by
  rw [Memory.wf_iff] at hm hn
  induction m generalizing n with
  | nil =>
    cases n with
    | nil => rfl
    | cons f rest =>
      obtain ⟨k, v⟩ := f
      have hv := hn.2 (k, v) List.mem_cons_self
      have := h k
      simp [storedAt, lookupAt] at this
      exact absurd this.symm hv
  | cons e rest ih =>
    obtain ⟨k, v⟩ := e
    have hv := hm.2 (k, v) List.mem_cons_self
    cases n with
    | nil =>
      have := h k
      simp [storedAt, lookupAt] at this
      exact absurd this hv
    | cons f rest' =>
      obtain ⟨k', v'⟩ := f
      have hv' := hn.2 (k', v') List.mem_cons_self
      simp only [rising_cons] at hm hn
      have hkk : k = k' := by
        by_contra hne
        rcases Nat.lt_or_gt_of_ne hne with hlt | hgt
        · have := h k
          simp [storedAt, lookupAt, hne, lookupAt_of_keysAbove (Nat.le_of_lt hlt) hn.1.1] at this
          exact hv this
        · have := h k'
          simp [storedAt, lookupAt, Ne.symm hne,
            lookupAt_of_keysAbove (Nat.le_of_lt hgt) hm.1.1] at this
          exact hv' this.symm
      subst hkk
      have hvv : v = v' := by
        have := h k
        simpa [storedAt, lookupAt] using this
      subst hvv
      congr 1
      refine ih ⟨hm.1.2, fun e he => hm.2 e (List.mem_cons_of_mem _ he)⟩
        ⟨hn.1.2, fun e he => hn.2 e (List.mem_cons_of_mem _ he)⟩ fun j => ?_
      by_cases hj : j = k
      · subst hj
        simp [storedAt, lookupAt_of_keysAbove (Nat.le_refl _) hm.1.1,
          lookupAt_of_keysAbove (Nat.le_refl _) hn.1.1]
      · have := h j
        simpa [storedAt, lookupAt, hj] using this

end Sys2Proof.Machine
end

