-- ==== Sys2Proof/Laws/Ops.lean ====
section
/-! SUPPORT. Everything the grid port, the cursor and the end of an operation can do, one lemma per operation, for the
provers to cite instead of unfolding. -/

namespace Sys2Proof.Machine

/-- What a grid read that answers has done (20_memory.md R51, R52). -/
theorem gridRead_ok {s : State} {x y : Half} {p : Quad Half} (h : gridRead s x y = .ok p) :
    x.toNat < s.grid.w.toNat ∧ y.toNat < s.grid.h.toNat ∧ p = pixelAt s x y := by
  unfold gridRead at h
  split at h
  · next hin =>
    cases h
    simp only [inGrid, decide_eq_true_eq] at hin
    exact ⟨hin.1, hin.2, rfl⟩
  · cases h

/-- When a grid read answers (20_memory.md R51). -/
theorem gridRead_of_lt {s : State} {x y : Half} (hx : x.toNat < s.grid.w.toNat)
    (hy : y.toNat < s.grid.h.toNat) : gridRead s x y = .ok (pixelAt s x y) := by
  simp [gridRead, inGrid, hx, hy]

/-- What a grid write that answers has done: one pixel replaced and nothing else (20_memory.md R53). -/
theorem gridWrite_ok {s t : State} {x y : Half} {v : Quad Byte} (h : gridWrite s x y v = .ok t) :
    x.toNat < s.grid.w.toNat ∧ y.toNat < s.grid.h.toNat ∧ s.grid.writable = true ∧
    t = { s with grid := { s.grid with
      pixels := storePixel s.grid.pixels (pixelKey x y) (.written v) } } := by
  unfold gridWrite at h
  split at h
  · next hin =>
    simp only [inGrid, decide_eq_true_eq] at hin
    split at h
    · next hw => cases h; exact ⟨hin.1, hin.2, hw, rfl⟩
    · cases h
  · cases h

/-- A grid write keeps the canonical form of the pixels. -/
theorem gridWrite_wf {s t : State} {x y : Half} {v : Quad Byte} (h : gridWrite s x y v = .ok t)
    (hs : Memory.wf s.grid.pixels = true) : Memory.wf t.grid.pixels = true := by
  obtain ⟨-, -, -, ht⟩ := gridWrite_ok h
  have hp : t.grid.pixels = storePixel s.grid.pixels (pixelKey x y) (.written v) := by rw [ht]
  rw [hp]
  exact storePixel_wf hs _ _

/-- Filling a grid keeps its size, its writability and the canonical form of its pixels. -/
theorem fillPixels_facts (ps : List PixelInit) (g : Grid) (hg : Memory.wf g.pixels = true) :
    (fillPixels g ps).w = g.w ∧ (fillPixels g ps).h = g.h ∧ (fillPixels g ps).writable = g.writable ∧
    Memory.wf (fillPixels g ps).pixels = true := by
  induction ps generalizing g with
  | nil => exact ⟨rfl, rfl, rfl, hg⟩
  | cons p ps ih =>
    unfold fillPixels
    split
    · exact ih _ (storePixel_wf hg _ _)
    · exact ih _ hg

/-- The canonical form holds at reset. -/
theorem reset_pixels_wf : Memory.wf State.reset.grid.pixels = true := rfl

/-- Inside the grid, what `Advance` does to the cursor, without wrapping (42_traversal.md R131). -/
theorem advance_cursor {s : State} (hx : s.block.x.toNat < s.grid.w.toNat)
    (hy : s.block.y.toNat < s.grid.h.toNat) :
    (s.block.x.toNat + 1 = s.grid.w.toNat ∧ (advance s).block.x = 0#16 ∧
      (advance s).block.y.toNat = s.block.y.toNat + 1) ∨
    (s.block.x.toNat + 1 < s.grid.w.toNat ∧ (advance s).block.x.toNat = s.block.x.toNat + 1 ∧
      (advance s).block.y = s.block.y) := by
  have hw := s.grid.w.isLt
  have hh := s.grid.h.isLt
  have ex : (s.block.x + 1#16).toNat = s.block.x.toNat + 1 := by
    rw [BitVec.toNat_add]; simp only [BitVec.toNat_ofNat]; omega
  have ey : (s.block.y + 1#16).toNat = s.block.y.toNat + 1 := by
    rw [BitVec.toNat_add]; simp only [BitVec.toNat_ofNat]; omega
  rw [advance_block]
  by_cases h : s.block.x + 1#16 = s.grid.w
  · rw [if_pos h]
    exact .inl ⟨by rw [← ex, h], rfl, ey⟩
  · rw [if_neg h]
    have : (s.block.x + 1#16).toNat ≠ s.grid.w.toNat := fun hc => h (BitVec.eq_of_toNat_eq hc)
    exact .inr ⟨by omega, ex, rfl⟩

/-- `Advance` moves the cursor and nothing else. -/
theorem advance_only_cursor (s : State) :
    ∃ x y : Half, advance s = { s with block := { s.block with x := x, y := y } } := by
  unfold advance
  split
  · exact ⟨_, _, rfl⟩
  · exact ⟨_, _, rfl⟩

/-- A pixel of the grid has an index below `W·H`. -/
theorem pixelIndex_lt {s : State} (hx : s.block.x.toNat < s.grid.w.toNat)
    (hy : s.block.y.toNat < s.grid.h.toNat) : pixelIndex s < s.grid.w.toNat * s.grid.h.toNat := by
  have h : (s.block.y.toNat + 1) * s.grid.w.toNat ≤ s.grid.h.toNat * s.grid.w.toNat :=
    Nat.mul_le_mul_right _ hy
  rw [Nat.succ_mul] at h
  rw [Nat.mul_comm s.grid.w.toNat]
  unfold pixelIndex
  omega

/-- The coordinates of an index below a width are its remainder and its quotient. -/
theorem coordinates_of_index {x y w p : Nat} (hx : x < w) (hp : p = y * w + x) :
    x = p % w ∧ y = p / w := by
  subst hp
  constructor
  · rw [Nat.mul_comm, Nat.mul_add_mod, Nat.mod_eq_of_lt hx]
  · rw [Nat.mul_comm, Nat.mul_add_div (by omega), Nat.div_eq_of_lt hx]; rfl

/-- The pixel at the cursor is the pixel of its index. -/
theorem rasterPixel_pixelIndex {s : State} (hx : s.block.x.toNat < s.grid.w.toNat) :
    rasterPixel s (pixelIndex s) = pixelAt s s.block.x s.block.y := by
  have h := coordinates_of_index hx
    (rfl : pixelIndex s = s.block.y.toNat * s.grid.w.toNat + s.block.x.toNat)
  unfold rasterPixel
  rw [← h.1, ← h.2]
  simp

/-- The parities of the slots depend on the grid and `GRID_EXPAND` alone. -/
theorem slotParity_congr {s t : State} (hg : t.grid = s.grid) (hp : t.params = s.params) :
    slotParity t = slotParity s := by
  funext i
  unfold slotParity slotValue rasterPixel pixelAt
  rw [hg, hp]

end Sys2Proof.Machine
end

