-- ==== Sys2Proof/Laws/Instr.lean ====
section
/-! SUPPORT. Everything an instruction that goes on can have done, one lemma per instruction that has more than one
outcome, and what a step of the block's sequencer is at each phase. -/

namespace Sys2Proof.Machine

/-- ENCODE: one of three ends at acceptance, or the start of the operation (40_control.md R102). -/
theorem execEncode_cases {s t : State} (h : execEncode s = .next t) :
    (s.grid.writable = false ∧ t = finish .unsupportedCarrier (beginOperation s)) ∨
    (s.grid.writable = true ∧ s.params.msgDepth.val < s.block.msgLen.toNat ∧
      t = finish .msgLenRange (beginOperation s)) ∨
    (s.grid.writable = true ∧ s.block.msgLen.toNat ≤ s.params.msgDepth.val ∧
      carrierSlots s.grid < streamLength s.block.msgLen.toNat ∧
      t = finish .capacityExceeded (beginOperation s)) ∨
    (s.grid.writable = true ∧ s.block.msgLen.toNat ≤ s.params.msgDepth.val ∧
      streamLength s.block.msgLen.toNat ≤ carrierSlots s.grid ∧
      t = setPhase phaseEncLoad (homeCursor (beginOperation s))) := by
  unfold execEncode at h
  split at h
  · next hw => cases h; exact .inl ⟨hw, rfl⟩
  · next hw =>
    have hw : s.grid.writable = true := by simpa using hw
    split at h
    · next hl => cases h; exact .inr (.inl ⟨hw, hl, rfl⟩)
    · next hl =>
      split at h
      · next hc => cases h; exact .inr (.inr (.inl ⟨hw, Nat.not_lt.1 hl, hc, rfl⟩))
      · next hc => cases h; exact .inr (.inr (.inr ⟨hw, Nat.not_lt.1 hl, Nat.not_lt.1 hc, rfl⟩))

/-- DECODE: the end at acceptance on an empty grid, or the start of the scan (40_control.md R103). -/
theorem execDecode_cases {s t : State} (h : execDecode s = .next t) :
    ((s.grid.w = 0#16 ∨ s.grid.h = 0#16) ∧
      t = finish .terminatorNotFound (homeCursor (clearDecode (beginOperation s)))) ∨
    (s.grid.w ≠ 0#16 ∧ s.grid.h ≠ 0#16 ∧
      t = setPhase phaseDecLoad (homeCursor (clearDecode (beginOperation s)))) := by
  unfold execDecode at h
  split at h
  · next hg => cases h; exact .inl ⟨hg, rfl⟩
  · next hg => cases h; exact .inr ⟨fun hc => hg (.inl hc), fun hc => hg (.inr hc), rfl⟩

/-- ENC_LOAD (43_embedder.md R144). -/
theorem execEncLoad_next {s t : State} (h : execEncLoad s = .next t) :
    s.block.x.toNat < s.grid.w.toNat ∧ s.block.y.toNat < s.grid.h.toNat ∧
    t = setPhase phaseEncSlot (latchForEncode (pixelAt s s.block.x s.block.y) s) := by
  unfold execEncLoad at h
  split at h
  · cases h
  · next p hr =>
    obtain ⟨hx, hy, rfl⟩ := gridRead_ok hr
    cases h
    exact ⟨hx, hy, rfl⟩

/-- ENC_SLOT: a stream bit embedded and counted, then ENC_STORE or the next slot (43_embedder.md R145). -/
theorem execEncSlot_cases {s t : State} (h : execEncSlot s = .next t) :
    ∃ b, streamBit s.block s.block.nbits.toNat = some b ∧
      (((streamDone (countBit (embedBit b s)) = true ∨ s.block.ch = 2#2) ∧
        t = setPhase phaseEncStore (countBit (embedBit b s))) ∨
      (¬ (streamDone (countBit (embedBit b s)) = true ∨ s.block.ch = 2#2) ∧
        t = nextSlot (countBit (embedBit b s)))) := by
  simp only [execEncSlot] at h
  split at h
  · cases h
  · next b hb =>
    refine ⟨b, hb, ?_⟩
    have hch : (countBit (embedBit b s)).block.ch = s.block.ch := rfl
    simp only [hch] at h
    split at h
    · next hc => cases h; exact .inl ⟨hc, rfl⟩
    · next hc => cases h; exact .inr ⟨hc, rfl⟩

/-- ENC_STORE: the pixel written and the cursor advanced, then the end or the next pixel (43_embedder.md R146). -/
theorem execEncStore_cases {s t : State} (h : execEncStore s = .next t) :
    s.block.x.toNat < s.grid.w.toNat ∧ s.block.y.toNat < s.grid.h.toNat ∧ s.grid.writable = true ∧
    ∃ u : State, u = { s with grid := { s.grid with
        pixels := storePixel s.grid.pixels (pixelKey s.block.x s.block.y) (.written s.block.o8) } } ∧
      ((streamDone u = true ∧ t = finish .ok (advance u)) ∨
       (streamDone u = false ∧ t = setPhase phaseEncLoad (advance u))) := by
  unfold execEncStore at h
  split at h
  · cases h
  · next u hw =>
    obtain ⟨hx, hy, hwr, rfl⟩ := gridWrite_ok hw
    refine ⟨hx, hy, hwr, _, rfl, ?_⟩
    split at h
    · next hd => cases h; exact .inl ⟨hd, rfl⟩
    · next hd => cases h; exact .inr ⟨by simpa using hd, rfl⟩

/-- When ENC_STORE goes on, and to what, the pixels it leaves given by the caller (43_embedder.md R146). -/
theorem execEncStore_of_writable {s : State} {m : Memory} (hin : inGrid s.grid s.block.x s.block.y = true)
    (hw : s.grid.writable = true)
    (hm : storePixel s.grid.pixels (pixelKey s.block.x s.block.y) (.written s.block.o8) = m) :
    execEncStore s =
      if streamDone s = true then .next (finish .ok (advance { s with grid := { s.grid with pixels := m } }))
      else .next (setPhase phaseEncLoad (advance { s with grid := { s.grid with pixels := m } })) := by
  subst hm
  unfold execEncStore gridWrite
  rw [if_pos hin, if_pos hw]
  rfl

/-- DEC_LOAD (44_scanner.md R160). -/
theorem execDecLoad_next {s t : State} (h : execDecLoad s = .next t) :
    s.block.x.toNat < s.grid.w.toNat ∧ s.block.y.toNat < s.grid.h.toNat ∧
    t = setPhase phaseDecSlot (latchForDecode (pixelAt s s.block.x s.block.y) s) := by
  unfold execDecLoad at h
  split at h
  · cases h
  · next p hr =>
    obtain ⟨hx, hy, rfl⟩ := gridRead_ok hr
    cases h
    exact ⟨hx, hy, rfl⟩

/-- DEC_SLOT always goes on: the overflow end, or what follows the bit, after the character it completes is stored
(44_scanner.md R161). -/
theorem execDecSlot_cases (s : State) :
    ∃ u, u = countBit (scanBit s) ∧
      ((characterDone u = true ∧ s.params.obufDepth.val ≤ characterIndex u ∧
          execDecSlot s = .next (finish .outOverflow u)) ∨
        (characterDone u = true ∧ characterIndex u < s.params.obufDepth.val ∧
          execDecSlot s = .next (afterCharacter (storeCharacter (characterIndex u) u))) ∨
        (characterDone u = false ∧ execDecSlot s = .next (afterCharacter u))) := by
  refine ⟨_, rfl, ?_⟩
  have hp : (countBit (scanBit s)).params = s.params := rfl
  simp only [execDecSlot, hp]
  by_cases hd : characterDone (countBit (scanBit s)) = true
  · rw [if_pos hd]
    by_cases hi : s.params.obufDepth.val ≤ characterIndex (countBit (scanBit s))
    · rw [if_pos hi]; exact .inl ⟨hd, hi, rfl⟩
    · rw [if_neg hi]; exact .inr (.inl ⟨hd, by omega, rfl⟩)
  · rw [if_neg hd]; exact .inr (.inr ⟨by simpa using hd, rfl⟩)

/-- What follows a scanned bit: the end at the terminator, the next slot, the end of the grid, or the next pixel. -/
theorem afterCharacter_cases (s : State) :
    (terminatorSeen s = true ∧ afterCharacter s = finish .ok (setOutLen s)) ∨
    (terminatorSeen s = false ∧ s.block.ch.toNat < 2 ∧ afterCharacter s = nextSlot s) ∨
    (terminatorSeen s = false ∧ 2 ≤ s.block.ch.toNat ∧ (advance s).block.y = s.grid.h ∧
      afterCharacter s = finish .terminatorNotFound (advance s)) ∨
    (terminatorSeen s = false ∧ 2 ≤ s.block.ch.toNat ∧ (advance s).block.y ≠ s.grid.h ∧
      afterCharacter s = setPhase phaseDecLoad (advance s)) := by
  unfold afterCharacter nextScan
  by_cases ht : terminatorSeen s = true
  · rw [if_pos ht]; exact .inl ⟨ht, rfl⟩
  · rw [if_neg ht]
    have ht : terminatorSeen s = false := by simpa using ht
    by_cases hc : s.block.ch.toNat < 2
    · rw [if_pos hc]; exact .inr (.inl ⟨ht, hc, rfl⟩)
    · rw [if_neg hc]
      by_cases hy : (advance s).block.y = s.grid.h
      · rw [if_pos hy]; exact .inr (.inr (.inl ⟨ht, by omega, hy, rfl⟩))
      · rw [if_neg hy]; exact .inr (.inr (.inr ⟨ht, by omega, hy, rfl⟩))

/-- The micro-operations of the six phases, as a step of the sequencer calls them (30_encoding.md R84). -/
theorem blockTurn_cases {s : State} (h : s.block.phase.toNat ≤ 5) :
    (s.block.phase = phaseIdle ∧ blockTurn s = .next s) ∨
    (s.block.phase = phaseEncLoad ∧ blockTurn s = execEncLoad s) ∨
    (s.block.phase = phaseEncSlot ∧ blockTurn s = execEncSlot s) ∨
    (s.block.phase = phaseEncStore ∧ blockTurn s = execEncStore s) ∨
    (s.block.phase = phaseDecLoad ∧ blockTurn s = execDecLoad s) ∨
    (s.block.phase = phaseDecSlot ∧ blockTurn s = execDecSlot s) := by
  have hall : ∀ p : BitVec 3, p.toNat ≤ 5 → p = phaseIdle ∨ p = phaseEncLoad ∨ p = phaseEncSlot ∨
      p = phaseEncStore ∨ p = phaseDecLoad ∨ p = phaseDecSlot := by decide
  unfold blockTurn
  rcases hall _ h with hp | hp | hp | hp | hp | hp <;> rw [hp]
  · exact .inl ⟨rfl, rfl⟩
  · exact .inr (.inl ⟨rfl, rfl⟩)
  · exact .inr (.inr (.inl ⟨rfl, rfl⟩))
  · exact .inr (.inr (.inr (.inl ⟨rfl, rfl⟩)))
  · exact .inr (.inr (.inr (.inr (.inl ⟨rfl, rfl⟩))))
  · exact .inr (.inr (.inr (.inr (.inr ⟨rfl, rfl⟩))))

/-! The turn of the block at each phase of an operation. -/

theorem blockTurn_encLoad {s : State} (h : s.block.phase = phaseEncLoad) : blockTurn s = execEncLoad s := by
  unfold blockTurn; rw [h]; rfl

theorem blockTurn_encSlot {s : State} (h : s.block.phase = phaseEncSlot) : blockTurn s = execEncSlot s := by
  unfold blockTurn; rw [h]; rfl

theorem blockTurn_encStore {s : State} (h : s.block.phase = phaseEncStore) : blockTurn s = execEncStore s := by
  unfold blockTurn; rw [h]; rfl

theorem blockTurn_decLoad {s : State} (h : s.block.phase = phaseDecLoad) : blockTurn s = execDecLoad s := by
  unfold blockTurn; rw [h]; rfl

theorem blockTurn_decSlot {s : State} (h : s.block.phase = phaseDecSlot) : blockTurn s = execDecSlot s := by
  unfold blockTurn; rw [h]; rfl

/-- A busy block moves when the agenda is empty (log 1). -/
theorem step_of_busy {s : State} (hb : busy s = true) (ha : s.agenda = []) :
    step s = blockTurn s := by
  have hp : popAgenda s = s := by
    unfold popAgenda
    rw [ha]
    show { s with agenda := [] } = s
    rw [← ha]
  unfold step nextEvent
  rw [ha, hp]
  show perform (defaultEvent s) s = blockTurn s
  unfold defaultEvent
  rw [if_pos hb]
  rfl

end Sys2Proof.Machine
end

