-- ==== Sys2Proof/Laws/Operands.lean ====
section
/-! SUPPORT. What each operand function does, in the terms a proof computes with. -/

namespace Sys2Proof.Machine

/-- The value of a narrowed integer (00_scope.md R4). -/
theorem narrow8_toNat (v : Int) : ((narrow8 v).toNat : Int) = v % 256 := by
  unfold narrow8
  rw [BitVec.toNat_ofNat]
  have h1 : 0 ≤ v % 256 := Int.emod_nonneg _ (by decide)
  have h2 : v % 256 < 256 := Int.emod_lt_of_pos _ (by decide)
  omega

/-- A channel value narrowed is its low byte. -/
theorem narrowHalf_eq (v : Half) : narrowHalf v = v.setWidth 8 := by
  unfold narrowHalf narrow8
  apply BitVec.eq_of_toNat_eq
  simp only [BitVec.toNat_ofNat, BitVec.toNat_setWidth]
  omega

/-- The parity bit of a channel value, over its number. -/
theorem parityBit_eq (v : Half) : parityBit v = decide (v.toNat % 2 = 1) := by
  unfold parityBit oddInt
  congr 1
  simp only [eq_iff_iff]
  omega

/-- What a replaced channel reads as, and that the other three are left alone. -/
theorem selectChannel_replaceChannel {α : Type} (q : Quad α) (c d : BitVec 2) (v : α) :
    selectChannel (replaceChannel q c v) d = if d = c then v else selectChannel q d := by
  have hall : ∀ c : BitVec 2, c = 0#2 ∨ c = 1#2 ∨ c = 2#2 ∨ c = 3#2 := by decide
  rcases hall c with h | h | h | h <;> rcases hall d with h' | h' | h' | h' <;> subst h <;> subst h' <;> rfl

/-- A channel of a mapped pixel. -/
theorem selectChannel_map {α β : Type} (f : α → β) (q : Quad α) (c : BitVec 2) :
    selectChannel (q.map f) c = f (selectChannel q c) := by
  unfold selectChannel Quad.map
  split
  · rfl
  · split
    · rfl
    · split <;> rfl

/-- The bits of the shift register after one shift: the new bit at the bottom (44_scanner.md R161). -/
theorem shiftIn_getLsbD (sr : Byte) (b : Bool) (k : Nat) :
    (shiftIn sr b).getLsbD k = (decide (k < 8) && if k = 0 then b else sr.getLsbD (k - 1)) := by
  have h : shiftIn sr b = (sr <<< 1) ||| (BitVec.ofBool b).setWidth 8 := by
    revert sr b; decide
  rw [h]
  cases k with
  | zero => cases b <;> simp
  | succ k => simp [BitVec.getLsbD_or, BitVec.getLsbD_shiftLeft, BitVec.getLsbD_setWidth]

/-- Everything `StreamBit` can answer (41_bitstream_encoder.md R121). -/
theorem streamBit_cases (b : Block) (i : Nat) :
    (8 * b.msgLen.toNat ≤ i ∧ streamBit b i = some false) ∨
    (i < 8 * b.msgLen.toNat ∧ lookupAt (i / 8) b.msg = none ∧ streamBit b i = none) ∨
    (i < 8 * b.msgLen.toNat ∧ ∃ u, lookupAt (i / 8) b.msg = some u ∧
      streamBit b i = some (u.getLsbD (7 - i % 8))) := by
  unfold streamBit
  split
  · next h =>
    refine .inr ?_
    cases hl : lookupAt (i / 8) b.msg with
    | none => exact .inl ⟨h, rfl, rfl⟩
    | some u =>
      refine .inr ⟨h, u, rfl, ?_⟩
      simp only [Option.map_some, maskUnit, BitVec.getLsbD_setWidth]
      simp only [show 7 - i % 8 < 8 by omega, decide_true, Bool.true_and]
  · exact .inl ⟨by omega, rfl⟩

/-- The line of the first label of that number (30_encoding.md R89). -/
theorem labelLine_of_first (l : Nat) (prog : List HostOp) (b k : Nat)
    (h : prog[k]? = some (.label l)) (hj : ∀ j, j < k → prog[j]? ≠ some (.label l)) :
    labelLine l prog b = some (b + k) := by
  induction prog generalizing b k with
  | nil => simp at h
  | cons op rest ih =>
    cases k with
    | zero =>
      simp only [List.getElem?_cons_zero, Option.some.injEq] at h
      simp [labelLine, h]
    | succ k =>
      have h0 := hj 0 (by omega)
      simp only [List.getElem?_cons_zero, ne_eq, Option.some.injEq] at h0
      simp only [List.getElem?_cons_succ] at h
      simp only [labelLine, h0, if_false]
      rw [ih (b + 1) k h fun j hjk => by
        have := hj (j + 1) (by omega)
        simpa using this]
      congr 1
      omega

/-- The code units of a text given by its characters. -/
@[simp] theorem textUnits_ofList (cs : List Char) :
    textUnits (String.ofList cs) = cs.map fun c => BitVec.ofNat 32 c.toNat := by
  simp [textUnits]

/-- `SET_MSG` of a text has one write a character, and the write of `MSG_LEN`. -/
theorem setMsgText_eq (text : String) : setMsgText text = setMsg (textUnits text) := rfl

end Sys2Proof.Machine
end

