-- ==== Sys2Proof/Laws/PerInstr.lean ====
section
/-! SUPPORT. A family of statements, one lemma per constructor: the word the encoder gives an instruction is the match of
its row of spec/opcode_table.json under the row's mask, and the decoder reads it back, whatever the reserved bits. -/

namespace Sys2Proof.Laws.EncodesItsRow

/-- The masked bits of the instruction's word are its row's match, for every value of the reserved bits of a command. -/
def Statement (i : Instr) : Prop :=
  ∀ reserved : BitVec 30, (encodeWith reserved i).bits &&& (tableRow i).mask = (tableRow i).pattern

/-- The low two bits of a command word are its command code. -/
theorem commandWord_masked (reserved : BitVec 30) (c : BitVec 2) :
    (commandWord reserved c).toNat &&& 3 = c.toNat := by
  have h := c.isLt
  rw [show (3 : Nat) = 2 ^ 2 - 1 from rfl, Nat.and_two_pow_sub_one_eq_mod]
  unfold commandWord
  rw [BitVec.toNat_append, Nat.shiftLeft_eq, Nat.mul_comm, ← Nat.two_pow_add_eq_or_of_lt h,
    Nat.mul_add_mod, Nat.mod_eq_of_lt h]

/-- The bits of a `PHASE` value are all fixed. -/
theorem phase_masked (p : BitVec 3) : p.toNat &&& 7 = p.toNat := by
  revert p; decide

theorem nop : Statement .nop := fun r => commandWord_masked r 0#2
theorem encode : Statement .encode := fun r => commandWord_masked r 1#2
theorem decode : Statement .decode := fun r => commandWord_masked r 2#2
theorem illegal : Statement .illegal := fun r => commandWord_masked r 3#2
theorem idle : Statement .idle := fun _ => phase_masked 0#3
theorem encLoad : Statement .encLoad := fun _ => phase_masked 1#3
theorem encSlot : Statement .encSlot := fun _ => phase_masked 2#3
theorem encStore : Statement .encStore := fun _ => phase_masked 3#3
theorem decLoad : Statement .decLoad := fun _ => phase_masked 4#3
theorem decSlot : Statement .decSlot := fun _ => phase_masked 5#3

end Sys2Proof.Laws.EncodesItsRow
end

