-- ==== Sys2Proof/Laws/Runs.lean ====
section
/-! SUPPORT. Runs of the block alone, one step at a time, for proofs by induction over a run. -/

namespace Sys2Proof.Machine

theorem runSteps_zero (s : State) : runSteps 0 s = .next s := rfl

/-- A run of one more step from a step that goes on. -/
theorem runSteps_succ {s t : State} (h : step s = .next t) (k : Nat) : runSteps (k + 1) s = runSteps k t := by
  have hc : Host.Core.step Sys2Proof.core s = .next t := h
  unfold runSteps
  simp only [Host.Core.run, hc]
  rfl

/-- A run that ends at once. -/
theorem endsAfter_zero {s : State} (h : busy s = false) : endsAfter 0 s s :=
  ⟨rfl, h, fun k hk => absurd hk (Nat.not_lt_zero k)⟩

/-- A run that ends after one more step. -/
theorem endsAfter_succ {s t u : State} {n : Nat} (hb : busy s = true) (h : step s = .next t)
    (ht : endsAfter n t u) : endsAfter (n + 1) s u := by
  obtain ⟨hrun, hidle, hbusy⟩ := ht
  refine ⟨by rw [runSteps_succ h]; exact hrun, hidle, fun k hk => ?_⟩
  cases k with
  | zero => exact ⟨s, rfl, hb⟩
  | succ k =>
    rw [runSteps_succ h]
    exact hbusy k (by omega)

end Sys2Proof.Machine
end

