-- ==== Sys2Proof/Tests/Slice0.lean ====
section
/-! SUPPORT. Tests of the model on single steps and single words, their expected results taken from
spec/95_test_vectors.md (named at each), and a concrete case that meets the hypotheses of each obligation that has some. -/

namespace Sys2Proof.Tests

open Sys2Proof Sys2Proof.Machine

/-! ## Builders -/

/-- The table `GRID_EXPAND(w) = 257·w` of the vectors' 8-bit carriers (20_memory.md R54). -/
def expand257 : Vector Half 256 :=
  ⟨((List.range 256).map fun w => BitVec.ofNat 16 (257 * w)).toArray, by simp⟩

/-- Open parameters of a test. -/
def paramsOf (msgDepth obufDepth : Fin (maxDepth + 1)) : Params := ⟨msgDepth, obufDepth, expand257⟩

/-- A pixel as four 16-bit values. -/
def px (r g b a : Nat) : Quad Half :=
  ⟨BitVec.ofNat 16 r, BitVec.ofNat 16 g, BitVec.ofNat 16 b, BitVec.ofNat 16 a⟩

/-- A pixel of an 8-bit carrier, read as `257·w`. -/
def px257 (r g b a : Nat) : Quad Half := px (257 * r) (257 * g) (257 * b) (257 * a)

/-- A grid of one row. -/
def rowGrid (writable : Bool) (ps : List (Quad Half)) : Grid :=
  attachGrid (BitVec.ofNat 16 ps.length) 1#16 writable
    (ps.zipIdx.map fun e => ⟨BitVec.ofNat 16 e.2, 0#16, e.1⟩)

/-- The first row of grid Q of program P1. -/
def rowQ (writable : Bool) : Grid :=
  rowGrid writable [px257 0 255 10 255, px257 1 2 3 128, px257 254 255 0 0]

/-- A system with that grid and that block, idle host, and buffers of 8 entries. -/
def withBlock (g : Grid) (b : Block) : State where
  block := b
  grid := g
  params := paramsOf 8 8
  host := ⟨[], 0, []⟩
  agenda := []
  resets := 0
  draws := 0

/-- The message "ab" in a block otherwise at reset. -/
def blockAb : Block := { Block.reset with msgLen := 2#32, msg := [(0, 0x61#32), (1, 0x62#32)] }

/-- Whether a step goes on to a state of which `p` holds. -/
def goesTo (o : Host.Outcome State Fault Refusal) (p : State → Bool) : Bool :=
  match o with
  | .next t => p t
  | .fault _ => false
  | .refused _ => false

/-- Whether a step stops with that fault. -/
def faultsWith (f : Fault) : Host.Outcome State Fault Refusal → Bool
  | .next _ => false
  | .fault g => decide (g = f)
  | .refused _ => false

/-- Whether a step is refused so. -/
def refusedAs (r : Refusal) : Host.Outcome State Fault Refusal → Bool
  | .next _ => false
  | .fault _ => false
  | .refused q => decide (q = r)

/-! ## Well-formedness: an ill-formed term for each check, and a well-formed one -/

theorem test_wf_phase_6_refused : (CodeWord.phase 6#3).wf = false ∧ (CodeWord.phase 5#3).wf = true := by decide
theorem test_wf_phase_7_refused : (CodeWord.phase 7#3).wf = false := by decide
theorem test_wf_command_any : (CodeWord.command 0xFFFFFFFF#32).wf = true := by decide
theorem test_wf_misaligned_write_refused :
    (HostOp.write 2#32 4 0#32).wf = false ∧ (HostOp.write 4#32 4 0#32).wf = true := by decide
theorem test_wf_narrow_write_refused : (HostOp.write 4#32 1 0#32).wf = false := by decide
theorem test_wf_misaligned_read_refused : (HostOp.read 1#32 4 0).wf = false := by decide
theorem test_wf_narrow_read_refused : (HostOp.read 4#32 2 0).wf = false := by decide
theorem test_wf_bad_access_in_program_refused : hostProgramWf [.read 1#32 4 0] = false := by decide
theorem test_wf_duplicate_label_refused : hostProgramWf [.label 0, .label 0] = false := by decide
theorem test_wf_missing_label_refused :
    hostProgramWf [r32 4#32 0, .bnz 0 1#32 7] = false := by decide
theorem test_wf_unread_name_refused :
    hostProgramWf [.label 7, .bnz 0 1#32 7, r32 4#32 0] = false := by decide
theorem test_wf_wait_done : hostProgramWf (waitDone 0 0) = true := by decide

/-! ## Decoding: each row's word written out from 30_encoding.md R80, R81, R84 -/

/-- The four command codes in bits [1:0], reserved bits 0 and, for the last, all ones. -/
theorem test_decode_commands :
    decodeTableWord 32 0b00000000000000000000000000000000 = some .nop ∧
    decodeTableWord 32 0b00000000000000000000000000000001 = some .encode ∧
    decodeTableWord 32 0b00000000000000000000000000000010 = some .decode ∧
    decodeTableWord 32 0b11111111111111111111111111111111 = some .illegal := by decide

/-- The six values of `PHASE`. -/
theorem test_decode_phases :
    decodeTableWord 8 0b000 = some .idle ∧ decodeTableWord 8 0b001 = some .encLoad ∧
    decodeTableWord 8 0b010 = some .encSlot ∧ decodeTableWord 8 0b011 = some .encStore ∧
    decodeTableWord 8 0b100 = some .decLoad ∧ decodeTableWord 8 0b101 = some .decSlot := by decide

/-- What is no instruction: the reserved phases, a byte wider than `PHASE`, and other lengths. -/
theorem test_decode_rejects :
    (decode (.phase 6#3)).toOption = none ∧ (decode (.phase 7#3)).toOption = none ∧
    (decodeBytes [8#8]).toOption = none ∧ (decodeBytes []).toOption = none ∧
    (decodeBytes [0#8, 0#8]).toOption = none := by decide

/-- The encoder writes the table's words. -/
theorem test_encode_words :
    codeBytes (encode .encode) = [1#8, 0#8, 0#8, 0#8] ∧ codeBytes (encode .decode) = [2#8, 0#8, 0#8, 0#8] ∧
    codeBytes (encode .decSlot) = [5#8] := by decide

/-! ## Commands (vectors V-CMD) -/

/-- 40_control.md R101, its example: a NOP leaves `STATUS = 0x2`. -/
theorem test_nop_keeps_status :
    goesTo (acceptCommand 0#32 (withBlock (rowQ false) { Block.reset with done := true }))
      (fun t => decide (statusWord t = 0x2#32)) = true := by decide

/-- V-CMD-2. -/
theorem test_illegal_unwritable :
    goesTo (acceptCommand 0xFFFFFFFF#32 (withBlock (rowQ false) { Block.reset with nbits := 9#32 }))
      (fun t => decide (statusWord t = 0x42#32 ∧ t.block.nbits = 0#32)) = true := by decide

/-- V-CMD-3. -/
theorem test_illegal_writable :
    goesTo (acceptCommand 7#32 (withBlock (rowQ true) Block.reset))
      (fun t => decide (statusWord t = 0x46#32)) = true := by decide

/-- V-CMD-7: writability is checked before the length. -/
theorem test_encode_unwritable_first :
    goesTo (exec .encode { withBlock (rowQ false) { Block.reset with msgLen := 5#32 } with params := paramsOf 0 0 })
      (fun t => decide (statusWord t = 0x12#32)) = true := by decide

/-- Program P4: `NB = 16` in a carrier of 12 slots. -/
theorem test_encode_capacity :
    goesTo (exec .encode (withBlock (attachGrid 2#16 2#16 true []) { Block.reset with msgLen := 1#32 }))
      (fun t => decide (statusWord t = 0x26#32)) = true := by decide

/-- V-CMD-8. -/
theorem test_decode_empty_grid :
    goesTo (exec .decode (withBlock (attachGrid 0#16 5#16 true []) { Block.reset with outLen := 3#32 }))
      (fun t => decide (statusWord t = 0x36#32 ∧ t.block.outLen = 0#32)) = true := by decide

/-- V-CMD-10: a command while busy is ignored, and so are writes of `MSG` and `MSG_LEN`. -/
theorem test_busy_ignores_writes :
    goesTo (memWrite 0#32 4 2#32 (withBlock (rowQ true) { blockAb with phase := phaseEncLoad }))
      (fun t => decide (t.block = { blockAb with phase := phaseEncLoad })) = true ∧
    goesTo (memWrite 0x01000000#32 4 0x7A#32 (withBlock (rowQ true) { blockAb with phase := phaseEncLoad }))
      (fun t => decide (t.block = { blockAb with phase := phaseEncLoad })) = true := by decide

/-- V-CMD-11: `CTRL` and addresses with no register read 0. -/
theorem test_unmapped_reads_zero :
    (readReg (withBlock (rowQ true) blockAb) (regAt (paramsOf 8 8) 0x00#32)).1 = 0#32 ∧
    regAt (paramsOf 8 8) 0x24#32 = .unmapped ∧ regAt (paramsOf 8 8) 0x03000000#32 = .unmapped := by decide

/-! ## Operand functions (vectors V-SER, V-TRV, the parity-toggle table) -/

/-- V-SER-2: "ab" as its 24 stream bits. -/
theorem test_stream_ab :
    (List.range 24).map (streamBit blockAb) =
      [0, 1, 1, 0, 0, 0, 0, 1, 0, 1, 1, 0, 0, 0, 1, 0, 0, 0, 0, 0, 0, 0, 0, 0].map
        (fun b : Nat => some (decide (b = 1))) := by decide

/-- The parity-toggle table's clamp rows 0x0000 and 0xFFFF, and 0x00FF, whose step shows as 0x00 in the byte. -/
theorem test_toggle_edges :
    toggle 0x0000#16 true = -1 ∧ embedByte 0x0000#16 true = 0xFF#8 ∧
    toggle 0xFFFF#16 false = 0xFFFE ∧ embedByte 0xFFFF#16 false = 0xFE#8 ∧
    toggle 0x00FF#16 false = 0x0100 ∧ embedByte 0x00FF#16 false = 0x00#8 := by decide

/-- V-TRV-1: the end of a row of three. -/
theorem test_advance_row_end :
    let t := advance (withBlock (rowQ true) { Block.reset with x := 2#16 })
    t.block.x = 0#16 ∧ t.block.y = 1#16 := by decide

/-! ## Encode micro-operations (vectors V-EMB) -/

/-- V-EMB-1. -/
theorem test_encLoad_first_pixel :
    goesTo (exec .encLoad (withBlock (rowQ true) { blockAb with phase := phaseEncLoad, ch := 2#2 }))
      (fun t => decide (t.block.inp = px 0 0xFFFF 0x0A0A 0xFFFF ∧ t.block.o8 = ⟨0x00#8, 0xFF#8, 0x0A#8, 0xFF#8⟩ ∧
        t.block.ch = 0#2 ∧ t.block.phase = phaseEncSlot)) = true := by decide

/-- V-EMB-2, its third slot. -/
theorem test_encSlot_third_slot :
    goesTo (exec .encSlot (withBlock (rowQ true) { blockAb with
        phase := phaseEncSlot, ch := 2#2, nbits := 2#32, inp := px 0 0xFFFF 0x0A0A 0xFFFF
        o8 := ⟨0x00#8, 0xFF#8, 0x0A#8, 0xFF#8⟩ }))
      (fun t => decide (t.block.o8 = ⟨0x00#8, 0xFF#8, 0x0B#8, 0xFF#8⟩ ∧ t.block.phase = phaseEncStore ∧
        t.block.ch = 2#2 ∧ t.block.nbits = 3#32)) = true := by decide

/-- V-EMB-4: the last bit of the empty message leaves B and alpha as read. -/
theorem test_encSlot_stream_end :
    goesTo (exec .encSlot (withBlock (rowGrid true [px 0 0 0 0, px 0 0 0 0, px 11 13 15 17]) { Block.reset with
        phase := phaseEncSlot, x := 2#16, ch := 1#2, nbits := 7#32, inp := px 11 13 15 17
        o8 := ⟨12#8, 13#8, 15#8, 17#8⟩ }))
      (fun t => decide (t.block.o8 = ⟨12#8, 14#8, 15#8, 17#8⟩ ∧ t.block.phase = phaseEncStore ∧
        t.block.ch = 1#2 ∧ t.block.nbits = 8#32)) = true := by decide

/-- V-EMB-3. -/
theorem test_encStore_first_pixel :
    goesTo (exec .encStore (withBlock (rowQ true) { blockAb with
        phase := phaseEncStore, ch := 2#2, nbits := 3#32, o8 := ⟨0#8, 255#8, 11#8, 255#8⟩ }))
      (fun t => decide (storedAt t.grid.pixels (pixelKey 0#16 0#16) = .written ⟨0#8, 255#8, 11#8, 255#8⟩ ∧
        pixelAt t 1#16 0#16 = px257 1 2 3 128 ∧ t.block.x = 1#16 ∧ t.block.y = 0#16 ∧
        t.block.phase = phaseEncLoad)) = true := by decide

/-- V-EMB-6, its last store: the end of a stream that fills the carrier. -/
theorem test_encStore_last_pixel :
    goesTo (exec .encStore (withBlock (rowGrid true (List.replicate 8 (px 1 1 1 1))) { blockAb with
        phase := phaseEncStore, x := 7#16, ch := 2#2, nbits := 24#32, o8 := ⟨2#8, 2#8, 2#8, 1#8⟩ }))
      (fun t => decide (t.block.x = 0#16 ∧ t.block.y = 1#16 ∧ statusWord t = 0x2006#32 ∧
        t.block.nbits = 24#32)) = true := by decide

/-- 10_state.md R39: a `MSG` entry not written since reset. -/
theorem test_encSlot_unwritten :
    faultsWith .msgUnwritten (exec .encSlot (withBlock (rowQ true) { Block.reset with
      phase := phaseEncSlot, msgLen := 1#32 })) = true := by decide

/-! ## Decode micro-operations (vectors V-SCN) and IDLE -/

/-- 44_scanner.md R160, at the last pixel of the row. -/
theorem test_decLoad_last_pixel :
    goesTo (exec .decLoad (withBlock (rowQ false) { Block.reset with phase := phaseDecLoad, x := 2#16, ch := 2#2 }))
      (fun t => decide (t.block.inp = px257 254 255 0 0 ∧ t.block.ch = 0#2 ∧ t.block.phase = phaseDecSlot)) = true := by
  decide

/-- V-SCN-1, bit 23: the terminator across a character boundary. -/
theorem test_decSlot_unaligned_terminator :
    goesTo (exec .decSlot (withBlock (attachGrid 3#16 3#16 true []) { Block.reset with
        phase := phaseDecSlot, x := 1#16, y := 2#16, ch := 1#2, nbits := 22#32, sr := 0x80#8
        inp := px257 34 34 36 4, obuf := [(0, 0x61#8), (1, 0x62#8)] }))
      (fun t => decide (statusWord t = 0x1006#32 ∧ t.block.nbits = 23#32 ∧ t.block.outLen = 2#32 ∧
        t.block.sr = 0#8 ∧ t.block.x = 1#16 ∧ t.block.y = 2#16)) = true := by decide

/-- V-SCN-4: character 0 with no room for it. -/
theorem test_decSlot_overflow :
    goesTo (exec .decSlot { withBlock (rowGrid true (List.replicate 3 (px 2 4 6 8))) { Block.reset with
        phase := phaseDecSlot, x := 2#16, ch := 1#2, nbits := 7#32, inp := px 2 4 6 8 } with
        params := paramsOf 0 0 })
      (fun t => decide (statusWord t = 0x1066#32 ∧ t.block.nbits = 0#32 ∧ t.block.outLen = 0#32)) = true := by decide

/-- 60_exceptions.md R214. -/
theorem test_idle_keeps_state :
    goesTo (blockTurn (withBlock (rowQ true) blockAb)) (fun t => decide (t.block = blockAb)) = true := by decide

/-! ## Faults, refusals and the fixed names -/

theorem test_grid_faults :
    faultsWith .gridOutOfBounds (exec .encLoad (withBlock (rowQ true) { Block.reset with x := 3#16 })) = true ∧
    faultsWith .gridNotWritable (exec .encStore (withBlock (rowQ false) Block.reset)) = true := by decide

theorem test_reserved_phase_faults :
    faultsWith .phaseReserved (blockTurn (withBlock (rowQ true) { Block.reset with phase := 6#3 })) = true := by decide

theorem test_misaligned_refused :
    refusedAs .busAccess (memWrite 2#32 4 0#32 (withBlock (rowQ true) Block.reset)) = true := by decide

/-- A command word and a `PHASE` value placed by withFetchWord are what the next step runs. -/
theorem test_withFetchWord_runs :
    goesTo (step (State.reset.withFetchWord 32 0xFFFFFFFF)) (fun t => decide (t.block.result = 4#4)) = true ∧
    goesTo (step (State.reset.withFetchWord 8 4)) (fun t => decide (t.block.phase = phaseDecSlot)) = true := by decide

/-- `MSG` is the window's word at its index, and a written entry reads back. -/
theorem test_msg_write_reads_back :
    goesTo (memWrite 0x01000004#32 4 0x1F600#32 (withBlock (rowQ true) blockAb))
      (fun t => decide ((readReg t (.msg 1)).1 = 0x1F600#32 ∧ (readReg t (.msg 0)).1 = 0x61#32)) = true := by decide

/-- Writing what an unlisted pixel holds takes the entry out. -/
theorem test_store_canonical :
    storePixel [(5, .written ⟨1#8, 1#8, 1#8, 1#8⟩)] 5 unlistedPixel = [] ∧
    Memory.wf (rowQ true).pixels = true := by decide

/-! # Witnesses

For each obligation with hypotheses, a concrete state and operands that meet them, clause by clause, at the ends of their
ranges; the name of each theorem is the obligation's. -/

/-- A busy block in the middle of nothing: only `PHASE` is not at reset. -/
def inPhase (p : BitVec 3) : State := withBlock (rowQ true) { blockAb with phase := p }

/-- That system with that agenda. -/
def scheduled (agenda : List Event) (s : State) : State := { s with agenda := agenda }

/-- That system with that host program, at that line. -/
def running (prog : List HostOp) (pc : Nat) (s : State) : State := { s with host := ⟨prog, pc, [(0, 1#32)]⟩ }

/-! ## Encoding and agents -/

theorem witness_CommandSelectedByLowTwoBits :
    (0xFFFFFFFC#32).toNat % 4 = 0 ∧ (1#32).toNat % 4 = 1 ∧ (0x80000002#32).toNat % 4 = 2 ∧
    (0xFFFFFFFF#32).toNat % 4 = 3 ∧ busy (inPhase 1#3) = true := by decide

theorem witness_DecodingUndoesEncoding : (decode (.phase 5#3)).toOption = some .decSlot := by decide

theorem witness_BlockTurnRunsThePhase :
    ((scheduled [.block, .host] (inPhase 5#3)).agenda = [.block, .host] ∧
      (decode (.phase (inPhase 5#3).block.phase)).toOption = some .decSlot) ∧
    ((inPhase 1#3).agenda = [] ∧ (inPhase 1#3).block.phase ≠ 0#3 ∧
      (decode (.phase (inPhase 1#3).block.phase)).toOption = some .encLoad) ∧
    ((scheduled [.block] (inPhase 6#3)).agenda = [.block] ∧ 6 ≤ (inPhase 6#3).block.phase.toNat) ∧
    ((inPhase 7#3).agenda = [] ∧ 6 ≤ (inPhase 7#3).block.phase.toNat) := by decide

theorem witness_ControlWritePerformsItsCommand :
    let at' (p : BitVec 3) (v : Word) := scheduled [.host] (running [.write 0#32 4 v] 0 (inPhase p))
    (at' 0#3 4#32).agenda = [.host] ∧
    (at' 0#3 4#32).host.prog[(at' 0#3 4#32).host.pc]? = some (.write 0#32 4 4#32) ∧
    (at' 5#3 4#32).block.phase ≠ 0#3 ∧ (at' 0#3 4#32).block.phase = 0#3 ∧
    (4#32).toNat % 4 = 0 ∧ (0xFFFFFFFD#32).toNat % 4 = 1 ∧ (2#32).toNat % 4 = 2 ∧ (7#32).toNat % 4 = 3 := by decide

/-! ## Commands: each clause, and the two sides of each bound -/

theorem witness_EncodeAcceptance :
    (withBlock (rowQ false) blockAb).grid.writable = false ∧
    ((withBlock (rowQ true) { blockAb with msgLen := 9#32 }).grid.writable = true ∧
      (paramsOf 8 8).msgDepth.val < (9#32).toNat) ∧
    ((withBlock (rowQ true) { blockAb with msgLen := 8#32 }).block.msgLen.toNat ≤ (paramsOf 8 8).msgDepth.val ∧
      3 * (rowQ true).w.toNat * (rowQ true).h.toNat < 8 * ((8#32).toNat + 1)) ∧
    (8 * (blockAb.msgLen.toNat + 1) ≤
      3 * (rowGrid true (List.replicate 8 (px 1 1 1 1))).w.toNat *
        (rowGrid true (List.replicate 8 (px 1 1 1 1))).h.toNat) := by decide

theorem witness_DecodeAcceptance :
    (attachGrid 0#16 5#16 true []).w = 0#16 ∧ (attachGrid 5#16 0#16 true []).h = 0#16 ∧
    (attachGrid 1#16 1#16 true []).w ≠ 0#16 ∧ (attachGrid 1#16 1#16 true []).h ≠ 0#16 := by decide

theorem witness_NopChangesNothing : (0xFFFFFFFC#32).toNat % 4 = 0 ∧ (0#32).toNat % 4 = 0 := by decide

theorem witness_IllegalCommandReports : (7#32).toNat % 4 = 3 ∧ (inPhase 5#3).block.phase ≠ 0#3 := by decide

/-! ## Micro-operations -/

/-- At the last pixel of the row. -/
def atLastPixel : State :=
  withBlock (rowQ true) { blockAb with x := 2#16, ch := 2#2, nbits := 23#32 }

/-- At the first pixel of the row. -/
def atFirstPixel : State := withBlock (rowQ true) { blockAb with nbits := 3#32 }

theorem witness_EncLoadLatchesThePixel :
    atLastPixel.block.x.toNat < atLastPixel.grid.w.toNat ∧ atLastPixel.block.y.toNat < atLastPixel.grid.h.toNat ∧
    atFirstPixel.block.x.toNat < atFirstPixel.grid.w.toNat := by decide

theorem witness_EncSlotEmbedsOneBit :
    (streamBit atLastPixel.block atLastPixel.block.nbits.toNat = some false ∧
      (atLastPixel.block.nbits + 1#32).toNat = 8 * (atLastPixel.block.msgLen.toNat + 1)) ∧
    (streamBit blockAb 2 = some true ∧ ({ blockAb with ch := 2#2, nbits := 2#32 } : Block).ch = 2#2) ∧
    (streamBit blockAb 3 = some false ∧ (3#32 + 1#32).toNat ≠ 8 * (blockAb.msgLen.toNat + 1) ∧ blockAb.ch ≠ 2#2) := by
  decide

theorem witness_UnwrittenMessageFaults :
    (15 < 8 * blockAb.msgLen.toNat ∧
      lookupAt (15 / 8) ({ blockAb with msg := [(0, 0x61#32)] } : Block).msg = none) ∧
    (15 < 8 * blockAb.msgLen.toNat ∧ lookupAt (15 / 8) blockAb.msg = some 0x62#32) ∧
    8 * blockAb.msgLen.toNat ≤ 16 := by decide

theorem witness_EncStoreWritesThePixel :
    (atLastPixel.block.x.toNat < atLastPixel.grid.w.toNat ∧ atLastPixel.block.y.toNat < atLastPixel.grid.h.toNat ∧
      atLastPixel.grid.writable = true ∧ atLastPixel.block.x + 1#16 = atLastPixel.grid.w ∧
      ({ atLastPixel.block with nbits := 24#32 } : Block).nbits.toNat = 8 * (blockAb.msgLen.toNat + 1)) ∧
    (atFirstPixel.block.x + 1#16 ≠ atFirstPixel.grid.w ∧
      atFirstPixel.block.nbits.toNat ≠ 8 * (blockAb.msgLen.toNat + 1)) := by decide

theorem witness_StoredPixelReadsBackExpanded :
    goesTo (exec .encStore atFirstPixel) (fun _ => true) = true ∧ (1#16 : Half) ≠ atFirstPixel.block.x := by decide

theorem witness_GridAccessOutsideTheRulesFaults :
    ((rowQ true).w.toNat ≤ (3#16 : Half).toNat ∧ (rowQ true).h.toNat ≤ (1#16 : Half).toNat) ∧
    ((2#16 : Half).toNat < (rowQ false).w.toNat ∧ (0#16 : Half).toNat < (rowQ false).h.toNat ∧
      (rowQ false).writable = false) := by decide

theorem witness_DecLoadLatchesThePixel :
    atLastPixel.block.x.toNat < atLastPixel.grid.w.toNat ∧
    atLastPixel.block.y.toNat < atLastPixel.grid.h.toNat := by decide

/-- The clauses of DEC_SLOT in turn: overflow at character 8; the terminator as bit 23 and as bit 8; the next slot; the
next pixel; the end of the grid. -/
theorem witness_DecSlotScansOneBit :
    ((72#32).toNat % 8 = 0 ∧ (paramsOf 8 8).obufDepth.val ≤ (72#32).toNat / 8 - 1) ∧
    (¬ ((64#32).toNat % 8 = 0 ∧ (paramsOf 8 8).obufDepth.val ≤ (64#32).toNat / 8 - 1) ∧ 8 ≤ (64#32).toNat) ∧
    (BitVec.ofNat 8 ((2 * (0x80#8).toNat + (2#16 : Half).toNat % 2) % 256) = 0#8 ∧ 8 ≤ (8#32).toNat ∧
      (7#32 + 1#32).toNat ≠ 0) ∧
    (¬ (BitVec.ofNat 8 ((2 * (0#8).toNat + (2#16 : Half).toNat % 2) % 256) = 0#8 ∧ 8 ≤ (7#32).toNat) ∧
      (1#2).toNat < 2 ∧ 2 ≤ (2#2).toNat) ∧
    ((1#16 : Half) + 1#16 ≠ (rowQ true).w ∧ (0#16 : Half) ≠ (rowQ true).h) ∧
    ((2#16 : Half) + 1#16 = (rowQ true).w ∧ (0#16 : Half) + 1#16 = (rowQ true).h) := by decide

/-- A state in the middle of a scan, at a bit that stops nothing. -/
def midScan : State :=
  withBlock (rowQ true) { blockAb with phase := phaseDecSlot, nbits := 1#32, ch := 1#2, inp := px257 0 255 10 255 }

theorem witness_OnlyEncStoreWritesTheGrid :
    goesTo (exec .encStore atFirstPixel) (fun _ => true) = true ∧
    goesTo (exec .decSlot midScan) (fun _ => true) = true := by decide

theorem witness_BlockNeverWritesTheMessage : goesTo (exec .encStore atLastPixel) (fun _ => true) = true := by decide

theorem witness_OutLenWrittenOnlyByDecode :
    goesTo (exec .decode atFirstPixel) (fun _ => true) = true ∧
    goesTo (exec .encLoad atFirstPixel) (fun _ => true) = true ∧
    goesTo (exec .decSlot midScan)
      (fun t => decide (midScan.block.phase = 5#3 ∧ ¬ (t.block.phase = 0#3 ∧ t.block.result = 0#4))) = true ∧
    goesTo (exec .decSlot { midScan with block := { midScan.block with
        nbits := 22#32, sr := 0x80#8, inp := px 0 0 0 0 } })
      (fun t => decide (t.block.phase = 0#3 ∧ t.block.result = 0#4)) = true ∧
    goesTo (memWrite 8#32 4 5#32 atFirstPixel) (fun _ => true) = true := by decide

theorem witness_FlagsWrittenOnlyAtStartAndEnd :
    goesTo (exec .encode atFirstPixel) (fun _ => true) = true ∧
    goesTo (exec .illegal atFirstPixel) (fun t => t.block.done) = true ∧
    goesTo (exec .decSlot midScan) (fun _ => true) = true := by decide

/-! ## Functions -/

theorem witness_ToggleMakesTheseComparisons :
    ((65535#16 : Half).toNat % 2 = 1 ∧ (65535#16 : Half).toNat = 65535) ∧
    ((65533#16 : Half).toNat % 2 = 1 ∧ (65533#16 : Half).toNat ≠ 65535) ∧ (0#16 : Half).toNat % 2 = 0 ∧
    (0#16 : Half).toNat = 0 ∧ ((2#16 : Half).toNat % 2 = 0 ∧ (2#16 : Half).toNat ≠ 0) ∧
    (1#16 : Half).toNat % 2 = 1 := by decide

theorem witness_ToggleMovesByAtMostOne :
    (65535#16 : Half).toNat % 2 = true.toNat ∧ (65535#16 : Half).toNat % 2 ≠ false.toNat := by decide

theorem witness_StreamIsMessageThenTerminator :
    ∀ j, j < blockAb.msgLen.toNat →
      lookupAt j blockAb.msg = some ((fun j : Nat => if j = 0 then 0x61#32 else 0x62#32) j) := by decide

theorem witness_StreamMasksCodeUnits :
    (blockAb.msgLen = ({ blockAb with msg := [(0, 0x161#32), (1, 0x62#32)] } : Block).msgLen ∧
      (0x161#32).toNat % 256 = (0x61#32).toNat % 256) ∧
    lookupAt (15 / 8) blockAb.msg = some 0x62#32 ∧ Block.reset.msgLen = 0#32 := by decide

theorem witness_AdvanceIsRasterOrder :
    atLastPixel.block.x.toNat < atLastPixel.grid.w.toNat ∧ atLastPixel.block.y.toNat < atLastPixel.grid.h.toNat ∧
    atFirstPixel.block.x.toNat < atFirstPixel.grid.w.toNat := by decide

/-- Bit 23 of program P2: the run of zeros starts inside the character 0x62. -/
theorem witness_TerminatorTestsAgree : firstTerminator (streamBitOr blockAb) 23 := by
  unfold firstTerminator endsInTerminator; decide

/-! ## The register space -/

theorem witness_RegisterReads :
    (1 < (paramsOf 8 8).msgDepth.val ∧ lookupAt 1 blockAb.msg = some 0x62#32) ∧
    (7 < (paramsOf 8 8).obufDepth.val ∧
      7 < ({ blockAb with outLen := 8#32, obuf := [(7, 0x61#8)] } : Block).outLen.toNat ∧
      lookupAt 7 ({ blockAb with outLen := 8#32, obuf := [(7, 0x61#8)] } : Block).obuf = some 0x61#8) := by decide

/-- The ends of the holes: after the registers, before and after each window. -/
theorem witness_UnmappedReadsZero :
    [0x24#32, 0x00FFFFFC#32, 0x01000020#32, 0x01FFFFFC#32, 0x02000020#32, 0xFFFFFFFC#32].all fun addr => decide (
      addr.toNat % 4 = 0 ∧ 0x20 < addr.toNat ∧
      (addr.toNat < 0x01000000 ∨ 0x01000000 + 4 * (paramsOf 8 8).msgDepth.val ≤ addr.toNat) ∧
      (addr.toNat < 0x02000000 ∨ 0x02000000 + 4 * (paramsOf 8 8).obufDepth.val ≤ addr.toNat)) := by decide

theorem witness_UnspecifiedReadsAreFree :
    (7 < (paramsOf 8 8).obufDepth.val ∧ ({ blockAb with outLen := 7#32 } : Block).outLen.toNat ≤ 7) ∧
    (0 < (paramsOf 8 8).obufDepth.val ∧ midScan.block.outLen.toNat ≤ 0) ∧
    (7 < (paramsOf 8 8).msgDepth.val ∧ lookupAt 7 blockAb.msg = none) := by decide

theorem witness_ReadsChangeNothing : memRead 4#32 4 midScan = .ok (statusWord midScan, midScan) := rfl

theorem witness_MisalignedAccessRefused :
    (1 : Nat) ≠ 4 ∧ (2#32).toNat % 4 ≠ 0 := by decide

theorem witness_RegisterWrites :
    atFirstPixel.block.phase = 0#3 ∧ 7 < atFirstPixel.params.msgDepth.val ∧
    ((0x01000000#32).toNat % 4 = 0 ∧ midScan.block.phase ≠ 0#3) ∧
    ([0x04#32, 0x0C#32, 0x20#32, 0x24#32, 0x00FFFFFC#32, 0x01000020#32, 0x02000000#32].all fun addr => decide (
      addr.toNat % 4 = 0 ∧ addr ≠ 0x00#32 ∧ addr ≠ 0x08#32 ∧
      (addr.toNat < 0x01000000 ∨ 0x01000000 + 4 * (paramsOf 8 8).msgDepth.val ≤ addr.toNat))) := by decide

theorem witness_HostCannotDisturbABusyBlock :
    busy (running [.write 8#32 4 0#32] 0 midScan) = true ∧
    goesTo (hostTurn (running [.write 8#32 4 0#32] 0 midScan)) (fun _ => true) = true ∧
    goesTo (hostTurn (running [.write 0#32 4 1#32] 0 midScan)) (fun _ => true) = true := by decide

/-! ## Reset, the platform and the host's program -/

theorem witness_ResetGivesTheResetValues : (scheduled [.reset, .block] midScan).agenda = [.reset, .block] := rfl

theorem witness_GridTouchedWhileBusyRefused :
    (scheduled [.attach 1#16 1#16 true []] midScan).agenda = [.attach 1#16 1#16 true []] ∧
    midScan.block.phase ≠ 0#3 ∧ atFirstPixel.block.phase = 0#3 ∧
    (scheduled [.drain] midScan).agenda = [.drain] := by decide

theorem witness_AttachedGridReadsAsGiven :
    (rowQ true) = attachGrid 3#16 1#16 true
      [⟨0#16, 0#16, px257 0 255 10 255⟩, ⟨1#16, 0#16, px257 1 2 3 128⟩, ⟨2#16, 0#16, px257 254 255 0 0⟩] ∧
    (2#16 : Half).toNat < (3#16 : Half).toNat ∧ (0#16 : Half).toNat < (1#16 : Half).toNat := by decide

/-- `L: R32 STATUS -> n0; BNZ n0, 1, L`, the loop of a `WAIT_DONE`. -/
def pollLoop : List HostOp := waitDone 9 0

theorem witness_HostProgramOperations :
    ((running pollLoop 1 midScan).host.prog[1]? = some (.read 4#32 4 0) ∧ (4#32).toNat % 4 = 0 ∧
      memRead 4#32 4 (running pollLoop 1 midScan) =
        .ok (statusWord midScan, running pollLoop 1 midScan)) ∧
    (running pollLoop 0 midScan).host.prog[0]? = some (.label 9) ∧
    ((running pollLoop 2 midScan).host.prog[2]? = some (.bnz 0 1#32 9) ∧
      lookupAt 0 (running pollLoop 2 midScan).host.names = some 1#32 ∧ 1#32 &&& 1#32 ≠ 0#32 ∧ 2#32 &&& 1#32 = 0#32 ∧
      (∀ j, j < 0 → (running pollLoop 2 midScan).host.prog[j]? ≠ some (.label 9))) :=
  ⟨⟨by decide, by decide, rfl⟩, by decide, by decide⟩

theorem witness_SetMsgExpandsToItsWrites :
    ([0x61#32, 0x62#32] : List Word)[1]? = some 0x62#32 ∧ "ab" = String.ofList ['a', 'b'] ∧
    ['a', 'b'][1]? = some 'b' := ⟨by decide, rfl, by decide⟩

/-- 30_encoding.md R91 and the program P1 of 95_test_vectors.md: "ab" is the code units 0x61, 0x62. -/
theorem test_setMsgText : setMsgText "ab" =
    [.write 0x01000000#32 4 0x61#32, .write 0x01000004#32 4 0x62#32, .write 8#32 4 2#32] := by decide

/-- While a decode runs a read of `OUT[0]` is a draw, though `OBUF[0]` holds a character (10_state.md R39, log 6). -/
theorem test_out_read_while_decoding_is_a_draw :
    (memRead 0x02000000#32 4 { midScan with block := { midScan.block with nbits := 8#32, obuf := [(0, 0x61#8)] } }).toOption.map
      (fun r => r.2.draws) = some (midScan.draws + 1) := by decide

theorem witness_WaitDoneLoopsWhileBusy :
    (running ([.label 3] ++ pollLoop ++ [cmdNop]) 2 midScan).host.prog = [.label 3] ++ waitDone 9 0 ++ [cmdNop] ∧
    9 ∉ labelsOf [.label 3] ∧ (running ([.label 3] ++ pollLoop ++ [cmdNop]) 2 midScan).host.pc = 1 + 1 ∧
    midScan.block.phase ≠ 0#3 ∧ atFirstPixel.block.phase = 0#3 := by decide

/-! ## States that meet the invariant -/

/-- An idle block with a result, a text and a message: the state after some operation. -/
def idleState (g : Grid) (b : Block) : State :=
  withBlock g { b with done := true, outLen := 1#32, obuf := [(0, 0x61#8)] }

/-- V-SCN-5 after bit 8, before its last bit: an encode's carrier being scanned. -/
def scanning : State :=
  withBlock (rowGrid true [px 1 2 2 0, px 2 2 2 0, px 2 2 2 0]) { Block.reset with
    phase := phaseDecSlot, x := 2#16, ch := 2#2, nbits := 8#32, inp := px 2 2 2 0, sr := 0x80#8
    obuf := [(0, 0x80#8)] }

/-- The empty message being embedded, its first pixel ready to be stored. -/
def storing : State :=
  withBlock (rowGrid true [px 1 1 1 1, px 1 1 1 1, px 1 1 1 1]) { Block.reset with
    phase := phaseEncStore, ch := 2#2, nbits := 3#32, inp := px 1 1 1 1, o8 := ⟨2#8, 2#8, 2#8, 1#8⟩ }

/-- A message of one code unit never written, about to be read. -/
def unwritten : State :=
  withBlock (rowGrid true (List.replicate 6 (px 1 1 1 1))) { Block.reset with
    phase := phaseEncSlot, msgLen := 1#32, inp := px 1 1 1 1, o8 := ⟨1#8, 1#8, 1#8, 1#8⟩ }

theorem storage_of_check {s : State}
    (h : (Memory.wf s.grid.pixels && rising s.block.msg && keysBelow s.params.msgDepth.val s.block.msg &&
      rising s.block.obuf && keysBelow s.params.obufDepth.val s.block.obuf && rising s.host.names &&
      s.grid.pixels.all fun e => decide (e.1 / 65536 < s.grid.h.toNat ∧ e.1 % 65536 < s.grid.w.toNat)) = true) :
    StorageCanonical s := by
  simp only [Bool.and_eq_true, List.all_eq_true, decide_eq_true_eq] at h
  obtain ⟨⟨⟨⟨⟨⟨h1, h2⟩, h3⟩, h4⟩, h5⟩, h6⟩, h7⟩ := h
  exact ⟨h1, h7, h2, h3, h4, h5, h6⟩

theorem idle_not_encoding {s : State} (h : s.block.phase = phaseIdle) : ¬ encoding s := by
  unfold encoding
  rw [h]
  decide

theorem scanning_inv : Inv scanning where
  phaseLegal := by decide
  channelLegal := by decide
  resultLegal := by decide
  resultNeedsDone := by decide
  encode := fun h => absurd h (by unfold encoding; decide)
  decode := fun _ => {
    atPixel := ⟨by decide, by decide, by decide, by decide⟩
    loadCursor := by decide
    slotCursor := by decide
    latched := by decide
    noOutput := by decide
    fitsOutput := by decide
    shiftRegister := by decide
    characters := by decide
    noTerminator := by unfold endsInTerminator; decide }
  output := by decide
  storage := storage_of_check (by decide)

theorem storing_inv : Inv storing where
  phaseLegal := by decide
  channelLegal := by decide
  resultLegal := by decide
  resultNeedsDone := by decide
  encode := fun _ => {
    atPixel := ⟨by decide, by decide, by decide, by decide⟩
    writable := by decide
    lengthFits := by decide
    streamFits := by decide
    loadCursor := by decide
    slotCursor := by decide
    storeCursor := by decide
    latched := by decide
    workingCopy := by decide
    bitsWritten := by decide }
  decode := fun h => absurd h (by decide)
  output := by decide
  storage := storage_of_check (by decide)

theorem unwritten_inv : Inv unwritten where
  phaseLegal := by decide
  channelLegal := by decide
  resultLegal := by decide
  resultNeedsDone := by decide
  encode := fun _ => {
    atPixel := ⟨by decide, by decide, by decide, by decide⟩
    writable := by decide
    lengthFits := by decide
    streamFits := by decide
    loadCursor := by decide
    slotCursor := by decide
    storeCursor := by decide
    latched := by decide
    workingCopy := by decide
    bitsWritten := by decide }
  decode := fun h => absurd h (by decide)
  output := by decide
  storage := storage_of_check (by decide)

theorem idle_inv {s : State} (h : s.block.phase = phaseIdle) (hc : s.block.ch.toNat ≤ 2)
    (hr : s.block.result.toNat ≤ 6) (hd : s.block.done = false → s.block.result = 0#4)
    (ho : ∀ i, i < s.block.outLen.toNat → (lookupAt i s.block.obuf).isSome = true)
    (hs : StorageCanonical s) : Inv s where
  phaseLegal := by rw [h]; decide
  channelLegal := hc
  resultLegal := hr
  resultNeedsDone := hd
  encode := fun he => absurd he (idle_not_encoding h)
  decode := fun he => by
    unfold decoding at he
    rw [h] at he
    exact absurd he (by decide)
  output := ho
  storage := hs

theorem witness_ProgressReadsWhileDecoding :
    Inv scanning ∧ scanning.block.phase = 5#3 ∧ 0 < scanning.block.nbits.toNat / 8 :=
  ⟨scanning_inv, by decide, by decide⟩

theorem witness_EveryStepKeepsTheInvariant :
    (Inv scanning ∧ goesTo (step scanning) (fun _ => true) = true) ∧
    (Inv storing ∧ goesTo (step storing) (fun _ => true) = true) :=
  ⟨⟨scanning_inv, by decide⟩, storing_inv, by decide⟩

theorem witness_TransactionsStayInTheGrid :
    Inv storing ∧ (decode (.phase storing.block.phase)).toOption = some .encStore ∧
    goesTo (exec .encStore storing) (fun t =>
      decide (storedAt t.grid.pixels (pixelKey 0#16 0#16) ≠ storedAt storing.grid.pixels (pixelKey 0#16 0#16))) = true ∧
    storedAt [(pixelKey 0#16 0#16, .carrier (px 1 1 1 1))] (pixelKey storing.block.x storing.block.y) =
      storedAt storing.grid.pixels (pixelKey storing.block.x storing.block.y) :=
  ⟨storing_inv, by decide, by decide, by decide⟩

theorem witness_InvariantGivesTheListedOnes :
    (Inv scanning ∧ scanning.block.phase = 5#3 ∧ 7 < min scanning.block.nbits.toNat 8 ∧
      0 < scanning.block.nbits.toNat / 8) ∧
    (Inv storing ∧ storing.block.phase = 3#3) ∧ (Inv unwritten ∧ unwritten.block.phase = 2#3) :=
  ⟨⟨scanning_inv, by decide, by decide, by decide⟩, ⟨storing_inv, by decide⟩, unwritten_inv, by decide⟩

theorem witness_OnlyAnUnwrittenMessageFaults :
    Inv unwritten ∧ faultsWith .msgUnwritten (step unwritten) = true :=
  ⟨unwritten_inv, by decide⟩

/-! ## Whole operations -/

/-- Idle, about to encode "ab" into a carrier it fills exactly (V-EMB-6). -/
def readyAb : State := idleState (rowGrid true (List.replicate 8 (px 1 1 1 1))) blockAb

theorem readyAb_inv : Inv readyAb :=
  idle_inv (by decide) (by decide) (by decide) (by decide) (by decide) (storage_of_check (by decide))

theorem witness_EncodeWritesTheStream :
    Inv readyAb ∧ busy readyAb = false ∧ readyAb.agenda = [] ∧ messageWritten readyAb.block ∧
    goesTo (exec .encode readyAb) busy = true :=
  ⟨readyAb_inv, by decide, by decide, by unfold messageWritten; decide, by decide⟩

/-- Idle, about to scan V-SCN-5's grid, whose terminator ends at its last slot. -/
def readyScan : State := idleState (rowGrid false [px 1 2 2 0, px 2 2 2 0, px 2 2 2 0]) Block.reset

/-- Idle, about to scan the all-odd grid of program P5. -/
def readyOdd : State := idleState (rowGrid false [px 1 3 5 0, px 7 9 11 0]) Block.reset

/-- V-SCN-2's grid with no room for any character. -/
def readyFull : State :=
  { withBlock (rowGrid true (List.replicate 3 (px 2 4 6 8))) Block.reset with params := paramsOf 0 0 }

theorem witness_DecodeReadsUpToTheTerminator :
    Inv readyScan ∧ busy readyScan = false ∧ readyScan.agenda = [] ∧
    goesTo (exec .decode readyScan) busy = true ∧ firstTerminator (slotParity readyScan) 9 ∧
    9 ≤ 3 * readyScan.grid.w.toNat * readyScan.grid.h.toNat ∧ 9 / 8 ≤ readyScan.params.obufDepth.val :=
  ⟨idle_inv (by decide) (by decide) (by decide) (by decide) (by decide) (storage_of_check (by decide)),
    by decide, by decide, by decide, by unfold firstTerminator endsInTerminator; decide, by decide, by decide⟩

theorem witness_DecodeOverflowsTheBuffer :
    Inv readyFull ∧ busy readyFull = false ∧ readyFull.agenda = [] ∧
    goesTo (exec .decode readyFull) busy = true ∧ 8 = 8 * (readyFull.params.obufDepth.val + 1) ∧
    8 ≤ 3 * readyFull.grid.w.toNat * readyFull.grid.h.toNat ∧
    (∀ m, m < 8 → ¬ endsInTerminator (slotParity readyFull) m) :=
  ⟨idle_inv (by decide) (by decide) (by decide) (by decide) (by decide) (storage_of_check (by decide)),
    by decide, by decide, by decide, by decide, by decide, by unfold endsInTerminator; decide⟩

theorem witness_DecodeWithoutTerminator :
    Inv readyOdd ∧ busy readyOdd = false ∧ readyOdd.agenda = [] ∧
    goesTo (exec .decode readyOdd) busy = true ∧
    (∀ m, m ≤ 3 * readyOdd.grid.w.toNat * readyOdd.grid.h.toNat → ¬ endsInTerminator (slotParity readyOdd) m) ∧
    3 * readyOdd.grid.w.toNat * readyOdd.grid.h.toNat / 8 ≤ readyOdd.params.obufDepth.val :=
  ⟨idle_inv (by decide) (by decide) (by decide) (by decide) (by decide) (storage_of_check (by decide)),
    by decide, by decide, by decide, by unfold endsInTerminator; decide, by decide⟩

/-- That encode on its way: the phase, the cursor, the bits embedded, the working copy, and the pixels as they stand. -/
def embedding (phase : BitVec 3) (x : Half) (ch : BitVec 2) (n : Word) (o8 : Quad Byte) (pixels : List Stored) : State :=
  withBlock ⟨3#16, 1#16, true, pixels.zipIdx.map fun e => (e.2, e.1)⟩ { Block.reset with
    phase := phase, x := x, ch := ch, nbits := n, inp := px 1 1 1 1, o8 := o8, outLen := 1#32, obuf := [(0, 0x61#8)] }

/-- A pixel as the platform gave it, and one the encode has filled. -/
def fresh : Stored := .carrier (px 1 1 1 1)
def filled : Stored := .written ⟨2#8, 2#8, 2#8, 1#8⟩

/-- Idle, about to encode the empty message into three pixels. -/
def readyEmpty : State :=
  idleState ⟨3#16, 1#16, true, [(0, fresh), (1, fresh), (2, fresh)]⟩ { Block.reset with inp := px 1 1 1 1 }

theorem expand257_keeps_parity (w : Byte) : (readyEmpty.params.gridExpand w).toNat % 2 = w.toNat % 2 := by
  have h : readyEmpty.params.gridExpand w = BitVec.ofNat 16 (257 * w.toNat) := by
    simp [readyEmpty, idleState, withBlock, paramsOf, Params.gridExpand, expand257]
  rw [h, BitVec.toNat_ofNat]
  omega

/-- The working copy with 0, 1, 2 and 3 bits embedded. -/
def copy : Nat → Quad Byte
  | 0 => ⟨1#8, 1#8, 1#8, 1#8⟩
  | 1 => ⟨2#8, 1#8, 1#8, 1#8⟩
  | 2 => ⟨2#8, 2#8, 1#8, 1#8⟩
  | _ => ⟨2#8, 2#8, 2#8, 1#8⟩

/-- The five steps of a pixel that carries three bits, from its load to the next pixel's, in `rest` steps from the end. -/
theorem embedding_pixel (x : Half) (ch : BitVec 2) (n : Word) (o8 : Quad Byte) (before after : List Stored)
    {u : State} {rest : Nat}
    (h0 : step (embedding 1#3 x ch n o8 before) = .next (embedding 2#3 x 0#2 n (copy 0) before))
    (h1 : step (embedding 2#3 x 0#2 n (copy 0) before) = .next (embedding 2#3 x 1#2 (n + 1#32) (copy 1) before))
    (h2 : step (embedding 2#3 x 1#2 (n + 1#32) (copy 1) before) =
      .next (embedding 2#3 x 2#2 (n + 2#32) (copy 2) before))
    (h3 : step (embedding 2#3 x 2#2 (n + 2#32) (copy 2) before) =
      .next (embedding 3#3 x 2#2 (n + 3#32) (copy 3) before))
    (h4 : step (embedding 3#3 x 2#2 (n + 3#32) (copy 3) before) =
      .next (embedding 1#3 (x + 1#16) 2#2 (n + 3#32) (copy 3) after))
    (h : endsAfter rest (embedding 1#3 (x + 1#16) 2#2 (n + 3#32) (copy 3) after) u) :
    endsAfter (rest + 5) (embedding 1#3 x ch n o8 before) u :=
  endsAfter_succ rfl h0 (endsAfter_succ rfl h1 (endsAfter_succ rfl h2
    (endsAfter_succ rfl h3 (endsAfter_succ rfl h4 h))))

/-- The state that encode ends in. -/
def embedded : State :=
  let s := embedding 0#3 0#16 1#2 8#32 (copy 2) [filled, filled, .written (copy 2)]
  { s with block := { s.block with y := 1#16, done := true } }

/-- A store of that encode, the pixels it leaves given. -/
theorem step_of_store {s : State} {m : Memory} (hb : busy s = true) (ha : s.agenda = [])
    (hp : s.block.phase = phaseEncStore) (hin : inGrid s.grid s.block.x s.block.y = true)
    (hw : s.grid.writable = true)
    (hm : storePixel s.grid.pixels (pixelKey s.block.x s.block.y) (.written s.block.o8) = m) :
    step s =
      if streamDone s = true then .next (finish .ok (advance { s with grid := { s.grid with pixels := m } }))
      else .next (setPhase phaseEncLoad (advance { s with grid := { s.grid with pixels := m } })) := by
  rw [step_of_busy hb ha, blockTurn_encStore hp]
  exact execEncStore_of_writable hin hw hm

theorem store_0 : step (embedding 3#3 0#16 2#2 3#32 (copy 3) [fresh, fresh, fresh]) =
    .next (embedding 1#3 1#16 2#2 3#32 (copy 3) [filled, fresh, fresh]) := by
  rw [step_of_store (m := [(0, filled), (1, fresh), (2, fresh)]) rfl rfl rfl (by decide) rfl (by decide),
    if_neg (by decide)]
  rfl

theorem store_1 : step (embedding 3#3 1#16 2#2 6#32 (copy 3) [filled, fresh, fresh]) =
    .next (embedding 1#3 2#16 2#2 6#32 (copy 3) [filled, filled, fresh]) := by
  rw [step_of_store (m := [(0, filled), (1, filled), (2, fresh)]) rfl rfl rfl (by decide) rfl (by decide),
    if_neg (by decide)]
  rfl

theorem store_2 : step (embedding 3#3 2#16 1#2 8#32 (copy 2) [filled, filled, fresh]) = .next embedded := by
  rw [step_of_store (m := [(0, filled), (1, filled), (2, .written (copy 2))]) rfl rfl rfl (by decide) rfl
    (by decide), if_pos (by decide)]
  rfl

theorem readyEmpty_accepts : exec .encode readyEmpty =
    .next (embedding 1#3 0#16 0#2 0#32 ⟨0#8, 0#8, 0#8, 0#8⟩ [fresh, fresh, fresh]) := by
  show execEncode _ = _
  unfold execEncode
  rw [if_neg (by decide), if_neg (by decide), if_neg (by decide)]
  rfl

theorem embedding_ends :
    endsAfter 14 (embedding 1#3 0#16 0#2 0#32 ⟨0#8, 0#8, 0#8, 0#8⟩ [fresh, fresh, fresh]) embedded := by
  refine embedding_pixel _ _ _ _ _ [filled, fresh, fresh] rfl rfl rfl rfl store_0 ?_
  refine embedding_pixel _ _ _ _ _ [filled, filled, fresh] rfl rfl rfl rfl store_1 ?_
  refine endsAfter_succ rfl (t := embedding 2#3 2#16 0#2 6#32 (copy 0) [filled, filled, fresh]) rfl ?_
  refine endsAfter_succ rfl (t := embedding 2#3 2#16 1#2 7#32 (copy 1) [filled, filled, fresh]) rfl ?_
  refine endsAfter_succ rfl (t := embedding 3#3 2#16 1#2 8#32 (copy 2) [filled, filled, fresh]) rfl ?_
  refine endsAfter_succ rfl (t := embedded) store_2 ?_
  exact endsAfter_zero rfl

theorem witness_RoundTrip :
    Inv readyEmpty ∧ busy readyEmpty = false ∧ readyEmpty.agenda = [] ∧ messageWritten readyEmpty.block ∧
    (∀ w : Byte, (readyEmpty.params.gridExpand w).toNat % 2 = w.toNat % 2) ∧
    readyEmpty.block.msgLen.toNat + 1 ≤ readyEmpty.params.obufDepth.val ∧
    ∃ t u v, exec .encode readyEmpty = .next t ∧ busy t = true ∧ endsAfter 14 t u ∧ exec .decode u = .next v :=
  ⟨idle_inv (by decide) (by decide) (by decide) (by decide) (by decide) (storage_of_check (by decide)),
    by decide, by decide, by unfold messageWritten; decide, expand257_keeps_parity, by decide,
    embedding 1#3 0#16 0#2 0#32 ⟨0#8, 0#8, 0#8, 0#8⟩ [fresh, fresh, fresh], embedded, _,
    readyEmpty_accepts, rfl, embedding_ends, rfl⟩

/-- That encode abandoned after its first pixel. -/
theorem witness_ResetAbandonsAnEncode :
    Inv readyEmpty ∧ busy readyEmpty = false ∧ readyEmpty.agenda = [] ∧
    ∃ t u v, exec .encode readyEmpty = .next t ∧ busy t = true ∧ runSteps 5 t = .next u ∧ busy u = true ∧
      step { u with agenda := [.reset] } = .next v :=
  ⟨idle_inv (by decide) (by decide) (by decide) (by decide) (by decide) (storage_of_check (by decide)),
    by decide, by decide, _, embedding 1#3 1#16 2#2 3#32 (copy 3) [filled, fresh, fresh], _,
    readyEmpty_accepts, rfl,
    (runSteps_succ (t := embedding 2#3 0#16 0#2 0#32 (copy 0) [fresh, fresh, fresh]) rfl 4).trans
      ((runSteps_succ (t := embedding 2#3 0#16 1#2 1#32 (copy 1) [fresh, fresh, fresh]) rfl 3).trans
        ((runSteps_succ (t := embedding 2#3 0#16 2#2 2#32 (copy 2) [fresh, fresh, fresh]) rfl 2).trans
          ((runSteps_succ (t := embedding 3#3 0#16 2#2 3#32 (copy 3) [fresh, fresh, fresh]) rfl 1).trans
            (runSteps_succ store_0 0)))), rfl, rfl⟩

/-- The three cases of R185: "ab" (no zeros before its end, its last byte 0x62 ending in one zero), the empty message,
and "a" NUL (a run that ends with the message). -/
theorem witness_RoundTripCases :
    (messageWritten blockAb ∧ firstTerminator (streamBitOr blockAb) 23 ∧
      (∀ m, m ≤ 8 * blockAb.msgLen.toNat → ¬ endsInTerminator (streamBitOr blockAb) m) ∧
      0 < blockAb.msgLen.toNat ∧ lookupAt (blockAb.msgLen.toNat - 1) blockAb.msg = some 0x62#32 ∧
      (∀ k, k < 1 → (0x62#32).getLsbD k = false) ∧ (0x62#32).getLsbD 1 = true) ∧
    (messageWritten Block.reset ∧ firstTerminator (streamBitOr Block.reset) 8 ∧ Block.reset.msgLen.toNat = 0) ∧
    (messageWritten { blockAb with msg := [(0, 0x61#32), (1, 0#32)] } ∧
      endsInTerminator (streamBitOr { blockAb with msg := [(0, 0x61#32), (1, 0#32)] }) 16) := by
  unfold messageWritten firstTerminator endsInTerminator
  decide

theorem witness_EveryOperationEnds :
    (Inv scanning ∧ busy scanning = true ∧ scanning.agenda = [] ∧ decoding scanning = true) ∧
    (Inv storing ∧ busy storing = true ∧ storing.agenda = [] ∧ encoding storing) ∧
    (Inv unwritten ∧ busy unwritten = true ∧ unwritten.agenda = [] ∧ encoding unwritten) :=
  ⟨⟨scanning_inv, by decide, by decide, by decide⟩,
    ⟨storing_inv, by decide, by decide, by unfold encoding; decide⟩,
    unwritten_inv, by decide, by decide, by unfold encoding; decide⟩

end Sys2Proof.Tests
end

section
/-! PROOFS. The scope's numeric conventions (00_scope.md): narrowing and parity. -/

namespace Sys2Proof.Proofs

open Sys2Proof.Machine

/-- Narrowing reduces modulo 256, an even number, so the residue modulo 2 stays (00_scope.md R5). -/
theorem narrow8_toNat_emod_two (v : Int) : ((narrow8 v).toNat : Int) % 2 = v % 2 := by
  have two_dvd_256 : (2 : Int) ∣ 256 := by decide
  rw [narrow8_toNat, Int.emod_emod_of_dvd v two_dvd_256]

/-- Settles O24: the value law, the parity law it implies, and the worked value at `-1`. -/
theorem narrowingKeepsParity : Obligations.NarrowingKeepsParity :=
  ⟨narrow8_toNat, narrow8_toNat_emod_two, by decide⟩

end Sys2Proof.Proofs
end

section
/-! PROOFS. What an instruction leaves unchanged: the message, `OUT_LEN`, `DONE` and `RESULT` (10_state.md R29 to R33),
and where ENC_SLOT stops (R39). -/

namespace Sys2Proof.Proofs

open Sys2Proof.Machine

/-! ## The two instructions with the most outcomes -/

/-- Where DEC_SLOT looks for the terminator: the bit scanned and counted, and a character it completes stored
(44_scanner.md R161). -/
def scanned (s : State) : State :=
  let u := countBit (scanBit s)
  if characterDone u = true then storeCharacter (characterIndex u) u else u

/-- A character completed by the bit is put at its index; nothing else is stored. -/
theorem scanned_only_obuf (s : State) :
    ∃ obuf, scanned s =
        { countBit (scanBit s) with block := { (countBit (scanBit s)).block with obuf := obuf } } ∧
      (characterDone (countBit (scanBit s)) = true →
        obuf = putAt (characterIndex (countBit (scanBit s))) (countBit (scanBit s)).block.sr s.block.obuf) ∧
      (characterDone (countBit (scanBit s)) = false → obuf = s.block.obuf) := by
  by_cases hd : characterDone (countBit (scanBit s)) = true
  · exact ⟨_, if_pos hd, fun _ => rfl, fun hn => absurd hd (by simp [hn])⟩
  · exact ⟨_, if_neg hd, fun hn => absurd hn hd, fun _ => rfl⟩

/-- DEC_SLOT: the overflow end, or the terminator check on the scanned state (44_scanner.md R161). -/
theorem execDecSlot_outcomes {s t : State} (h : execDecSlot s = .next t) :
    (t = finish .outOverflow (countBit (scanBit s))) ∨
    ((characterDone (countBit (scanBit s)) = true →
        characterIndex (countBit (scanBit s)) < s.params.obufDepth.val) ∧
      t = afterCharacter (scanned s)) := by
  obtain ⟨u, rfl, ⟨-, -, hn⟩ | ⟨hd, hi, hn⟩ | ⟨hd, hn⟩⟩ := execDecSlot_cases s <;>
    obtain rfl := Host.Outcome.next.inj (hn.symm.trans h)
  · exact .inl rfl
  · exact .inr ⟨fun _ => hi, by simp [scanned, hd]⟩
  · exact .inr ⟨by simp [hd], by simp [scanned, hd]⟩

/-- What follows a scanned bit, with the cursor `Advance` leaves written out. -/
theorem afterCharacter_outcomes (s : State) :
    ∃ x y, afterCharacter s = finish .ok (setOutLen s) ∨ afterCharacter s = nextSlot s ∨
      afterCharacter s = finish .terminatorNotFound { s with block := { s.block with x := x, y := y } } ∨
      afterCharacter s = setPhase phaseDecLoad { s with block := { s.block with x := x, y := y } } := by
  obtain ⟨x, y, ha⟩ := advance_only_cursor s
  refine ⟨x, y, ?_⟩
  rw [← ha]
  rcases afterCharacter_cases s with ⟨-, h⟩ | ⟨-, -, h⟩ | ⟨-, -, -, h⟩ | ⟨-, -, -, h⟩
  · exact .inl h
  · exact .inr (.inl h)
  · exact .inr (.inr (.inl h))
  · exact .inr (.inr (.inr h))

/-- Every state DEC_SLOT can leave, with the registers it may change written out. -/
theorem execDecSlot_frame {s t : State} (h : execDecSlot s = .next t) :
    ∃ sr nbits obuf x y, ∃ u : State,
      u = { s with block := { s.block with sr := sr, nbits := nbits, obuf := obuf } } ∧
      (t = finish .outOverflow u ∨ t = finish .ok (setOutLen u) ∨ t = nextSlot u ∨
        t = finish .terminatorNotFound { u with block := { u.block with x := x, y := y } } ∨
        t = setPhase phaseDecLoad { u with block := { u.block with x := x, y := y } }) := by
  rcases execDecSlot_outcomes h with rfl | ⟨-, rfl⟩
  · exact ⟨_, _, _, s.block.x, s.block.y, _, rfl, .inl rfl⟩
  · obtain ⟨obuf, hv, -⟩ := scanned_only_obuf s
    obtain ⟨x, y, ha⟩ := afterCharacter_outcomes (scanned s)
    exact ⟨_, _, obuf, x, y, scanned s, hv, .inr ha⟩

/-- Every state ENC_STORE can leave: pixels and cursor changed, then the end or the next pixel (43_embedder.md R146). -/
theorem execEncStore_frame {s t : State} (h : execEncStore s = .next t) :
    ∃ pixels x y, ∃ u : State,
      u = { s with grid := { s.grid with pixels := pixels }, block := { s.block with x := x, y := y } } ∧
      (t = finish .ok u ∨ t = setPhase phaseEncLoad u) := by
  obtain ⟨-, -, -, u, rfl, ⟨-, rfl⟩ | ⟨-, rfl⟩⟩ := execEncStore_cases h
  · obtain ⟨x, y, ha⟩ := advance_only_cursor
      { s with grid := { s.grid with
        pixels := storePixel s.grid.pixels (pixelKey s.block.x s.block.y) (.written s.block.o8) } }
    exact ⟨_, x, y, _, ha, .inl rfl⟩
  · obtain ⟨x, y, ha⟩ := advance_only_cursor
      { s with grid := { s.grid with
        pixels := storePixel s.grid.pixels (pixelKey s.block.x s.block.y) (.written s.block.o8) } }
    exact ⟨_, x, y, _, ha, .inr rfl⟩

/-! ## What each instruction keeps -/

/-- Settles O21: each state an instruction can leave is the one before it with other fields written. -/
theorem blockNeverWritesTheMessage : Obligations.BlockNeverWritesTheMessage := by
  intro i s t h
  cases i with
  | nop | idle => cases h; simp
  | illegal => cases h; simp
  | encode => rcases execEncode_cases h with ⟨-, rfl⟩ | ⟨-, -, rfl⟩ | ⟨-, -, -, rfl⟩ | ⟨-, -, -, rfl⟩ <;> simp
  | decode => rcases execDecode_cases h with ⟨-, rfl⟩ | ⟨-, -, rfl⟩ <;> simp
  | encLoad => obtain ⟨-, -, rfl⟩ := execEncLoad_next h; simp
  | encSlot => obtain ⟨b, -, ⟨-, rfl⟩ | ⟨-, rfl⟩⟩ := execEncSlot_cases h <;> simp
  | encStore => obtain ⟨_, _, _, u, rfl, rfl | rfl⟩ := execEncStore_frame h <;> simp
  | decLoad => obtain ⟨-, -, rfl⟩ := execDecLoad_next h; simp
  | decSlot =>
    obtain ⟨_, _, _, _, _, u, rfl, rfl | rfl | rfl | rfl | rfl⟩ := execDecSlot_frame h <;> simp

/-- Settles O23: each instruction that writes `DONE` or `RESULT` does so through `finish` or `beginOperation`. -/
theorem flagsWrittenOnlyAtStartAndEnd : Obligations.FlagsWrittenOnlyAtStartAndEnd := by
  intro i s t h
  cases i with
  | nop | idle => cases h; exact .inl ⟨rfl, rfl⟩
  | illegal => cases h; exact .inr (.inl ⟨by simp, rfl, rfl⟩)
  | encode =>
    rcases execEncode_cases h with ⟨-, rfl⟩ | ⟨-, -, rfl⟩ | ⟨-, -, -, rfl⟩ | ⟨-, -, -, rfl⟩
    · exact .inr (.inl ⟨by simp, rfl, rfl⟩)
    · exact .inr (.inl ⟨by simp, rfl, rfl⟩)
    · exact .inr (.inl ⟨by simp, rfl, rfl⟩)
    · exact .inr (.inr ⟨by simp, rfl, rfl⟩)
  | decode =>
    rcases execDecode_cases h with ⟨-, rfl⟩ | ⟨-, -, rfl⟩
    · exact .inr (.inl ⟨by simp, rfl, rfl⟩)
    · exact .inr (.inr ⟨by simp, rfl, rfl⟩)
  | encLoad => obtain ⟨-, -, rfl⟩ := execEncLoad_next h; exact .inl ⟨rfl, rfl⟩
  | encSlot => obtain ⟨b, -, ⟨-, rfl⟩ | ⟨-, rfl⟩⟩ := execEncSlot_cases h <;> exact .inl ⟨rfl, rfl⟩
  | encStore =>
    obtain ⟨_, _, _, u, rfl, rfl | rfl⟩ := execEncStore_frame h
    · exact .inr (.inl ⟨by simp, rfl, rfl⟩)
    · exact .inl ⟨rfl, rfl⟩
  | decLoad => obtain ⟨-, -, rfl⟩ := execDecLoad_next h; exact .inl ⟨rfl, rfl⟩
  | decSlot =>
    obtain ⟨_, _, _, _, _, u, rfl, rfl | rfl | rfl | rfl | rfl⟩ := execDecSlot_frame h
    · exact .inr (.inl ⟨by simp, rfl, rfl⟩)
    · exact .inr (.inl ⟨by simp, rfl, rfl⟩)
    · exact .inl ⟨rfl, rfl⟩
    · exact .inr (.inl ⟨by simp, rfl, rfl⟩)
    · exact .inl ⟨rfl, rfl⟩

/-! ## `OUT_LEN` -/

/-- DECODE clears `OUT_LEN`, whether the scan starts or ends at once (40_control.md R103). -/
theorem execDecode_outLen {s t : State} (h : execDecode s = .next t) : t.block.outLen = 0#32 := by
  rcases execDecode_cases h with ⟨-, rfl⟩ | ⟨-, -, rfl⟩ <;> rfl

/-- No instruction but DECODE and DEC_SLOT writes `OUT_LEN`. -/
theorem exec_outLen {i : Instr} {s t : State} (h : exec i s = .next t) (hd : i ≠ .decode) (hs : i ≠ .decSlot) :
    t.block.outLen = s.block.outLen := by
  cases i with
  | nop | idle | illegal => cases h; rfl
  | encode => rcases execEncode_cases h with ⟨-, rfl⟩ | ⟨-, -, rfl⟩ | ⟨-, -, -, rfl⟩ | ⟨-, -, -, rfl⟩ <;> rfl
  | encLoad => obtain ⟨-, -, rfl⟩ := execEncLoad_next h; rfl
  | encSlot => obtain ⟨b, -, ⟨-, rfl⟩ | ⟨-, rfl⟩⟩ := execEncSlot_cases h <;> rfl
  | encStore => obtain ⟨_, _, _, u, rfl, rfl | rfl⟩ := execEncStore_frame h <;> rfl
  | decLoad => obtain ⟨-, -, rfl⟩ := execDecLoad_next h; rfl
  | decode => exact absurd rfl hd
  | decSlot => exact absurd rfl hs

/-- DEC_SLOT sets `OUT_LEN` to `NBITS div 8` when it ends with OK, and keeps it when it goes on or ends otherwise
(45_decoder.md R183). -/
theorem execDecSlot_outLen {s t : State} (h : execDecSlot s = .next t) (hp : s.block.phase = phaseDecSlot) :
    (t.block.phase = phaseIdle ∧ t.block.result = resultBits .ok →
      t.block.outLen.toNat = t.block.nbits.toNat / 8) ∧
    (¬ (t.block.phase = phaseIdle ∧ t.block.result = resultBits .ok) → t.block.outLen = s.block.outLen) := by
  obtain ⟨_, nbits, _, _, _, u, rfl, rfl | rfl | rfl | rfl | rfl⟩ := execDecSlot_frame h
  case inr.inl =>
    have := nbits.isLt
    simp [Nat.mod_eq_of_lt (show nbits.toNat / 8 < 4294967296 by omega)]
  all_goals simp [hp, phaseIdle, phaseDecSlot, phaseDecLoad, resultBits]

/-- A host write to an address other than `CTRL` keeps `OUT_LEN` (20_memory.md R58). -/
theorem memWrite_outLen {addr v : Word} {width : Nat} {s t : State} (ha : addr ≠ 0#32)
    (h : memWrite addr width v s = .next t) : t.block.outLen = s.block.outLen := by
  rcases memWrite_cases h with ⟨hc, -⟩ | rfl | ⟨-, rfl⟩ | ⟨-, i, -, rfl⟩
  · exact absurd hc ha
  all_goals rfl

/-- Settles O22. -/
theorem outLenWrittenOnlyByDecode : Obligations.OutLenWrittenOnlyByDecode := by
  refine ⟨fun i s t h => ⟨?_, exec_outLen h, ?_⟩, fun addr width v s t ha h => memWrite_outLen ha h⟩
  · rintro rfl; exact execDecode_outLen h
  · rintro rfl hp; exact execDecSlot_outLen h hp

/-! ## Where ENC_SLOT stops -/

/-- ENC_SLOT goes on when the stream has its bit. -/
theorem execEncSlot_of_bit {s : State} {b : Bool} (h : streamBit s.block s.block.nbits.toNat = some b) :
    ∃ t, execEncSlot s = .next t := by
  simp only [execEncSlot, h]
  split
  · exact ⟨_, rfl⟩
  · exact ⟨_, rfl⟩

/-- ENC_SLOT is a fault when the stream has not (10_state.md R39). -/
theorem execEncSlot_of_no_bit {s : State} (h : streamBit s.block s.block.nbits.toNat = none) :
    execEncSlot s = .fault .msgUnwritten := by
  simp only [execEncSlot, h]

/-- Settles O14: the three clauses are the three answers of `StreamBit`. -/
theorem unwrittenMessageFaults : Obligations.UnwrittenMessageFaults := by
  refine fun s => ⟨fun hlt hm => ?_, fun u hlt hm => ?_, fun hle => ?_⟩
  · exact execEncSlot_of_no_bit (by simp [streamBit, hlt, hm])
  · exact execEncSlot_of_bit (b := (maskUnit u).getLsbD (7 - s.block.nbits.toNat % 8)) (by simp [streamBit, hlt, hm])
  · exact execEncSlot_of_bit (b := false) (by simp [streamBit, Nat.not_lt.2 hle])

end Sys2Proof.Proofs
end

section
/-! PROOFS. What a host read of the register space returns (10_state.md R35 to R39, 20_memory.md R57). -/

namespace Sys2Proof.Proofs

open Sys2Proof.Machine

/-- A 32-bit read at a multiple of 4 reads the register there (20_memory.md R60). -/
theorem memRead_of_aligned {addr : Word} (h : addr.toNat % 4 = 0) (s : State) :
    memRead addr 4 s = .ok (readReg s (regAt s.params addr)) := by
  simp [memRead, busOffers, h]

/-- A read below `0x24` (10_state.md R35). -/
theorem memRead_fixed {addr : Word} (ha : addr.toNat % 4 = 0) (hlt : addr.toNat < 0x24) (s : State) :
    memRead addr 4 s = .ok (readReg s (fixedReg (addr.toNat / 4))) := by
  rw [memRead_of_aligned ha, regAt_fixed _ hlt]

/-- The words of a window that starts at a multiple of 4 are aligned. -/
theorem windowAddr_aligned (base i : Nat) (hb : base % 4 = 0) :
    (BitVec.ofNat 32 (base + 4 * i)).toNat % 4 = 0 := by
  rw [BitVec.toNat_ofNat]; omega

/-- A read of `MSG[i]` (20_memory.md R57). -/
theorem memRead_msg {s : State} {i : Nat} (h : i < s.params.msgDepth.val) :
    memRead (BitVec.ofNat 32 (0x01000000 + 4 * i)) 4 s = .ok (readReg s (.msg i)) := by
  rw [memRead_of_aligned (windowAddr_aligned _ i rfl), regAt_msg _ h]

/-- A read of `OUT[i]` (20_memory.md R57). -/
theorem memRead_out {s : State} {i : Nat} (h : i < s.params.obufDepth.val) :
    memRead (BitVec.ofNat 32 (0x02000000 + 4 * i)) 4 s = .ok (readReg s (.out i)) := by
  rw [memRead_of_aligned (windowAddr_aligned _ i rfl), regAt_out _ h]

/-- The fields of the `STATUS` word, each found above the narrower fields below it (10_state.md R35). -/
theorem statusWord_fields (s : State) :
    (statusWord s).getLsbD 0 = busy s ∧ (statusWord s).getLsbD 1 = s.block.done ∧
    (statusWord s).getLsbD 2 = s.grid.writable ∧ (statusWord s).getLsbD 3 = false ∧
    (statusWord s).extractLsb' 4 4 = s.block.result ∧ (statusWord s).extractLsb' 8 3 = s.block.phase ∧
    (statusWord s).getLsbD 11 = false ∧ (statusWord s).extractLsb' 12 2 = s.block.ch ∧
    (statusWord s).extractLsb' 14 18 = 0#18 := by
  unfold statusWord bitField
  refine ⟨?bit0, ?bit1, ?bit2, ?bit3, ?result, ?phase, ?bit11, ?ch, ?zeros⟩
  case result | phase | ch =>
    repeat rw [BitVec.extractLsb'_append_eq_of_le (by decide)]
    exact BitVec.extractLsb'_append_eq_right
  case zeros =>
    repeat rw [BitVec.extractLsb'_append_eq_of_le (by decide)]
    rfl
  all_goals
    repeat rw [BitVec.getLsbD_append]
    simp

/-- Settles O33. -/
theorem statusShowsItsFields : Obligations.StatusShowsItsFields :=
  fun s => ⟨statusWord s, memRead_fixed rfl (by decide) s, statusWord_fields s⟩

/-- Settles O34: the registers by their addresses, the entries of the buffers by their windows. -/
theorem registerReads : Obligations.RegisterReads := by
  refine fun s => ⟨?_, ?_, ?_, ?_, ?_, ?_, ?_, ?_, fun i u hi hu => ?msg, fun i c hi hl hc => ?out⟩
  case msg => rw [memRead_msg hi]; simp [readReg, hu]
  case out => rw [memRead_out hi]; simp [readReg, outCharacter_below hl, hc]
  all_goals exact memRead_fixed rfl (by decide) s

/-- Settles O36. -/
theorem unspecifiedReadsAreFree : Obligations.UnspecifiedReadsAreFree := by
  refine fun s i => ⟨fun hi hl => ?_, fun hi hm => ?_⟩
  · rw [memRead_out hi]; simp [readReg, outCharacter_above hl]
  · rw [memRead_msg hi]; simp [readReg, hm]

end Sys2Proof.Proofs
end

section
/-! PROOFS. The invariant's clauses that speak of no running operation, and that each operation over the state keeps
them (10_state.md R40). -/

namespace Sys2Proof.Proofs

open Sys2Proof.Machine

/-- The clauses of `Inv` that speak of no running operation: all of them but `PHASE`'s own while the block is idle. -/
structure AtRest (s : State) : Prop where
  channelLegal : s.block.ch.toNat ≤ 2
  resultLegal : s.block.result.toNat ≤ 6
  resultNeedsDone : s.block.done = false → s.block.result = 0#4
  output : ∀ i, i < s.block.outLen.toNat → (lookupAt i s.block.obuf).isSome = true
  storage : StorageCanonical s

/-! ## Between these clauses and `Inv`, by phase -/

theorem atRest_of_inv {s : State} (h : Inv s) : AtRest s := { h with }

theorem decoding_iff (s : State) :
    decoding s = true ↔ s.block.phase = phaseDecLoad ∨ s.block.phase = phaseDecSlot := decide_eq_true_iff

theorem busy_eq_false_iff (s : State) : busy s = false ↔ s.block.phase = phaseIdle := by simp [busy]

theorem encoding_not_decoding {s : State} (h : encoding s) : ¬ decoding s = true := by
  rw [decoding_iff]
  rcases h with h | h | h <;> rw [h] <;> decide

theorem AtRest.inv_of_idle {s : State} (h : AtRest s) (hp : s.block.phase = phaseIdle) : Inv s :=
  { h with
    phaseLegal := by rw [hp]; decide
    encode := fun he => absurd he (by unfold encoding; rw [hp]; decide)
    decode := fun hd => absurd hd (by rw [decoding_iff, hp]; decide) }

theorem AtRest.inv_of_encoding {s : State} (h : AtRest s) (he : encoding s) (hs : EncodeProgress s) : Inv s :=
  { h with
    phaseLegal := by rcases he with hp | hp | hp <;> rw [hp] <;> decide
    encode := fun _ => hs
    decode := fun hd => absurd hd (encoding_not_decoding he) }

theorem AtRest.inv_of_decoding {s : State} (h : AtRest s) (hd : decoding s = true) (hs : DecodeProgress s) : Inv s :=
  { h with
    phaseLegal := by rcases (decoding_iff s).1 hd with hp | hp <;> rw [hp] <;> decide
    encode := fun he => absurd hd (encoding_not_decoding he)
    decode := fun _ => hs }

/-- The invariant speaks of the block, the grid, the open parameters and the host's names alone. -/
theorem inv_congr {s t : State} (h : Inv s) (hb : t.block = s.block) (hg : t.grid = s.grid)
    (hp : t.params = s.params) (hn : t.host.names = s.host.names) : Inv t := by
  obtain ⟨b, g, p, ⟨prog, pc, names⟩, a, r, d⟩ := s
  obtain ⟨b', g', p', ⟨prog', pc', names'⟩, a', r', d'⟩ := t
  dsimp only at hb hg hp hn
  subst hb hg hp hn
  exact { h with
    encode := fun he =>
      have e := h.encode he
      { e with atPixel := { e.atPixel with } }
    decode := fun hd =>
      have e := h.decode hd
      { e with atPixel := { e.atPixel with } }
    storage := { h.storage with } }

/-! ## The operations over the state -/

theorem resultBits_le (code : ResultCode) : (resultBits code).toNat ≤ 6 := by
  cases code <;> decide

/-- `CH + 1` below the last channel of a slot. -/
theorem nextSlot_ch_toNat {s : State} (h : s.block.ch.toNat < 2) :
    (nextSlot s).block.ch.toNat = s.block.ch.toNat + 1 := by
  rw [nextSlot_block, BitVec.toNat_add]
  simp only [BitVec.toNat_ofNat]
  omega

section
variable {s : State} (h : AtRest s)
include h

theorem AtRest.setPhase (p : BitVec 3) : AtRest (setPhase p s) := { h with storage := { h.storage with } }

theorem AtRest.finish (code : ResultCode) : AtRest (finish code s) :=
  { h with
    resultLegal := resultBits_le code
    resultNeedsDone := nofun
    storage := { h.storage with } }

/-- Every end of an operation leaves the block idle, with the invariant. -/
theorem AtRest.inv_finish (code : ResultCode) : Inv (Machine.finish code s) := (h.finish code).inv_of_idle rfl

theorem AtRest.beginOperation : AtRest (beginOperation s) :=
  { h with
    resultLegal := Nat.zero_le 6
    resultNeedsDone := fun _ => rfl
    storage := { h.storage with } }

theorem AtRest.moveCursor (x y : Half) : AtRest { s with block := { s.block with x := x, y := y } } :=
  { h with storage := { h.storage with } }

theorem AtRest.homeCursor : AtRest (homeCursor s) :=
  { h with channelLegal := Nat.zero_le 2, storage := { h.storage with } }

theorem AtRest.nextSlot (hc : s.block.ch.toNat < 2) : AtRest (nextSlot s) :=
  { h with
    channelLegal := by rw [nextSlot_ch_toNat hc]; omega
    storage := { h.storage with } }

theorem AtRest.countBit : AtRest (countBit s) := { h with storage := { h.storage with } }

theorem AtRest.embedBit (b : Bool) : AtRest (embedBit b s) := { h with storage := { h.storage with } }

theorem AtRest.scanBit : AtRest (scanBit s) := { h with storage := { h.storage with } }

theorem AtRest.latchForEncode (p : Quad Half) : AtRest (latchForEncode p s) :=
  { h with channelLegal := Nat.zero_le 2, storage := { h.storage with } }

theorem AtRest.latchForDecode (p : Quad Half) : AtRest (latchForDecode p s) :=
  { h with channelLegal := Nat.zero_le 2, storage := { h.storage with } }

theorem AtRest.clearDecode : AtRest (clearDecode s) :=
  { h with output := fun _ hi => absurd hi (Nat.not_lt_zero _), storage := { h.storage with } }

theorem AtRest.storeCharacter {j : Nat} (hj : j < s.params.obufDepth.val) : AtRest (storeCharacter j s) :=
  { h with
    output := fun i hi => by
      rw [storeCharacter_block, lookupAt_putAt]
      split
      · rfl
      · exact h.output i hi
    storage := { h.storage with
      obuf := rising_putAt _ _ h.storage.obuf
      obufBelow := keysBelow_putAt hj _ h.storage.obufBelow } }

/-- `OUT_LEN` may be set when the characters below it are stored. -/
theorem AtRest.setOutLen
    (hc : ∀ i, i < s.block.nbits.toNat / 8 → (lookupAt i s.block.obuf).isSome = true) : AtRest (setOutLen s) :=
  { h with
    output := fun i hi => hc i (by
      rw [setOutLen_block, BitVec.toNat_ofNat] at hi
      exact lt_of_lt_of_le hi (Nat.mod_le _ _))
    storage := { h.storage with } }

theorem AtRest.setMsgLen (v : Word) : AtRest (setMsgLen v s) := { h with storage := { h.storage with } }

theorem AtRest.setMsgEntry {i : Nat} (hi : i < s.params.msgDepth.val) (v : Word) : AtRest (setMsgEntry i v s) :=
  { h with
    storage := { h.storage with
      msg := rising_putAt _ _ h.storage.msg
      msgBelow := keysBelow_putAt hi _ h.storage.msgBelow } }

/-- Writing a pixel of the grid, or taking the entry of one out, keeps the canonical form. -/
theorem AtRest.storePixel {x y : Half} (hx : x.toNat < s.grid.w.toNat) (hy : y.toNat < s.grid.h.toNat) (v : Stored) :
    AtRest { s with grid := { s.grid with pixels := storePixel s.grid.pixels (pixelKey x y) v } } :=
  { h with
    storage := { h.storage with
      pixels := storePixel_wf h.storage.pixels _ _
      pixelsInGrid := fun e he => by
        rcases mem_storePixel he with rfl | he
        · simp only [pixelKey_div, pixelKey_mod]; exact ⟨hy, hx⟩
        · exact h.storage.pixelsInGrid e he } }

/-- The whole grid may be replaced by one in canonical form. -/
theorem AtRest.attach {g : Grid} (hwf : Memory.wf g.pixels = true)
    (hin : ∀ e ∈ g.pixels, e.1 / 65536 < g.h.toNat ∧ e.1 % 65536 < g.w.toNat) : AtRest { s with grid := g } :=
  { h with storage := { h.storage with pixels := hwf, pixelsInGrid := hin } }

/-- Reset leaves the grid and the host's names, and nothing in the buffers (70_reset_and_hazards.md R220). -/
theorem AtRest.resetBlock : AtRest (resetBlock s) where
  channelLegal := Nat.zero_le 2
  resultLegal := Nat.zero_le 6
  resultNeedsDone := fun _ => rfl
  output := fun _ hi => absurd hi (Nat.not_lt_zero _)
  storage := { h.storage with msg := rfl, msgBelow := rfl, obuf := rfl, obufBelow := rfl }

end

/-- Settles O49: nothing is stored and the block is idle. -/
theorem invariantHoldsAtReset : Obligations.InvariantHoldsAtReset :=
  AtRest.inv_of_idle (hp := rfl)
    { channelLegal := by decide
      resultLegal := by decide
      resultNeedsDone := fun _ => rfl
      output := fun _ hi => absurd hi (Nat.not_lt_zero _)
      storage := ⟨rfl, nofun, rfl, rfl, rfl, rfl, rfl⟩ }

end Sys2Proof.Proofs
end

section
/-! PROOFS. The cursor and the slot under it: what `Advance` and an acceptance make of them (42_traversal.md R130 to
R134). -/

namespace Sys2Proof.Proofs

open Sys2Proof.Machine

/-- `Advance` from a pixel of the grid goes to the pixel of the next index, in the grid or just below its last row. -/
theorem advance_next {s : State} (hx : s.block.x.toNat < s.grid.w.toNat) (hy : s.block.y.toNat < s.grid.h.toNat) :
    ∃ x y : Half, advance s = { s with block := { s.block with x := x, y := y } } ∧
      x.toNat < s.grid.w.toNat ∧ y.toNat ≤ s.grid.h.toNat ∧
      y.toNat * s.grid.w.toNat + x.toNat = pixelIndex s + 1 := by
  obtain ⟨x, y, ha⟩ := advance_only_cursor s
  have hxy := advance_cursor hx hy
  simp only [ha] at hxy
  refine ⟨x, y, ha, ?_⟩
  unfold pixelIndex
  rcases hxy with ⟨hw, rfl, hy'⟩ | ⟨hw, hx', rfl⟩
  · rw [hy', Nat.succ_mul]
    simp only [BitVec.toNat_ofNat]
    omega
  · omega

/-- A cursor whose index is one of the grid's is not below the last row. -/
theorem row_lt_of_index_lt {w h x y : Nat} (hlt : y * w + x < w * h) : y < h := by
  by_contra hn
  have := Nat.mul_le_mul_right w (Nat.not_lt.1 hn)
  rw [Nat.mul_comm w] at hlt
  omega

/-- The value latched from the pixel at the cursor, at channel `CH`, is the value of slot `3·p + CH` (42_traversal.md
R133). -/
theorem slotValue_at_cursor {s : State} (hx : s.block.x.toNat < s.grid.w.toNat) (hc : s.block.ch.toNat ≤ 2) :
    slotValue s (3 * pixelIndex s + s.block.ch.toNat) =
      selectChannel (pixelAt s s.block.x s.block.y) s.block.ch := by
  have hdiv : (3 * pixelIndex s + s.block.ch.toNat) / 3 = pixelIndex s := by omega
  have hmod : (3 * pixelIndex s + s.block.ch.toNat) % 3 = s.block.ch.toNat := by omega
  unfold slotValue
  rw [hdiv, hmod, rasterPixel_pixelIndex hx, BitVec.ofNat_toNat, BitVec.setWidth_eq]

theorem channel_lt_two {c : BitVec 2} (hc : c.toNat ≤ 2) (hne : c ≠ 2#2) : c.toNat < 2 :=
  lt_of_le_of_ne hc fun h => hne (BitVec.eq_of_toNat_eq h)

/-- `NBITS + 1` below the width of the register (log 9). -/
theorem countBit_nbits_toNat {s : State} (h : s.block.nbits.toNat < 2 ^ 32 - 1) :
    (countBit s).block.nbits.toNat = s.block.nbits.toNat + 1 := by
  rw [countBit_block, BitVec.toNat_add]
  simp only [BitVec.toNat_ofNat]
  omega

end Sys2Proof.Proofs
end

section
/-! PROOFS. An encode keeps its progress: the invariant at the start of one and over each of its micro-operations
(43_embedder.md R144 to R146, 10_state.md R40). -/

namespace Sys2Proof.Proofs

open Sys2Proof.Machine

/-- A message that fits its buffer has a stream far shorter than `NBITS` can count (log 9). -/
theorem streamLength_lt_of_progress {s : State} (e : EncodeProgress s) :
    streamLength s.block.msgLen.toNat < 2 ^ 32 - 1 := by
  have hdepth : s.params.msgDepth.val ≤ 4194304 := Nat.le_of_lt_succ s.params.msgDepth.isLt
  have := e.lengthFits
  unfold streamLength
  omega

/-- An accepted ENCODE starts at the first pixel, with no bit embedded (40_control.md R102). -/
theorem encodeProgress_start {s : State} (hw : s.grid.writable = true)
    (hl : s.block.msgLen.toNat ≤ s.params.msgDepth.val)
    (hc : streamLength s.block.msgLen.toNat ≤ carrierSlots s.grid) :
    EncodeProgress (setPhase phaseEncLoad (homeCursor (beginOperation s))) := by
  have hlen : 0 < streamLength s.block.msgLen.toNat := by unfold streamLength; omega
  have hgrid : 0 < s.grid.w.toNat * s.grid.h.toNat := by unfold carrierSlots at hc; omega
  exact {
    atPixel := ⟨Nat.pos_of_mul_pos_right hgrid, Nat.pos_of_mul_pos_left hgrid, rfl, rfl⟩
    writable := hw
    lengthFits := hl
    streamFits := hc
    loadCursor := fun _ => ⟨by simp [pixelIndex], hlen⟩
    slotCursor := fun hp => absurd hp (show phaseEncLoad ≠ phaseEncSlot by decide)
    storeCursor := fun hp => absurd hp (show phaseEncLoad ≠ phaseEncStore by decide)
    latched := fun hp => absurd rfl hp
    workingCopy := fun hp => absurd rfl hp
    bitsWritten := fun _ hi => absurd hi (Nat.not_lt_zero _) }

/-- ENC_LOAD: the latch is the pixel, and the working copy carries no bit of it yet. -/
theorem encodeProgress_load {s : State} (e : EncodeProgress s) (hp : s.block.phase = phaseEncLoad) :
    EncodeProgress (setPhase phaseEncSlot (latchForEncode (pixelAt s s.block.x s.block.y) s)) := by
  obtain ⟨hn, hlt⟩ := e.loadCursor hp
  exact { e with
    atPixel := { e.atPixel with }
    loadCursor := fun hp => absurd hp (show phaseEncSlot ≠ phaseEncLoad by decide)
    slotCursor := fun _ => ⟨hn, hlt⟩
    storeCursor := fun hp => absurd hp (show phaseEncSlot ≠ phaseEncStore by decide)
    latched := fun _ => rfl
    workingCopy := fun _ c => by
      have hnone : ¬ (c.toNat < 3 ∧ 3 * pixelIndex s + c.toNat < s.block.nbits.toNat) := by omega
      exact (selectChannel_map narrowHalf _ c).trans (if_neg hnone).symm }

/-- One bit embedded at `CH`: the working copy carries one bit more, and every other channel is as it was. -/
theorem workingCopy_embedBit {s : State} {b : Bool} {p : Nat} (hch : s.block.ch.toNat ≤ 2)
    (hn : s.block.nbits.toNat = 3 * p + s.block.ch.toNat)
    (hb : streamBit s.block s.block.nbits.toNat = some b)
    (hw : ∀ c : BitVec 2, selectChannel s.block.o8 c =
      if c.toNat < 3 ∧ 3 * p + c.toNat < s.block.nbits.toNat then
        embedByte (selectChannel s.block.inp c) (streamBitOr s.block (3 * p + c.toNat))
      else narrowHalf (selectChannel s.block.inp c)) (c : BitVec 2) :
    selectChannel (embedBit b s).block.o8 c =
      if c.toNat < 3 ∧ 3 * p + c.toNat < s.block.nbits.toNat + 1 then
        embedByte (selectChannel s.block.inp c) (streamBitOr s.block (3 * p + c.toNat))
      else narrowHalf (selectChannel s.block.inp c) := by
  rw [embedBit_block, selectChannel_replaceChannel]
  by_cases hc : c = s.block.ch
  · subst hc
    rw [if_pos rfl, if_pos ⟨by omega, by omega⟩, ← hn, streamBitOr, hb, Option.getD_some]
  · have hne : c.toNat ≠ s.block.ch.toNat := fun h => hc (BitVec.eq_of_toNat_eq h)
    rw [if_neg hc, hw]
    exact if_congr (by omega) rfl rfl

/-- What `EncodeProgress` says of a latched pixel and the bits embedded so far, whatever comes next. -/
structure BitsEmbedded (s : State) : Prop where
  atPixel : AtPixel s
  writable : s.grid.writable = true
  lengthFits : s.block.msgLen.toNat ≤ s.params.msgDepth.val
  streamFits : streamLength s.block.msgLen.toNat ≤ carrierSlots s.grid
  latched : s.block.inp = pixelAt s s.block.x s.block.y
  workingCopy : ∀ c : BitVec 2, selectChannel s.block.o8 c =
    if c.toNat < 3 ∧ 3 * pixelIndex s + c.toNat < s.block.nbits.toNat then
      embedByte (selectChannel s.block.inp c) (streamBitOr s.block (3 * pixelIndex s + c.toNat))
    else narrowHalf (selectChannel s.block.inp c)
  bitsWritten : ∀ i, i < s.block.nbits.toNat → (streamBit s.block i).isSome = true

/-- The bit ENC_SLOT embeds is counted without wrapping. -/
theorem embedded_nbits_toNat {s : State} (e : EncodeProgress s) (hp : s.block.phase = phaseEncSlot) (b : Bool) :
    (countBit (embedBit b s)).block.nbits.toNat = s.block.nbits.toNat + 1 := by
  have := (e.slotCursor hp).2
  have := streamLength_lt_of_progress e
  exact countBit_nbits_toNat (show s.block.nbits.toNat < 2 ^ 32 - 1 by omega)

/-- ENC_SLOT: one bit more is embedded. -/
theorem bitsEmbedded_slot {s : State} {b : Bool} (e : EncodeProgress s) (hp : s.block.phase = phaseEncSlot)
    (hch : s.block.ch.toNat ≤ 2) (hb : streamBit s.block s.block.nbits.toNat = some b) :
    BitsEmbedded (countBit (embedBit b s)) := by
  have hload : s.block.phase ≠ phaseEncLoad := by rw [hp]; decide
  have hcount := embedded_nbits_toNat e hp b
  have hcopy := workingCopy_embedBit hch (e.slotCursor hp).1 hb (e.workingCopy hload)
  rw [← hcount] at hcopy
  exact { e with
    atPixel := { e.atPixel with }
    latched := e.latched hload
    workingCopy := hcopy
    bitsWritten := fun i hi => by
      rw [hcount] at hi
      show (streamBit s.block i).isSome = true
      rcases Nat.lt_succ_iff_lt_or_eq.1 hi with hi | rfl
      · exact e.bitsWritten i hi
      · rw [hb]; rfl }

/-- ENC_STORE comes after the last bit of the stream or of the pixel. -/
theorem BitsEmbedded.store {s : State} (h : BitsEmbedded s)
    (hn : s.block.nbits.toNat = 3 * pixelIndex s + s.block.ch.toNat + 1)
    (hle : s.block.nbits.toNat ≤ streamLength s.block.msgLen.toNat)
    (hend : s.block.nbits.toNat = streamLength s.block.msgLen.toNat ∨ s.block.ch = 2#2) :
    EncodeProgress (setPhase phaseEncStore s) :=
  { h with
    atPixel := { h.atPixel with }
    loadCursor := fun hp => absurd hp (show phaseEncStore ≠ phaseEncLoad by decide)
    slotCursor := fun hp => absurd hp (show phaseEncStore ≠ phaseEncSlot by decide)
    storeCursor := fun _ => ⟨hn, hle, hend⟩
    latched := fun _ => h.latched
    workingCopy := fun _ => h.workingCopy }

/-- The next slot comes after any other bit. -/
theorem BitsEmbedded.next {s : State} (h : BitsEmbedded s) (hp : s.block.phase = phaseEncSlot)
    (hn : s.block.nbits.toNat = 3 * pixelIndex s + s.block.ch.toNat + 1)
    (hlt : s.block.nbits.toNat < streamLength s.block.msgLen.toNat) (hch : s.block.ch.toNat < 2) :
    EncodeProgress (nextSlot s) :=
  { h with
    atPixel := { h.atPixel with }
    loadCursor := fun hp' => absurd (hp.symm.trans hp') (by decide)
    slotCursor := fun _ => by rw [nextSlot_ch_toNat hch]; exact ⟨hn, hlt⟩
    storeCursor := fun hp' => absurd (hp.symm.trans hp') (by decide)
    latched := fun _ => h.latched
    workingCopy := fun _ => h.workingCopy }

/-- ENC_STORE before the end of the stream: three more slots are done, and the cursor is at the pixel after them, which
is in the grid since the stream fits (42_traversal.md R133). -/
theorem encodeProgress_store {s : State} {m : Memory} {x y : Half} (e : EncodeProgress s)
    (hp : s.block.phase = phaseEncStore) (hmore : s.block.nbits.toNat ≠ streamLength s.block.msgLen.toNat)
    (hx : x.toNat < s.grid.w.toNat) (hxy : y.toNat * s.grid.w.toNat + x.toNat = pixelIndex s + 1) :
    EncodeProgress (setPhase phaseEncLoad
      { s with grid := { s.grid with pixels := m }, block := { s.block with x := x, y := y } }) := by
  obtain ⟨hn, hle, hend⟩ := e.storeCursor hp
  have hch : s.block.ch.toNat = 2 := by rw [hend.resolve_left hmore]; rfl
  have hlt : s.block.nbits.toNat < streamLength s.block.msgLen.toNat := lt_of_le_of_ne hle hmore
  have hnext : s.block.nbits.toNat = 3 * (y.toNat * s.grid.w.toNat + x.toNat) := by omega
  have hroom : y.toNat * s.grid.w.toNat + x.toNat < s.grid.w.toNat * s.grid.h.toNat := by
    have := e.streamFits
    unfold carrierSlots at this
    omega
  exact { e with
    atPixel := { e.atPixel with xInGrid := hx, yInGrid := row_lt_of_index_lt hroom }
    loadCursor := fun _ => ⟨hnext, hlt⟩
    slotCursor := fun hp => absurd hp (show phaseEncLoad ≠ phaseEncSlot by decide)
    storeCursor := fun hp => absurd hp (show phaseEncLoad ≠ phaseEncStore by decide)
    latched := fun hp => absurd rfl hp
    workingCopy := fun hp => absurd rfl hp }

/-! ## The invariant over ENCODE and the encode micro-operations -/

theorem inv_execEncode {s t : State} (r : AtRest s) (h : execEncode s = .next t) : Inv t := by
  rcases execEncode_cases h with ⟨-, rfl⟩ | ⟨-, -, rfl⟩ | ⟨-, -, -, rfl⟩ | ⟨hw, hl, hc, rfl⟩
  · exact r.beginOperation.inv_finish _
  · exact r.beginOperation.inv_finish _
  · exact r.beginOperation.inv_finish _
  · exact (r.beginOperation.homeCursor.setPhase _).inv_of_encoding (.inl rfl) (encodeProgress_start hw hl hc)

theorem inv_execEncLoad {s t : State} (r : AtRest s) (e : EncodeProgress s) (hp : s.block.phase = phaseEncLoad)
    (h : execEncLoad s = .next t) : Inv t := by
  obtain ⟨-, -, rfl⟩ := execEncLoad_next h
  exact ((r.latchForEncode _).setPhase _).inv_of_encoding (.inr (.inl rfl)) (encodeProgress_load e hp)

theorem inv_execEncSlot {s t : State} (r : AtRest s) (e : EncodeProgress s) (hp : s.block.phase = phaseEncSlot)
    (h : execEncSlot s = .next t) : Inv t := by
  obtain ⟨b, hb, hcases⟩ := execEncSlot_cases h
  obtain ⟨hslot, hlt⟩ := e.slotCursor hp
  have r' : AtRest (countBit (embedBit b s)) := (r.embedBit b).countBit
  have h' := bitsEmbedded_slot e hp r.channelLegal hb
  have hcount := embedded_nbits_toNat e hp b
  have hn : (countBit (embedBit b s)).block.nbits.toNat = 3 * pixelIndex s + s.block.ch.toNat + 1 := by omega
  have hle : (countBit (embedBit b s)).block.nbits.toNat ≤ streamLength s.block.msgLen.toNat := by omega
  rcases hcases with ⟨hend, rfl⟩ | ⟨hgo, rfl⟩
  · exact (r'.setPhase _).inv_of_encoding (.inr (.inr rfl)) (h'.store hn hle (hend.imp_left decide_eq_true_iff.1))
  · obtain ⟨hmore, hch⟩ := not_or.1 hgo
    have hch := channel_lt_two r.channelLegal hch
    have hlt := lt_of_le_of_ne hle fun heq => hmore (decide_eq_true_iff.2 heq)
    exact (r'.nextSlot hch).inv_of_encoding (.inr (.inl hp)) (h'.next hp hn hlt hch)

theorem inv_execEncStore {s t : State} (r : AtRest s) (e : EncodeProgress s) (hp : s.block.phase = phaseEncStore)
    (h : execEncStore s = .next t) : Inv t := by
  obtain ⟨hx, hy, -, u, rfl, hcases⟩ := execEncStore_cases h
  have r' := r.storePixel hx hy (.written s.block.o8)
  obtain ⟨x, y, ha, hx', -, hxy⟩ := advance_next (s := { s with grid := { s.grid with
    pixels := storePixel s.grid.pixels (pixelKey s.block.x s.block.y) (.written s.block.o8) } }) hx hy
  rw [ha] at hcases
  rcases hcases with ⟨-, rfl⟩ | ⟨hmore, rfl⟩
  · exact (r'.moveCursor x y).inv_finish _
  · exact ((r'.moveCursor x y).setPhase _).inv_of_encoding (.inl rfl)
      (encodeProgress_store (s := s) e hp (decide_eq_false_iff_not.1 hmore) hx' hxy)

end Sys2Proof.Proofs
end

section
/-! PROOFS. The last bits scanned, held in a byte: the shift register, the terminator test and a completed character are
three readings of it (44_scanner.md R162, 45_decoder.md R180, R181). -/

namespace Sys2Proof.Proofs

open Sys2Proof.Machine

/-- A byte holds the last 8 of the first `n` bits of a sequence, the most recent at bit 0, zeros for bits there are not. -/
def HoldsLastBits (f : Nat → Bool) (n : Nat) (sr : Byte) : Prop :=
  ∀ k, k < 8 → sr.getLsbD k = (decide (k < n) && f (n - 1 - k))

theorem holdsLastBits_zero (f : Nat → Bool) : HoldsLastBits f 0 0#8 := by
  intro k _
  simp

/-- Shifting the next bit in keeps it. -/
theorem HoldsLastBits.shiftIn {f : Nat → Bool} {n : Nat} {sr : Byte} (h : HoldsLastBits f n sr) :
    HoldsLastBits f (n + 1) (shiftIn sr (f n)) := by
  intro k hk
  rw [shiftIn_getLsbD]
  cases k with
  | zero => simp
  | succ k =>
    rw [if_neg (Nat.succ_ne_zero k), Nat.add_sub_cancel, h k (by omega)]
    simp [hk, show n - (k + 1) = n - 1 - k by omega]

/-- Only one byte does. -/
theorem HoldsLastBits.unique {f : Nat → Bool} {n : Nat} {a b : Byte} (ha : HoldsLastBits f n a)
    (hb : HoldsLastBits f n b) : a = b :=
  BitVec.eq_of_getLsbD_eq fun k hk => (ha k hk).trans (hb k hk).symm

/-- The shift register does. -/
theorem holdsLastBits_shiftRegister (f : Nat → Bool) (n : Nat) : HoldsLastBits f n (shiftRegister f n) := by
  induction n with
  | zero => exact holdsLastBits_zero f
  | succ n ih => exact ih.shiftIn

/-- The byte is 0 after 8 bits or more exactly when these end in a terminator. -/
theorem HoldsLastBits.terminator_iff {f : Nat → Bool} {n : Nat} {sr : Byte} (h : HoldsLastBits f n sr) :
    (sr = 0#8 ∧ 8 ≤ n) ↔ endsInTerminator f n := by
  have hbit : 8 ≤ n → ∀ k, k < 8 → sr.getLsbD k = f (n - 1 - k) := fun hn k hk => by
    simp [h k hk, show k < n by omega]
  constructor
  · rintro ⟨hz, hn⟩
    exact ⟨hn, fun k hk => by rw [← hbit hn k hk, hz]; simp⟩
  · rintro ⟨hn, hf⟩
    refine ⟨BitVec.eq_of_getLsbD_eq fun k hk => ?_, hn⟩
    rw [hbit hn k hk, hf k hk]
    simp

/-- The weighted sum of 8 bits is the number with those bits. -/
theorem packCharacter_getLsbD (f : Nat → Bool) (j : Nat) {k : Nat} (hk : k < 8) :
    (packCharacter f j).getLsbD k = f (8 * j + 7 - k) := by
  have hsum : ((List.range 8).map fun k => (f (8 * j + k)).toNat * 2 ^ (7 - k)).sum =
      Nat.ofBits fun k : Fin 8 => f (8 * j + 7 - k.val) := by
    simp [List.range_succ, Nat.ofBits, Fin.foldr_succ]
    omega
  unfold packCharacter
  rw [hsum, BitVec.getLsbD_ofNat, Nat.testBit_ofBits_lt _ _ hk]
  simp [hk]

/-- A byte that holds the last bits when a character is complete is that character. -/
theorem HoldsLastBits.eq_packCharacter {f : Nat → Bool} {j : Nat} {sr : Byte}
    (h : HoldsLastBits f (8 * (j + 1)) sr) : sr = packCharacter f j := by
  refine BitVec.eq_of_getLsbD_eq fun k hk => ?_
  rw [h k hk, packCharacter_getLsbD f j hk]
  simp [show k < 8 * (j + 1) by omega, show 8 * (j + 1) - 1 - k = 8 * j + 7 - k by omega]

end Sys2Proof.Proofs
end

section
/-! PROOFS. A decode keeps its progress: the invariant at the start of one and over each of its micro-operations
(44_scanner.md R160, R161, 10_state.md R40). -/

namespace Sys2Proof.Proofs

open Sys2Proof.Machine

/-- What `DecodeProgress` says of the bits scanned so far, wherever the cursor is. -/
structure BitsScanned (s : State) : Prop where
  noOutput : s.block.outLen = 0#32
  fitsOutput : s.block.nbits.toNat / 8 ≤ s.params.obufDepth.val
  shiftRegister : HoldsLastBits (slotParity s) s.block.nbits.toNat s.block.sr
  characters : ∀ j, j < s.block.nbits.toNat / 8 →
    lookupAt j s.block.obuf = some (packCharacter (slotParity s) j)

/-- The terminator test of DEC_SLOT (44_scanner.md R162). -/
theorem BitsScanned.terminatorSeen_iff {s : State} (b : BitsScanned s) :
    terminatorSeen s = true ↔ endsInTerminator (slotParity s) s.block.nbits.toNat :=
  decide_eq_true_iff.trans b.shiftRegister.terminator_iff

/-- An accepted DECODE starts at the first pixel, with no bit scanned (40_control.md R103). -/
theorem decodeProgress_start {s : State} (hw : s.grid.w ≠ 0#16) (hh : s.grid.h ≠ 0#16) :
    DecodeProgress (setPhase phaseDecLoad (homeCursor (clearDecode (beginOperation s)))) where
  atPixel := ⟨Nat.pos_of_ne_zero fun h => hw (BitVec.eq_of_toNat_eq h),
    Nat.pos_of_ne_zero fun h => hh (BitVec.eq_of_toNat_eq h), rfl, rfl⟩
  loadCursor := fun _ => by simp [pixelIndex]
  slotCursor := fun hp => absurd hp (show phaseDecLoad ≠ phaseDecSlot by decide)
  latched := fun hp => absurd hp (show phaseDecLoad ≠ phaseDecSlot by decide)
  noOutput := rfl
  fitsOutput := show 0 / 8 ≤ s.params.obufDepth.val from Nat.zero_le _
  shiftRegister := holdsLastBits_zero _
  characters := fun j (hj : j < 0 / 8) => absurd hj (Nat.not_lt_zero j)
  noTerminator := fun _ hn ht => absurd (ht.1.trans hn) (show ¬ 8 ≤ 0 by decide)

/-- DEC_LOAD: the latch is the pixel. -/
theorem decodeProgress_load {s : State} (e : DecodeProgress s) (hp : s.block.phase = phaseDecLoad) :
    DecodeProgress (setPhase phaseDecSlot (latchForDecode (pixelAt s s.block.x s.block.y) s)) :=
  { e with
    atPixel := { e.atPixel with }
    loadCursor := fun hp => absurd hp (show phaseDecSlot ≠ phaseDecLoad by decide)
    slotCursor := fun _ => e.loadCursor hp
    latched := fun _ => rfl }

/-- The bit DEC_SLOT scans is the parity of the slot `NBITS` counts (42_traversal.md R133). -/
theorem scannedBit_eq {s : State} (e : DecodeProgress s) (hp : s.block.phase = phaseDecSlot)
    (hch : s.block.ch.toNat ≤ 2) :
    parityBit (selectChannel s.block.inp s.block.ch) = slotParity s s.block.nbits.toNat := by
  rw [slotParity, e.slotCursor hp, slotValue_at_cursor e.atPixel.xInGrid hch, e.latched hp]

/-- The bit DEC_SLOT scans is counted without wrapping. -/
theorem scanned_nbits_toNat {s : State} (h : s.block.nbits.toNat / 8 ≤ s.params.obufDepth.val) :
    (countBit (scanBit s)).block.nbits.toNat = s.block.nbits.toNat + 1 := by
  have hdepth : s.params.obufDepth.val ≤ 4194304 := Nat.le_of_lt_succ s.params.obufDepth.isLt
  exact countBit_nbits_toNat (show s.block.nbits.toNat < 2 ^ 32 - 1 by omega)

/-- The character that the last of `n + 1` bits completes, stored after the ones before it. -/
theorem characters_putAt {f : Nat → Bool} {n : Nat} {sr : Byte} {obuf : List (Nat × Byte)}
    (hsr : HoldsLastBits f (n + 1) sr) (hdone : (n + 1) % 8 = 0)
    (hc : ∀ j, j < n / 8 → lookupAt j obuf = some (packCharacter f j)) :
    ∀ j, j < (n + 1) / 8 → lookupAt j (putAt ((n + 1) / 8 - 1) sr obuf) = some (packCharacter f j) := by
  intro j hj
  rw [lookupAt_putAt]
  split
  · have hlast : n + 1 = 8 * (j + 1) := by omega
    rw [hlast] at hsr
    rw [hsr.eq_packCharacter]
  · exact hc j (by omega)

/-- One bit more is scanned, and a character it completes is stored where there is room for it. -/
theorem BitsScanned.scanned {s : State} (b : BitsScanned s)
    (hbit : parityBit (selectChannel s.block.inp s.block.ch) = slotParity s s.block.nbits.toNat)
    (hroom : characterDone (countBit (scanBit s)) = true →
      characterIndex (countBit (scanBit s)) < s.params.obufDepth.val) : BitsScanned (scanned s) := by
  have hn := scanned_nbits_toNat b.fitsOutput
  have hsr : HoldsLastBits (slotParity s) (s.block.nbits.toNat + 1) (countBit (scanBit s)).block.sr := by
    have := b.shiftRegister.shiftIn
    rwa [← hbit] at this
  have hdone : characterDone (countBit (scanBit s)) = true ↔ (s.block.nbits.toNat + 1) % 8 = 0 := by
    rw [← hn]; exact decide_eq_true_iff
  have hindex : characterIndex (countBit (scanBit s)) = (s.block.nbits.toNat + 1) / 8 - 1 := by
    rw [← hn]; rfl
  obtain ⟨obuf, hv, hput, hkeep⟩ := scanned_only_obuf s
  rw [hv]
  rw [hindex] at hput hroom
  have hstored : (s.block.nbits.toNat + 1) / 8 ≤ s.params.obufDepth.val ∧
      ∀ j, j < (s.block.nbits.toNat + 1) / 8 → lookupAt j obuf = some (packCharacter (slotParity s) j) := by
    by_cases hd : characterDone (countBit (scanBit s)) = true
    · rw [hput hd]
      exact ⟨by have := hroom hd; omega, characters_putAt hsr (hdone.1 hd) b.characters⟩
    · rw [hkeep (by simpa using hd)]
      have hsame : (s.block.nbits.toNat + 1) / 8 = s.block.nbits.toNat / 8 := by rw [hdone] at hd; omega
      rw [hsame]
      exact ⟨b.fitsOutput, b.characters⟩
  rw [← hn] at hsr hstored
  exact ⟨b.noOutput, hstored.1, hsr, hstored.2⟩

/-- The clauses of the invariant that speak of no operation hold after a scanned bit too. -/
theorem atRest_scanned {s : State} (r : AtRest s)
    (hroom : characterDone (countBit (scanBit s)) = true →
      characterIndex (countBit (scanBit s)) < s.params.obufDepth.val) : AtRest (scanned s) := by
  unfold scanned
  dsimp only
  split
  · next hd => exact r.scanBit.countBit.storeCharacter (hroom hd)
  · exact r.scanBit.countBit

/-- The four ways on from a scanned bit all keep the invariant. -/
theorem inv_afterCharacter {s : State} (r : AtRest s) (b : BitsScanned s) (hpix : AtPixel s)
    (hp : s.block.phase = phaseDecSlot) (hlatch : s.block.inp = pixelAt s s.block.x s.block.y)
    (hn : s.block.nbits.toNat = 3 * pixelIndex s + s.block.ch.toNat + 1)
    (hbefore : ∀ n, n < s.block.nbits.toNat → ¬ endsInTerminator (slotParity s) n) : Inv (afterCharacter s) := by
  have hnone (ht : terminatorSeen s = false) (n : Nat) (hle : n ≤ s.block.nbits.toNat) :
      ¬ endsInTerminator (slotParity s) n := by
    rcases Nat.lt_or_eq_of_le hle with hlt | rfl
    · exact hbefore n hlt
    · rw [← b.terminatorSeen_iff, ht]; exact Bool.false_ne_true
  obtain ⟨x, y, ha, hx, hy, hxy⟩ := advance_next hpix.xInGrid hpix.yInGrid
  rcases afterCharacter_cases s with ⟨-, h⟩ | ⟨ht, hc, h⟩ | ⟨-, -, -, h⟩ | ⟨ht, hc, hrow, h⟩ <;> rw [h]
  · exact (r.setOutLen fun j hj => by rw [b.characters j hj]; rfl).inv_finish _
  · exact (r.nextSlot hc).inv_of_decoding ((decoding_iff _).2 (.inr hp)) { b with
      atPixel := { hpix with }
      loadCursor := fun hp' => absurd (hp.symm.trans hp') (by decide)
      slotCursor := fun _ => by rw [nextSlot_ch_toNat hc]; exact hn
      latched := fun _ => hlatch
      noTerminator := hnone ht }
  · rw [ha]
    exact (r.moveCursor x y).inv_finish _
  · rw [ha] at hrow ⊢
    have hy' : y.toNat < s.grid.h.toNat := lt_of_le_of_ne hy fun h => hrow (BitVec.eq_of_toNat_eq h)
    have hlast : s.block.ch.toNat = 2 := le_antisymm r.channelLegal hc
    have hnext : s.block.nbits.toNat = 3 * (y.toNat * s.grid.w.toNat + x.toNat) := by omega
    exact ((r.moveCursor x y).setPhase _).inv_of_decoding ((decoding_iff _).2 (.inl rfl)) { b with
      atPixel := { hpix with xInGrid := hx, yInGrid := hy' }
      loadCursor := fun _ => hnext
      slotCursor := fun hp => absurd hp (show phaseDecLoad ≠ phaseDecSlot by decide)
      latched := fun hp => absurd hp (show phaseDecLoad ≠ phaseDecSlot by decide)
      noTerminator := hnone ht }

/-! ## The invariant over DECODE and the decode micro-operations -/

theorem inv_execDecode {s t : State} (r : AtRest s) (h : execDecode s = .next t) : Inv t := by
  rcases execDecode_cases h with ⟨-, rfl⟩ | ⟨hw, hh, rfl⟩
  · exact r.beginOperation.clearDecode.homeCursor.inv_finish _
  · exact (r.beginOperation.clearDecode.homeCursor.setPhase _).inv_of_decoding ((decoding_iff _).2 (.inl rfl))
      (decodeProgress_start hw hh)

theorem inv_execDecLoad {s t : State} (r : AtRest s) (e : DecodeProgress s) (hp : s.block.phase = phaseDecLoad)
    (h : execDecLoad s = .next t) : Inv t := by
  obtain ⟨-, -, rfl⟩ := execDecLoad_next h
  exact ((r.latchForDecode _).setPhase _).inv_of_decoding ((decoding_iff _).2 (.inr rfl)) (decodeProgress_load e hp)

theorem inv_execDecSlot {s t : State} (r : AtRest s) (e : DecodeProgress s) (hp : s.block.phase = phaseDecSlot)
    (h : execDecSlot s = .next t) : Inv t := by
  rcases execDecSlot_outcomes h with rfl | ⟨hroom, rfl⟩
  · exact r.scanBit.countBit.inv_finish _
  · have hn := scanned_nbits_toNat e.fitsOutput
    have hcursor : (countBit (scanBit s)).block.nbits.toNat = 3 * pixelIndex s + s.block.ch.toNat + 1 := by
      have := e.slotCursor hp
      omega
    have hbefore (n : Nat) (hlt : n < (countBit (scanBit s)).block.nbits.toNat) :
        ¬ endsInTerminator (slotParity s) n := e.noTerminator n (by omega)
    have r' := atRest_scanned r hroom
    have b' := BitsScanned.scanned { e with } (scannedBit_eq e hp r.channelLegal) hroom
    obtain ⟨obuf, hv, -⟩ := scanned_only_obuf s
    rw [hv] at r' b' ⊢
    exact inv_afterCharacter r' b' { e.atPixel with } hp (e.latched hp) hcursor hbefore

end Sys2Proof.Proofs
end

section
/-! PROOFS. The invariant over the step of every agent, and the invariants the spec lists (10_state.md R40). -/

namespace Sys2Proof.Proofs

open Sys2Proof.Machine

/-! ## The block -/

/-- The sequencer's step: IDLE changes nothing, and each micro-operation keeps the progress of its operation. -/
theorem inv_blockTurn {s t : State} (hi : Inv s) (h : blockTurn s = .next t) : Inv t := by
  have r := atRest_of_inv hi
  rcases blockTurn_cases hi.phaseLegal with ⟨-, hb⟩ | ⟨hp, hb⟩ | ⟨hp, hb⟩ | ⟨hp, hb⟩ | ⟨hp, hb⟩ | ⟨hp, hb⟩ <;>
    rw [hb] at h
  · cases h; exact hi
  · exact inv_execEncLoad r (hi.encode (.inl hp)) hp h
  · exact inv_execEncSlot r (hi.encode (.inr (.inl hp))) hp h
  · exact inv_execEncStore r (hi.encode (.inr (.inr hp))) hp h
  · exact inv_execDecLoad r (hi.decode ((decoding_iff s).2 (.inl hp))) hp h
  · exact inv_execDecSlot r (hi.decode ((decoding_iff s).2 (.inr hp))) hp h

/-! ## The host -/

/-- Each command of an idle block keeps the invariant (40_control.md R101 to R104). -/
theorem inv_decodeCommand {s t : State} {v : Word} (hi : Inv s) (h : exec (decodeCommand v) s = .next t) : Inv t := by
  have r := atRest_of_inv hi
  unfold decodeCommand at h
  split at h
  · cases h; exact hi
  · split at h
    · exact inv_execEncode r h
    · split at h
      · exact inv_execDecode r h
      · cases h; exact r.inv_finish _

/-- A command written while busy is not performed (40_control.md R100). -/
theorem inv_acceptCommand {s t : State} {v : Word} (hi : Inv s) (h : acceptCommand v s = .next t) : Inv t := by
  unfold acceptCommand at h
  split at h
  · cases h; exact hi
  · exact inv_decodeCommand hi h

theorem inv_memWrite {s t : State} {addr v : Word} {width : Nat} (hi : Inv s)
    (h : memWrite addr width v s = .next t) : Inv t := by
  have r := atRest_of_inv hi
  rcases memWrite_cases h with ⟨-, hc⟩ | rfl | ⟨hb, rfl⟩ | ⟨hb, i, hlt, rfl⟩
  · exact inv_acceptCommand hi hc
  · exact hi
  · exact (r.setMsgLen v).inv_of_idle ((busy_eq_false_iff s).1 hb)
  · exact (r.setMsgEntry hlt v).inv_of_idle ((busy_eq_false_iff s).1 hb)

theorem inv_memRead {s t : State} {addr v : Word} {width : Nat} (hi : Inv s)
    (h : memRead addr width s = .ok (v, t)) : Inv t := by
  unfold memRead at h
  split at h
  · have ht : (readReg s (regAt s.params addr)).2 = t := congrArg Prod.snd (Except.ok.inj h)
    rcases readReg_state s (regAt s.params addr) with hr | hr <;> rw [hr] at ht <;> subst ht
    · exact hi
    · exact inv_congr hi rfl rfl rfl rfl
  · cases h

/-- A name is assigned in its place in the list of names. -/
theorem inv_hostAssign {s : State} (hi : Inv s) (name : Nat) (v : Word) : Inv (hostAssign name v s) :=
  { hi with
    encode := fun he =>
      have e := hi.encode he
      { e with atPixel := { e.atPixel with } }
    decode := fun hd =>
      have e := hi.decode hd
      { e with atPixel := { e.atPixel with } }
    storage := { hi.storage with names := rising_putAt _ _ hi.storage.names } }

theorem inv_hostAdvance {s : State} (hi : Inv s) : Inv (hostAdvance s) := inv_congr hi rfl rfl rfl rfl

theorem inv_hostBranch {s t : State} {name l : Nat} {mask : Word} (hi : Inv s)
    (h : hostBranch name mask l s = .next t) : Inv t := by
  unfold hostBranch at h
  split at h
  · cases h
  · split at h
    · cases h; exact inv_hostAdvance hi
    · split at h
      · cases h
      · cases h; exact inv_congr hi rfl rfl rfl rfl

theorem inv_hostPerform {s t : State} {op : HostOp} (hi : Inv s) (h : hostPerform op s = .next t) : Inv t := by
  cases op with
  | write addr width v => exact inv_memWrite (inv_hostAdvance hi) h
  | read addr width name =>
    simp only [hostPerform] at h
    split at h
    · cases h
    · next hr => cases h; exact inv_hostAssign (inv_memRead (inv_hostAdvance hi) hr) _ _
  | label l => cases h; exact inv_hostAdvance hi
  | bnz name mask l => exact inv_hostBranch hi h

theorem inv_hostTurn {s t : State} (hi : Inv s) (h : hostTurn s = .next t) : Inv t := by
  unfold hostTurn at h
  split at h
  · cases h; exact hi
  · exact inv_hostPerform hi h

/-! ## The platform -/

/-- Every pixel of a filled grid lies in it. -/
theorem fillPixels_inGrid (ps : List PixelInit) (g : Grid)
    (hg : ∀ e ∈ g.pixels, e.1 / 65536 < g.h.toNat ∧ e.1 % 65536 < g.w.toNat) :
    ∀ e ∈ (fillPixels g ps).pixels, e.1 / 65536 < g.h.toNat ∧ e.1 % 65536 < g.w.toNat := by
  induction ps generalizing g with
  | nil => exact hg
  | cons p ps ih =>
    unfold fillPixels
    split
    · next hin =>
      simp only [inGrid, decide_eq_true_eq] at hin
      refine ih { g with pixels := storePixel g.pixels (pixelKey p.x p.y) (.carrier p.value) } fun e he => ?_
      rcases mem_storePixel he with rfl | he
      · simp only [pixelKey_div, pixelKey_mod]; exact ⟨hin.2, hin.1⟩
      · exact hg e he
    · exact ih g hg

theorem inv_attachTurn {s t : State} {w h : Half} {writable : Bool} {pixels : List PixelInit} (hi : Inv s)
    (ht : attachTurn w h writable pixels s = .next t) : Inv t := by
  unfold attachTurn at ht
  split at ht
  · cases ht
  · next hb =>
    cases ht
    obtain ⟨hw, hh, -, hwf⟩ := fillPixels_facts pixels ⟨w, h, writable, []⟩ rfl
    have hin := fillPixels_inGrid pixels ⟨w, h, writable, []⟩ nofun
    have ha : AtRest { s with grid := attachGrid w h writable pixels } :=
      (atRest_of_inv hi).attach hwf (by rw [attachGrid, hw, hh]; exact hin)
    exact ha.inv_of_idle ((busy_eq_false_iff s).1 (by simpa using hb))

theorem inv_drainTurn {s t : State} (hi : Inv s) (h : drainTurn s = .next t) : Inv t := by
  unfold drainTurn at h
  split at h
  · cases h
  · cases h; exact hi

/-! ## One step -/

theorem inv_perform {s t : State} {e : Event} (hi : Inv s) (h : perform e s = .next t) : Inv t := by
  cases e with
  | block => exact inv_blockTurn hi h
  | host => exact inv_hostTurn hi h
  | reset => cases h; exact (atRest_of_inv hi).resetBlock.inv_of_idle rfl
  | attach w h' writable pixels => exact inv_attachTurn hi h
  | drain => exact inv_drainTurn hi h

/-- Settles O48: whoever moves, from the state with the agenda's first entry taken. -/
theorem everyStepKeepsTheInvariant : Obligations.EveryStepKeepsTheInvariant :=
  fun s _ hi h => inv_perform (s := popAgenda s) (inv_congr hi rfl rfl rfl rfl) h

/-! ## The listed invariants -/

/-- While busy the cursor is in the grid, whichever operation runs. -/
theorem atPixel_of_busy {s : State} (hi : Inv s) (hb : s.block.phase ≠ phaseIdle) : AtPixel s := by
  rcases blockTurn_cases hi.phaseLegal with ⟨hp, -⟩ | ⟨hp, -⟩ | ⟨hp, -⟩ | ⟨hp, -⟩ | ⟨hp, -⟩ | ⟨hp, -⟩
  · exact absurd hp hb
  · exact (hi.encode (.inl hp)).atPixel
  · exact (hi.encode (.inr (.inl hp))).atPixel
  · exact (hi.encode (.inr (.inr hp))).atPixel
  · exact (hi.decode ((decoding_iff s).2 (.inl hp))).atPixel
  · exact (hi.decode ((decoding_iff s).2 (.inr hp))).atPixel

/-- The bits scanned, under the two bounds of `SR` taken as one. -/
theorem sr_getLsbD_of_progress {s : State} (e : DecodeProgress s) {k : Nat} (hk : k < 8) :
    s.block.sr.getLsbD k =
      if k < min s.block.nbits.toNat 8 then slotParity s (s.block.nbits.toNat - 1 - k) else false := by
  rw [e.shiftRegister k hk]
  by_cases hn : k < s.block.nbits.toNat
  · simp [hn, hk]
  · simp [hn]

/-- Settles O50: each item is a clause of the invariant for the phase it is about; `SR` is the shift register since both
hold the last bits scanned. -/
theorem invariantGivesTheListedOnes : Obligations.InvariantGivesTheListedOnes := by
  intro s hi
  refine ⟨hi.phaseLegal, hi.channelLegal, ?_, fun hp => ?_, fun hb => ?_, fun hp => ?_⟩
  · rintro (hp | hp)
    · exact ((hi.encode (.inl hp)).loadCursor hp).2
    · exact ((hi.encode (.inr (.inl hp))).slotCursor hp).2
  · exact ((hi.encode (.inr (.inr hp))).storeCursor hp).2.1
  · exact ⟨(atPixel_of_busy hi hb).xInGrid, (atPixel_of_busy hi hb).yInGrid⟩
  · have e := hi.decode ((decoding_iff s).2 (.inr hp))
    exact ⟨fun k hk => sr_getLsbD_of_progress e hk,
      HoldsLastBits.unique e.shiftRegister (holdsLastBits_shiftRegister _ _), e.characters⟩

end Sys2Proof.Proofs
end

section
/-! PROOFS. What a host access of the register space does: the accesses the bus refuses, the writes of each register, and
the addresses with no register (20_memory.md R57 to R60). -/

namespace Sys2Proof.Proofs

open Sys2Proof.Machine

/-! ## The bus -/

/-- The bus does not offer an access of another width, or at another address (20_memory.md R60). -/
theorem busOffers_eq_false {addr : Word} {width : Nat} (h : width ≠ 4 ∨ addr.toNat % 4 ≠ 0) :
    busOffers addr width = false :=
  decide_eq_false (not_and_or.2 h)

/-- Settles O39: both accesses ask the bus first. -/
theorem misalignedAccessRefused : Obligations.MisalignedAccessRefused := by
  intro addr width v s h
  simp [memWrite, memRead, busOffers_eq_false h]

/-- A read that answers reads the register at its address. -/
theorem memRead_ok {addr v : Word} {width : Nat} {s t : State} (h : memRead addr width s = .ok (v, t)) :
    readReg s (regAt s.params addr) = (v, t) := by
  unfold memRead at h
  split at h
  · exact Except.ok.inj h
  · cases h

/-- Settles O38. -/
theorem readsChangeNothing : Obligations.ReadsChangeNothing := by
  intro addr width s t v h
  have ht : (readReg s (regAt s.params addr)).2 = t := by rw [memRead_ok h]
  rcases readReg_state s (regAt s.params addr) with hr | hr <;> rw [← ht, hr]

/-! ## The registers a write reaches -/

/-- A 32-bit write at a multiple of 4 writes the register there (20_memory.md R60). -/
theorem memWrite_of_aligned {addr : Word} (h : addr.toNat % 4 = 0) (v : Word) (s : State) :
    memWrite addr 4 v s = writeReg v s (regAt s.params addr) := by
  simp [memWrite, busOffers, h]

/-- A write below `0x24` (10_state.md R35). -/
theorem memWrite_fixed {addr : Word} (ha : addr.toNat % 4 = 0) (hlt : addr.toNat < 0x24) (v : Word) (s : State) :
    memWrite addr 4 v s = writeReg v s (fixedReg (addr.toNat / 4)) := by
  rw [memWrite_of_aligned ha, regAt_fixed _ hlt]

/-- A write of `MSG[i]` (20_memory.md R58). -/
theorem memWrite_msg {s : State} {i : Nat} (h : i < s.params.msgDepth.val) (v : Word) :
    memWrite (BitVec.ofNat 32 (0x01000000 + 4 * i)) 4 v s = writeReg v s (.msg i) := by
  rw [memWrite_of_aligned (windowAddr_aligned _ i rfl), regAt_msg _ h]

/-- While busy a write of any register, `CTRL` included, has no effect (20_memory.md R58, 40_control.md R100). -/
theorem writeReg_of_busy {s : State} (h : busy s = true) (v : Word) (r : Reg) : writeReg v s r = .next s := by
  cases r with
  | ctrl => simp [writeReg, acceptCommand, h]
  | msgLen | msg i => simp [writeReg, h]
  | _ => rfl

/-- A write of a register below `0x24` other than `CTRL` and `MSG_LEN` has no effect. -/
theorem writeReg_fixed_ignored {k : Nat} (hctrl : k ≠ 0) (hlen : k ≠ 2) (v : Word) (s : State) :
    writeReg v s (fixedReg k) = .next s := by
  unfold fixedReg
  split
  case h_1 => exact absurd rfl hctrl
  case h_3 => exact absurd rfl hlen
  all_goals rfl

/-- A write elsewhere than `CTRL`, `MSG_LEN` and the message window has no effect (20_memory.md R58, R59). -/
theorem memWrite_ignored {s : State} {addr : Word} (ha : addr.toNat % 4 = 0) (hctrl : addr ≠ 0x00#32)
    (hlen : addr ≠ 0x08#32)
    (hmsg : addr.toNat < 0x01000000 ∨ 0x01000000 + 4 * s.params.msgDepth.val ≤ addr.toNat) (v : Word) :
    memWrite addr 4 v s = .next s := by
  rw [memWrite_of_aligned ha]
  rcases regAt_cases s.params addr with ⟨k, -, hk, hr⟩ | ⟨i, -, hlo, hhi, -⟩ | ⟨i, -, -, -, hr⟩ | hr
  · rw [hr]
    exact writeReg_fixed_ignored (by bv_omega) (by bv_omega) v s
  · omega
  · rw [hr]; rfl
  · rw [hr]; rfl

/-- Settles O40: the register each address names, and what a write of it does. -/
theorem registerWrites : Obligations.RegisterWrites := by
  refine fun s v => ⟨memWrite_fixed rfl (by decide) v s, fun hidle => ?len, fun hidle i hi => ?entry,
    fun addr ha hbusy => ?busy, fun addr ha hctrl hlen hmsg => memWrite_ignored ha hctrl hlen hmsg v⟩
  case len =>
    have hb := (busy_eq_false_iff s).2 hidle
    rw [memWrite_fixed rfl (by decide)]
    simp [fixedReg, writeReg, hb, setMsgLen]
  case entry =>
    have hb := (busy_eq_false_iff s).2 hidle
    refine ⟨putAt i v s.block.msg, ?_, fun j => lookupAt_putAt j i v _⟩
    rw [memWrite_msg hi]
    simp [writeReg, hb, setMsgEntry]
  case busy =>
    rw [memWrite_of_aligned ha]
    exact writeReg_of_busy (decide_eq_true hbusy) v _

/-- An aligned address above the registers and outside both windows names no register (20_memory.md R59). -/
theorem regAt_unmapped {p : Params} {addr : Word} (ha : addr.toNat % 4 = 0) (hregs : 0x20 < addr.toNat)
    (hmsg : addr.toNat < 0x01000000 ∨ 0x01000000 + 4 * p.msgDepth.val ≤ addr.toNat)
    (hout : addr.toNat < 0x02000000 ∨ 0x02000000 + 4 * p.obufDepth.val ≤ addr.toNat) :
    regAt p addr = .unmapped := by
  rcases regAt_cases p addr with ⟨k, hlt, -, -⟩ | ⟨i, -, hlo, hhi, -⟩ | ⟨i, -, hlo, hhi, -⟩ | hr
  · omega
  · omega
  · omega
  · exact hr

/-- Settles O35. -/
theorem unmappedReadsZero : Obligations.UnmappedReadsZero := by
  intro s addr v ha hregs hmsg hout
  rw [memRead_of_aligned ha, memWrite_of_aligned ha, regAt_unmapped ha hregs hmsg hout]
  exact ⟨rfl, rfl⟩

end Sys2Proof.Proofs
end

section
/-! PROOFS. The grid behind its port: when an access stops, what a read returns after a store and after an attachment
(20_memory.md R51 to R55, 70_reset_and_hazards.md R222). -/

namespace Sys2Proof.Proofs

open Sys2Proof.Machine

/-! ## Accesses that stop -/

theorem inGrid_iff (g : Grid) (x y : Half) :
    inGrid g x y = true ↔ x.toNat < g.w.toNat ∧ y.toNat < g.h.toNat := decide_eq_true_iff

/-- Neither a read nor a write answers outside the grid (20_memory.md R51; log 8). -/
theorem gridAccess_outside {s : State} {x y : Half} (h : s.grid.w.toNat ≤ x.toNat ∨ s.grid.h.toNat ≤ y.toNat) :
    gridRead s x y = .error .gridOutOfBounds ∧ ∀ v, gridWrite s x y v = .error .gridOutOfBounds := by
  have hout : ¬ inGrid s.grid x y = true := by rw [inGrid_iff]; omega
  exact ⟨if_neg hout, fun _ => if_neg hout⟩

/-- No write answers on a grid with `WRITABLE = 0` (20_memory.md R53; log 8). -/
theorem gridWrite_unwritable {s : State} {x y : Half} (hx : x.toNat < s.grid.w.toNat) (hy : y.toNat < s.grid.h.toNat)
    (hw : s.grid.writable = false) (v : Quad Byte) : gridWrite s x y v = .error .gridNotWritable := by
  have hin := (inGrid_iff s.grid x y).2 ⟨hx, hy⟩
  simp [gridWrite, hin, hw]

/-- Settles O17: each micro-operation stops as its access does. -/
theorem gridAccessOutsideTheRulesFaults : Obligations.GridAccessOutsideTheRulesFaults := by
  refine fun s => ⟨fun hout => ?_, fun hx hy hw => ?_⟩
  · obtain ⟨hread, hwrite⟩ := gridAccess_outside hout
    simp [exec, execEncLoad, execDecLoad, execEncStore, hread, hwrite]
  · simp [exec, execEncStore, gridWrite_unwritable hx hy hw]

/-! ## A read after a store -/

theorem pixelKey_eq_iff (x y x' y' : Half) : pixelKey x y = pixelKey x' y' ↔ x = x' ∧ y = y' :=
  ⟨pixelKey_inj, fun ⟨hx, hy⟩ => by rw [hx, hy]⟩

/-- ENC_STORE changes one pixel of the grid and none of the parameters (43_embedder.md R146). -/
theorem execEncStore_grid {s t : State} (h : execEncStore s = .next t) :
    t.params = s.params ∧ t.grid = { s.grid with
      pixels := storePixel s.grid.pixels (pixelKey s.block.x s.block.y) (.written s.block.o8) } := by
  obtain ⟨-, -, -, u, rfl, ⟨-, rfl⟩ | ⟨-, rfl⟩⟩ := execEncStore_cases h <;> simp

/-- What every pixel reads as after ENC_STORE (20_memory.md R53). -/
theorem pixelAt_execEncStore {s t : State} (h : execEncStore s = .next t) (x y : Half) :
    pixelAt t x y =
      if x = s.block.x ∧ y = s.block.y then s.block.o8.map s.params.gridExpand else pixelAt s x y := by
  obtain ⟨hp, hg⟩ := execEncStore_grid h
  simp only [pixelAt, hp, hg, storedAt_storePixel_written, pixelKey_eq_iff]
  split
  · rfl
  · rfl

/-- Settles O16: the store keeps the size of the grid, so a read answers where it did. -/
theorem storedPixelReadsBackExpanded : Obligations.StoredPixelReadsBackExpanded := by
  intro s t h
  obtain ⟨hx, hy, -⟩ := execEncStore_cases h
  have hpixel := pixelAt_execEncStore h
  have hg := (execEncStore_grid h).2
  refine ⟨?_, fun x y hne => ?_⟩
  · rw [gridRead_of_lt (by rw [hg]; exact hx) (by rw [hg]; exact hy), hpixel, if_pos ⟨rfl, rfl⟩]
    rfl
  · have hother : pixelAt t x y = pixelAt s x y := by rw [hpixel, if_neg (not_and_or.2 hne)]
    simp [gridRead, inGrid, hother, hg]

/-! ## A read after an attachment -/

/-- The last pixel listed at `(x, y)`, the one an attachment goes by (log 16). -/
def lastListed (ps : List PixelInit) (x y : Half) : Option PixelInit :=
  ps.reverse.find? fun p => decide (p.x = x ∧ p.y = y)

/-- The head of the list counts only where the rest lists no such pixel. -/
theorem lastListed_cons (p : PixelInit) (ps : List PixelInit) (x y : Half) :
    lastListed (p :: ps) x y = (lastListed ps x y).or (if p.x = x ∧ p.y = y then some p else none) := by
  simp [lastListed, List.find?_singleton]

/-- One pixel of the list given its value, where it lies in the grid. -/
def fillPixel (g : Grid) (p : PixelInit) : Grid :=
  if inGrid g p.x p.y then { g with pixels := storePixel g.pixels (pixelKey p.x p.y) (.carrier p.value) } else g

theorem fillPixels_cons (g : Grid) (p : PixelInit) (ps : List PixelInit) :
    fillPixels g (p :: ps) = fillPixels (fillPixel g p) ps := rfl

theorem inGrid_fillPixel (g : Grid) (p : PixelInit) (x y : Half) : inGrid (fillPixel g p) x y = inGrid g x y := by
  unfold fillPixel
  split
  · rfl
  · rfl

theorem fillPixel_wf {g : Grid} (hg : Memory.wf g.pixels = true) (p : PixelInit) :
    Memory.wf (fillPixel g p).pixels = true := by
  unfold fillPixel
  split
  · exact storePixel_wf hg _ _
  · exact hg

/-- One listed value is what its own pixel holds, and no other; a pixel outside the grid is no pixel inside it. -/
theorem storedAt_fillPixel {g : Grid} (hg : Memory.wf g.pixels = true) (p : PixelInit) {x y : Half}
    (hin : inGrid g x y = true) :
    storedAt (fillPixel g p).pixels (pixelKey x y) =
      if p.x = x ∧ p.y = y then .carrier p.value else storedAt g.pixels (pixelKey x y) := by
  unfold fillPixel
  split
  · simp only [storedAt_storePixel hg, pixelKey_eq_iff, eq_comm]
  · next hout =>
    have hne : ¬ (p.x = x ∧ p.y = y) := by
      rintro ⟨rfl, rfl⟩
      exact hout hin
    rw [if_neg hne]

/-- A pixel of a filled grid holds the last value listed for it, or what it held before. -/
theorem storedAt_fillPixels (ps : List PixelInit) {g : Grid} (hg : Memory.wf g.pixels = true) {x y : Half}
    (hin : inGrid g x y = true) :
    storedAt (fillPixels g ps).pixels (pixelKey x y) =
      ((lastListed ps x y).map fun p => Stored.carrier p.value).getD (storedAt g.pixels (pixelKey x y)) := by
  induction ps generalizing g with
  | nil => rfl
  | cons p ps ih =>
    rw [fillPixels_cons, ih (fillPixel_wf hg p) (by rw [inGrid_fillPixel, hin]), storedAt_fillPixel hg p hin,
      lastListed_cons]
    cases lastListed ps x y with
    | some q => rfl
    | none => by_cases hp : p.x = x ∧ p.y = y <;> simp [hp]

/-- A pixel of an attached grid holds the last value listed for it, or what an unlisted pixel holds (log 7, log 16). -/
theorem storedAt_attachGrid {w h x y : Half} (wr : Bool) (ps : List PixelInit) (hx : x.toNat < w.toNat)
    (hy : y.toNat < h.toNat) :
    storedAt (attachGrid w h wr ps).pixels (pixelKey x y) =
      ((lastListed ps x y).map fun p => Stored.carrier p.value).getD unlistedPixel :=
  storedAt_fillPixels ps rfl ((inGrid_iff ⟨w, h, wr, []⟩ x y).2 ⟨hx, hy⟩)

/-- Settles O44. -/
theorem attachedGridReadsAsGiven : Obligations.AttachedGridReadsAsGiven := by
  intro s w h wr ps x y hgrid
  obtain ⟨hw, hh, hwr, hwf⟩ := fillPixels_facts ps ⟨w, h, wr, []⟩ rfl
  rw [← attachGrid, ← hgrid] at hw hh hwr hwf
  refine ⟨hw, hh, hwr, hwf, fun hx hy => ?_⟩
  rw [gridRead_of_lt (hw ▸ hx) (hh ▸ hy), pixelAt, hgrid, storedAt_attachGrid wr ps hx hy, ← lastListed]
  cases lastListed ps x y with
  | some p => rfl
  | none => rfl

end Sys2Proof.Proofs
end

section
/-! PROOFS. What the micro-operation `PHASE` selects does to the grid: it touches the pixel at the cursor and no other
(20_memory.md R55, R66). -/

namespace Sys2Proof.Proofs

open Sys2Proof.Machine

/-- The micro-operation of each phase (30_encoding.md R84). -/
theorem decode_phase_cases {p : BitVec 3} {i : Instr} (h : decode (.phase p) = .ok i) :
    (p = phaseIdle ∧ i = .idle) ∨ (p = phaseEncLoad ∧ i = .encLoad) ∨ (p = phaseEncSlot ∧ i = .encSlot) ∨
    (p = phaseEncStore ∧ i = .encStore) ∨ (p = phaseDecLoad ∧ i = .decLoad) ∨
    (p = phaseDecSlot ∧ i = .decSlot) := by
  simp only [decode, decodePhase] at h
  split_ifs at h with h0 h1 h2 h3 h4 h5 <;> cases h
  · exact .inl ⟨h0, rfl⟩
  · exact .inr (.inl ⟨h1, rfl⟩)
  · exact .inr (.inr (.inl ⟨h2, rfl⟩))
  · exact .inr (.inr (.inr (.inl ⟨h3, rfl⟩)))
  · exact .inr (.inr (.inr (.inr (.inl ⟨h4, rfl⟩))))
  · exact .inr (.inr (.inr (.inr (.inr ⟨h5, rfl⟩))))

/-! ## No access stops -/

/-- With the cursor in the grid a load goes on. -/
theorem execLoad_of_atPixel {s : State} (hs : AtPixel s) :
    (∃ t, execEncLoad s = .next t) ∧ ∃ t, execDecLoad s = .next t := by
  have hread := gridRead_of_lt hs.xInGrid hs.yInGrid
  simp [execEncLoad, execDecLoad, hread]

/-- With the cursor in a writable grid a store goes on. -/
theorem execEncStore_of_atPixel {s : State} (hs : AtPixel s) (hw : s.grid.writable = true) :
    ∃ t, execEncStore s = .next t := by
  rw [execEncStore_of_writable ((inGrid_iff _ _ _).2 ⟨hs.xInGrid, hs.yInGrid⟩) hw rfl]
  split
  · exact ⟨_, rfl⟩
  · exact ⟨_, rfl⟩

/-- From a state that meets the invariant the micro-operation goes on, or stops at an unwritten `MSG` entry. -/
theorem exec_phase_outcomes {s : State} {i : Instr} (hi : Inv s) (hd : decode (.phase s.block.phase) = .ok i) :
    (∃ t, exec i s = .next t) ∨ exec i s = .fault .msgUnwritten := by
  rcases decode_phase_cases hd with ⟨-, rfl⟩ | ⟨hp, rfl⟩ | ⟨-, rfl⟩ | ⟨hp, rfl⟩ | ⟨hp, rfl⟩ | ⟨-, rfl⟩
  · exact .inl ⟨s, rfl⟩
  · exact .inl (execLoad_of_atPixel (hi.encode (.inl hp)).atPixel).1
  · cases hb : streamBit s.block s.block.nbits.toNat with
    | none => exact .inr (execEncSlot_of_no_bit hb)
    | some b => exact .inl (execEncSlot_of_bit hb)
  · have e := hi.encode (.inr (.inr hp))
    exact .inl (execEncStore_of_atPixel e.atPixel e.writable)
  · exact .inl (execLoad_of_atPixel (hi.decode ((decoding_iff s).2 (.inl hp))).atPixel).2
  · obtain ⟨u, -, ⟨-, -, h⟩ | ⟨-, -, h⟩ | ⟨-, h⟩⟩ := execDecSlot_cases s <;> exact .inl ⟨_, h⟩

/-! ## The one pixel written -/

/-- No instruction but ENC_STORE writes the grid. -/
theorem exec_grid {i : Instr} {s t : State} (h : exec i s = .next t) (hne : i ≠ .encStore) : t.grid = s.grid := by
  cases i with
  | nop | idle | illegal => cases h; rfl
  | encode => rcases execEncode_cases h with ⟨-, rfl⟩ | ⟨-, -, rfl⟩ | ⟨-, -, -, rfl⟩ | ⟨-, -, -, rfl⟩ <;> rfl
  | decode => rcases execDecode_cases h with ⟨-, rfl⟩ | ⟨-, -, rfl⟩ <;> rfl
  | encLoad => obtain ⟨-, -, rfl⟩ := execEncLoad_next h; rfl
  | encSlot => obtain ⟨b, -, ⟨-, rfl⟩ | ⟨-, rfl⟩⟩ := execEncSlot_cases h <;> rfl
  | encStore => exact absurd rfl hne
  | decLoad => obtain ⟨-, -, rfl⟩ := execDecLoad_next h; rfl
  | decSlot => obtain ⟨_, _, _, _, _, u, rfl, rfl | rfl | rfl | rfl | rfl⟩ := execDecSlot_frame h <;> rfl

/-- Where an instruction changes what the grid holds: ENC_STORE, at the cursor, in a writable grid. -/
theorem exec_changed_pixel {i : Instr} {s t : State} {k : Nat} (h : exec i s = .next t)
    (hk : storedAt t.grid.pixels k ≠ storedAt s.grid.pixels k) :
    i = .encStore ∧ k = pixelKey s.block.x s.block.y ∧ s.block.x.toNat < s.grid.w.toNat ∧
      s.block.y.toNat < s.grid.h.toNat ∧ s.grid.writable = true := by
  by_cases hstore : i = .encStore
  · subst hstore
    obtain ⟨hx, hy, hw, -⟩ := execEncStore_cases h
    refine ⟨rfl, ?_, hx, hy, hw⟩
    by_contra hne
    rw [(execEncStore_grid h).2, storedAt_storePixel_written, if_neg hne] at hk
    exact hk rfl
  · rw [exec_grid h hstore] at hk
    exact absurd rfl hk

/-! ## The one pixel read -/

/-- The state with other pixels stored in the grid, its inputs the same. -/
def withPixels (m : Memory) (s : State) : State := { s with grid := { s.grid with pixels := m } }

@[simp] theorem withPixels_block (m : Memory) (s : State) : (withPixels m s).block = s.block := rfl
@[simp] theorem withPixels_grid (m : Memory) (s : State) : (withPixels m s).grid = { s.grid with pixels := m } := rfl

theorem advance_withPixels (m : Memory) (s : State) : advance (withPixels m s) = withPixels m (advance s) := by
  unfold advance
  rw [apply_ite (withPixels m)]
  rfl

theorem afterCharacter_withPixels (m : Memory) (s : State) :
    afterCharacter (withPixels m s) = withPixels m (afterCharacter s) := by
  unfold afterCharacter nextScan
  rw [advance_withPixels]
  simp only [apply_ite (withPixels m)]
  rfl

/-- The slot micro-operations work on the latch alone: with other pixels stored they do the same. -/
theorem execEncSlot_withPixels {s t : State} (m : Memory) (h : execEncSlot s = .next t) :
    execEncSlot (withPixels m s) = .next (withPixels m t) := by
  obtain ⟨b, hb, ⟨hend, rfl⟩ | ⟨hgo, rfl⟩⟩ := execEncSlot_cases h
  · simp only [execEncSlot, withPixels_block, hb]
    exact if_pos hend
  · simp only [execEncSlot, withPixels_block, hb]
    exact if_neg hgo

theorem execDecSlot_withPixels {s t : State} (m : Memory) (h : execDecSlot s = .next t) :
    execDecSlot (withPixels m s) = .next (withPixels m t) := by
  obtain ⟨u, rfl, ⟨hd, hi, hn⟩ | ⟨hd, hi, hn⟩ | ⟨hd, hn⟩⟩ := execDecSlot_cases s <;>
    obtain rfl := Host.Outcome.next.inj (hn.symm.trans h) <;>
    simp only [execDecSlot]
  · exact (if_pos hd).trans (if_pos hi)
  · rw [← afterCharacter_withPixels]
    exact (if_pos hd).trans (if_neg (Nat.not_le.2 hi))
  · rw [← afterCharacter_withPixels]
    exact if_neg (ne_true_of_eq_false hd)

/-- A store reads no pixel: with other pixels stored it does the same to the block. -/
theorem execEncStore_withPixels {s t : State} (m : Memory) (h : execEncStore s = .next t) :
    ∃ u, execEncStore (withPixels m s) = .next u ∧ u.block = t.block := by
  obtain ⟨hx, hy, hw, v, rfl, hcases⟩ := execEncStore_cases h
  rw [execEncStore_of_writable (s := withPixels m s) ((inGrid_iff _ _ _).2 ⟨hx, hy⟩) hw rfl]
  rcases hcases with ⟨hend, rfl⟩ | ⟨hmore, rfl⟩
  · exact ⟨_, if_pos hend, by simp⟩
  · exact ⟨_, if_neg (ne_true_of_eq_false hmore), by simp⟩

/-- A load reads the pixel at the cursor and no other. -/
theorem pixelAt_withPixels {s : State} {m : Memory} {x y : Half}
    (hm : storedAt m (pixelKey x y) = storedAt s.grid.pixels (pixelKey x y)) :
    pixelAt (withPixels m s) x y = pixelAt s x y :=
  congrArg (readStored s.params) hm

theorem execEncLoad_withPixels {s t : State} {m : Memory} (h : execEncLoad s = .next t)
    (hm : pixelAt (withPixels m s) s.block.x s.block.y = pixelAt s s.block.x s.block.y) :
    execEncLoad (withPixels m s) = .next (withPixels m t) := by
  obtain ⟨hx, hy, rfl⟩ := execEncLoad_next h
  simp only [execEncLoad, withPixels_block, gridRead_of_lt (s := withPixels m s) hx hy, hm]
  rfl

theorem execDecLoad_withPixels {s t : State} {m : Memory} (h : execDecLoad s = .next t)
    (hm : pixelAt (withPixels m s) s.block.x s.block.y = pixelAt s s.block.x s.block.y) :
    execDecLoad (withPixels m s) = .next (withPixels m t) := by
  obtain ⟨hx, hy, rfl⟩ := execDecLoad_next h
  simp only [execDecLoad, withPixels_block, gridRead_of_lt (s := withPixels m s) hx hy, hm]
  rfl

/-- The micro-operation does the same to the block on any grid with the same inputs and the same pixel at the cursor. -/
theorem exec_phase_withPixels {i : Instr} {s t : State} {m : Memory}
    (hd : decode (.phase s.block.phase) = .ok i) (h : exec i s = .next t)
    (hm : storedAt m (pixelKey s.block.x s.block.y) = storedAt s.grid.pixels (pixelKey s.block.x s.block.y)) :
    ∃ u, exec i (withPixels m s) = .next u ∧ u.block = t.block := by
  have hpixel := pixelAt_withPixels hm
  rcases decode_phase_cases hd with ⟨-, rfl⟩ | ⟨-, rfl⟩ | ⟨-, rfl⟩ | ⟨-, rfl⟩ | ⟨-, rfl⟩ | ⟨-, rfl⟩
  · cases h; exact ⟨_, rfl, rfl⟩
  · exact ⟨_, execEncLoad_withPixels h hpixel, rfl⟩
  · exact ⟨_, execEncSlot_withPixels m h, rfl⟩
  · exact execEncStore_withPixels m h
  · exact ⟨_, execDecLoad_withPixels h hpixel, rfl⟩
  · exact ⟨_, execDecSlot_withPixels m h, rfl⟩

/-- ENC_STORE is selected in an encode only. -/
theorem encoding_of_decode_encStore {s : State} (h : decode (.phase s.block.phase) = .ok .encStore) : encoding s := by
  rcases decode_phase_cases h with ⟨-, hi⟩ | ⟨-, hi⟩ | ⟨-, hi⟩ | ⟨hp, -⟩ | ⟨-, hi⟩ | ⟨-, hi⟩
  case inr.inr.inr.inl => exact .inr (.inr hp)
  all_goals cases hi

/-- Settles O51. -/
theorem transactionsStayInTheGrid : Obligations.TransactionsStayInTheGrid := by
  intro s i hi hd
  refine ⟨?_, ?_, fun t h k hk => ?_, fun t m h hm => exec_phase_withPixels hd h hm⟩
  · rcases exec_phase_outcomes hi hd with ⟨t, h⟩ | h <;> simp [h]
  · rcases exec_phase_outcomes hi hd with ⟨t, h⟩ | h <;> simp [h]
  · obtain ⟨rfl, hkey, hx, hy, hw⟩ := exec_changed_pixel h hk
    exact ⟨hkey, hx, hy, hw, encoding_of_decode_encStore hd⟩

end Sys2Proof.Proofs
end

section
/-! PROOFS. Decoding against encoding: commands by their low two bits, micro-operations by `PHASE`, and both through
bytes (30_encoding.md R80 to R88). -/

namespace Sys2Proof.Proofs

open Sys2Proof.Machine

/-! ## Command words -/

/-- The command field has code `c` exactly when the word is `c` modulo 4 (30_encoding.md R80). -/
theorem commandField_eq_iff (v : Word) (c : BitVec 2) : commandField v = c ↔ v.toNat % 4 = c.toNat := by
  simp [commandField, ← BitVec.toNat_inj]

/-- The command field of a word written with code `c` is `c`, whatever the reserved bits. -/
@[simp] theorem commandField_commandWord (reserved : BitVec 30) (c : BitVec 2) :
    commandField (commandWord reserved c) = c :=
  BitVec.extractLsb'_append_eq_right

/-- A word is its bits [31:2] above its command field (30_encoding.md R80). -/
theorem commandWord_commandField (v : Word) : commandWord (v.extractLsb' 2 30) (commandField v) = v :=
  (BitVec.extractLsb'_append_extractLsb'_eq_extractLsb' rfl).trans BitVec.extractLsb'_eq_self

/-- The four commands by their codes (30_encoding.md R81). -/
theorem decodeCommand_cases (v : Word) :
    (commandField v = 0#2 ∧ decodeCommand v = .nop) ∨ (commandField v = 1#2 ∧ decodeCommand v = .encode) ∨
    (commandField v = 2#2 ∧ decodeCommand v = .decode) ∨ (commandField v = 3#2 ∧ decodeCommand v = .illegal) := by
  have four_codes : ∀ c : BitVec 2, c = 0#2 ∨ c = 1#2 ∨ c = 2#2 ∨ c = 3#2 := by decide
  rcases four_codes (commandField v) with h | h | h | h <;> simp [decodeCommand, h]

/-- Settles O1: each clause gives the command field its code. -/
theorem commandSelectedByLowTwoBits : Obligations.CommandSelectedByLowTwoBits := by
  intro v s
  refine ⟨fun h => ?_, fun h => ?_, fun h => ?_, fun h => ?_, fun hb => ?busy⟩
  case busy => simp [acceptCommand, hb]
  all_goals simp [decode, decodeCommand, commandField_eq_iff, h]

/-! ## Decode and encode -/

/-- An encoded instruction decodes to itself, whatever the reserved bits it is written with. -/
theorem decode_encodeWith (reserved : BitVec 30) (i : Instr) : decode (encodeWith reserved i) = .ok i := by
  cases i with
  | nop | encode | decode | illegal => simp [encodeWith, decode, decodeCommand]
  | idle | encLoad | encSlot | encStore | decLoad | decSlot => rfl

/-- A command word is the encoding of its command with the word's own bits [31:2]. -/
theorem encodeWith_decodeCommand (v : Word) : encodeWith (v.extractLsb' 2 30) (decodeCommand v) = .command v := by
  have hv := commandWord_commandField v
  rcases decodeCommand_cases v with ⟨hc, hi⟩ | ⟨hc, hi⟩ | ⟨hc, hi⟩ | ⟨hc, hi⟩ <;> rw [hc] at hv <;>
    rw [hi, encodeWith, hv]

/-- What a word decodes to is encoded by that word, for some reserved bits. -/
theorem exists_encodeWith_of_decode {c : CodeWord} {i : Instr} (h : decode c = .ok i) :
    ∃ reserved, c = encodeWith reserved i := by
  cases c with
  | command v =>
    cases h
    exact ⟨_, (encodeWith_decodeCommand v).symm⟩
  | phase p =>
    refine ⟨0#30, ?_⟩
    rcases decode_phase_cases h with ⟨rfl, rfl⟩ | ⟨rfl, rfl⟩ | ⟨rfl, rfl⟩ | ⟨rfl, rfl⟩ | ⟨rfl, rfl⟩ | ⟨rfl, rfl⟩ <;>
      rfl

/-! ## Bytes -/

/-- The four bytes of a word, the last the most significant, make the word (20_memory.md R64). -/
theorem append_wordBytes (v : Word) :
    v.extractLsb' 24 8 ++ v.extractLsb' 16 8 ++ v.extractLsb' 8 8 ++ v.extractLsb' 0 8 = v := by
  have upper16 : v.extractLsb' 24 8 ++ v.extractLsb' 16 8 = v.extractLsb' 16 16 :=
    BitVec.extractLsb'_append_extractLsb'_eq_extractLsb' rfl
  have upper24 : v.extractLsb' 16 16 ++ v.extractLsb' 8 8 = v.extractLsb' 8 24 :=
    BitVec.extractLsb'_append_extractLsb'_eq_extractLsb' rfl
  have all32 : v.extractLsb' 8 24 ++ v.extractLsb' 0 8 = v.extractLsb' 0 32 :=
    BitVec.extractLsb'_append_extractLsb'_eq_extractLsb' rfl
  rw [upper16, upper24, all32, BitVec.extractLsb'_eq_self]

/-- The bytes of a word decode as the word does. -/
theorem decodeBytes_codeBytes (c : CodeWord) : decodeBytes (codeBytes c) = decode c := by
  cases c with
  | command v => simp only [codeBytes, decodeBytes, append_wordBytes]
  | phase p =>
    have hlt : (p.setWidth 8).toNat < 8 := by bv_omega
    have hback : (p.setWidth 8).setWidth 3 = p := BitVec.setWidth_setWidth_of_le p (by decide)
    simp only [codeBytes, decodeBytes, if_pos hlt, hback]

/-- Settles O3. -/
theorem decodingUndoesEncoding : Obligations.DecodingUndoesEncoding :=
  ⟨decode_encodeWith, fun _ _ => exists_encodeWith_of_decode, decodeBytes_codeBytes⟩

/-- Settles O2: the six legal values are the codes of their micro-operations. -/
theorem phaseValuesNameTheirMicroOps : Obligations.PhaseValuesNameTheirMicroOps :=
  ⟨decode_encodeWith 0#30 .idle, decode_encodeWith 0#30 .encLoad, decode_encodeWith 0#30 .encSlot,
    decode_encodeWith 0#30 .encStore, decode_encodeWith 0#30 .decLoad, decode_encodeWith 0#30 .decSlot, rfl, rfl⟩

/-- Settles O4: fourteen closed evaluations of the decoder. -/
theorem listedWordsDecodeToTheirRows : Obligations.ListedWordsDecodeToTheirRows := by
  unfold Obligations.ListedWordsDecodeToTheirRows
  decide

end Sys2Proof.Proofs
end

section
/-! PROOFS. The host's operations and the expansions of `WAIT_DONE` and `SET_MSG` (30_encoding.md R89 to R91). -/

namespace Sys2Proof.Proofs

open Sys2Proof.Machine

/-! ## One operation of the host -/

/-- The host performs the line it stands on. -/
theorem hostTurn_of_line {s : State} {op : HostOp} (h : s.host.prog[s.host.pc]? = some op) :
    hostTurn s = hostPerform op s := by
  simp [hostTurn, hostOp, h]

/-- What a register reads as does not depend on the host's line. -/
theorem readReg_hostAdvance (s : State) (r : Reg) :
    readReg (hostAdvance s) r = ((readReg s r).1, hostAdvance (readReg s r).2) := by
  cases r with
  | out i =>
    have hc : outCharacter (hostAdvance s) i = outCharacter s i := rfl
    simp only [readReg, hc]
    cases outCharacter s i <;> rfl
  | _ => rfl

/-- A read that answers answers the same from the host's next line. -/
theorem memRead_hostAdvance {s t : State} {addr v : Word} {width : Nat} (h : memRead addr width s = .ok (v, t)) :
    memRead addr width (hostAdvance s) = .ok (v, hostAdvance t) := by
  unfold memRead at h ⊢
  split at h
  · next offered => rw [if_pos offered, hostAdvance_params, readReg_hostAdvance, Except.ok.inj h]
  · cases h

/-- `R32` assigns what the read returns and moves to the next line. -/
theorem hostTurn_read {s t : State} {addr v : Word} {width n : Nat}
    (hop : s.host.prog[s.host.pc]? = some (.read addr width n)) (hr : memRead addr width s = .ok (v, t)) :
    hostTurn s = .next (hostAssign n v (hostAdvance t)) := by
  rw [hostTurn_of_line hop]
  simp only [hostPerform, memRead_hostAdvance hr]

/-- `BNZ` on a name whose masked value is zero goes on. -/
theorem hostTurn_bnz_clear {s : State} {n l : Nat} {mask v : Word}
    (hop : s.host.prog[s.host.pc]? = some (.bnz n mask l)) (hv : lookupAt n s.host.names = some v)
    (h : v &&& mask = 0#32) : hostTurn s = .next (hostAdvance s) := by
  rw [hostTurn_of_line hop]
  simp [hostPerform, hostBranch, hv, h]

/-- `BNZ` on a name whose masked value is not zero goes to the first line of its label. -/
theorem hostTurn_bnz_set {s : State} {n l k : Nat} {mask v : Word}
    (hop : s.host.prog[s.host.pc]? = some (.bnz n mask l)) (hv : lookupAt n s.host.names = some v)
    (h : v &&& mask ≠ 0#32) (hk : s.host.prog[k]? = some (.label l))
    (hfirst : ∀ j, j < k → s.host.prog[j]? ≠ some (.label l)) : hostTurn s = .next (hostGoto k s) := by
  have hline : labelLine l s.host.prog 0 = some k := by
    rw [labelLine_of_first l _ 0 k hk hfirst, Nat.zero_add]
  rw [hostTurn_of_line hop]
  simp [hostPerform, hostBranch, hv, h, hline]

/-- Settles O45: of the state a read can change only the count of draws. -/
theorem hostProgramOperations : Obligations.HostProgramOperations := by
  intro s
  refine ⟨fun addr n v t hop _ hr => ?read, fun l hop => hostTurn_of_line hop,
    fun n mask l v hop hv => ⟨hostTurn_bnz_clear hop hv, fun h k => hostTurn_bnz_set hop hv h⟩⟩
  case read =>
    refine ⟨putAt n v s.host.names, ?_, fun m => lookupAt_putAt m n v _⟩
    have ht : t = { s with draws := t.draws } := readsChangeNothing addr 4 s t v hr
    rw [hostTurn_read hop hr, ht]
    rfl

/-! ## `WAIT_DONE` -/

/-- The labels a program defines are those of its label lines. -/
theorem mem_labelsOf (l : Nat) (prog : List HostOp) : l ∈ labelsOf prog ↔ HostOp.label l ∈ prog := by
  induction prog with
  | nil => simp [labelsOf]
  | cons op rest ih => cases op <;> simp [labelsOf, ih]

/-- Bit 0 of `STATUS` masked out is zero exactly when the block is idle (10_state.md R35). -/
theorem statusWord_and_one (s : State) : statusWord s &&& 1#32 = 0#32 ↔ busy s = false := by
  rw [BitVec.and_one_eq_setWidth_ofBool_getLsbD, (statusWord_fields s).1]
  cases busy s <;> decide

section
variable (pre post : List HostOp) (l n : Nat)

/-- Line `i` of a `WAIT_DONE` inside a program. -/
theorem waitDone_line {i : Nat} (hi : i < 3) :
    (pre ++ waitDone l n ++ post)[pre.length + i]? = (waitDone l n)[i]? := by
  rw [List.append_assoc, List.getElem?_append_right (by omega), Nat.add_sub_cancel_left,
    List.getElem?_append_left hi]

/-- The label of a `WAIT_DONE` that is not defined before it stands on no line before it. -/
theorem label_not_before_waitDone (hl : l ∉ labelsOf pre) {j : Nat} (hj : j < pre.length) :
    (pre ++ waitDone l n ++ post)[j]? ≠ some (.label l) := by
  rw [List.append_assoc, List.getElem?_append_left hj]
  exact fun h => hl ((mem_labelsOf l pre).2 (List.mem_of_getElem? h))

end

/-- Settles O47: the name read is `STATUS`, whose bit 0 is `BUSY`. -/
theorem waitDoneLoopsWhileBusy : Obligations.WaitDoneLoopsWhileBusy := by
  intro s pre post l n hprog hl hpc
  have line {i : Nat} (hi : i < 3) : s.host.prog[pre.length + i]? = (waitDone l n)[i]? :=
    hprog ▸ waitDone_line pre post l n hi
  have hread : hostTurn s = .next (hostAssign n (statusWord s) (hostAdvance s)) :=
    hostTurn_read (hpc ▸ line (by decide : 1 < 3)) (memRead_fixed rfl (by decide) s)
  let t := hostAssign n (statusWord s) (hostAdvance s)
  have hname : lookupAt n t.host.names = some (statusWord s) := lookupAt_putAt_same n _ _
  have hbnz : t.host.prog[t.host.pc]? = some (.bnz n 1#32 l) := by
    have hline : t.host.pc = pre.length + 2 := congrArg (· + 1) hpc
    exact hline ▸ line (by decide : 2 < 3)
  cases hb : busy s with
  | true =>
    have hset : statusWord s &&& 1#32 ≠ 0#32 := by simp [statusWord_and_one, hb]
    have hgoto : hostTurn t = .next (hostGoto pre.length t) :=
      hostTurn_bnz_set hbnz hname hset (line (by decide : 0 < 3)) fun j hj =>
        hprog ▸ label_not_before_waitDone pre post l n hl hj
    have hphase : s.block.phase ≠ 0#3 := of_decide_eq_true hb
    exact ⟨t, _, _, hread, hgoto, hname, rfl, fun _ => rfl, fun hidle => absurd hidle hphase⟩
  | false =>
    have hnext : hostTurn t = .next (hostAdvance t) :=
      hostTurn_bnz_clear hbnz hname ((statusWord_and_one s).2 hb)
    have hphase : s.block.phase = 0#3 := (busy_eq_false_iff s).1 hb
    exact ⟨t, _, _, hread, hnext, hname, rfl, fun hbusy => absurd hphase hbusy,
      fun _ => ⟨by simp [t, hpc], (statusWord_fields s).1.trans hb⟩⟩

/-! ## `SET_MSG` -/

/-- The writes of the code units, by position (30_encoding.md R91). -/
theorem setMsgFrom_eq_mapIdx (k : Nat) (us : List Word) :
    setMsgFrom k us = us.mapIdx fun i u => w32 (BitVec.ofNat 32 (msgBase + 4 * (k + i))) u := by
  induction us generalizing k with
  | nil => rfl
  | cons u rest ih => simp [setMsgFrom, ih, List.mapIdx_cons, Nat.add_assoc, Nat.add_comm 1]

theorem setMsg_length (us : List Word) : (setMsg us).length = us.length + 1 := by
  simp [setMsg, setMsgFrom_eq_mapIdx]

/-- Operation `i` of `SET_MSG` writes code unit `i`. -/
theorem setMsg_unit {us : List Word} {i : Nat} {u : Word} (h : us[i]? = some u) :
    (setMsg us)[i]? = some (.write (BitVec.ofNat 32 (0x01000000 + 4 * i)) 4 u) := by
  have hi : i < us.length := (List.getElem?_eq_some_iff.1 h).1
  rw [setMsg, setMsgFrom_eq_mapIdx, List.getElem?_append_left (by simpa using hi), List.getElem?_mapIdx, h,
    Nat.zero_add]
  rfl

/-- The last operation of `SET_MSG` writes the number of code units to `MSG_LEN`. -/
theorem setMsg_last (us : List Word) :
    (setMsg us)[us.length]? = some (.write 0x08#32 4 (BitVec.ofNat 32 us.length)) := by
  simp [setMsg, setMsgFrom_eq_mapIdx, w32]

/-- Settles O46: a text is the list of its characters' numbers. -/
theorem setMsgExpandsToItsWrites : Obligations.SetMsgExpandsToItsWrites := by
  refine ⟨fun us => ⟨setMsg_length us, fun i u => setMsg_unit, setMsg_last us⟩, ?text⟩
  rintro cs text rfl
  rw [setMsgText_eq, textUnits_ofList]
  generalize hus : (cs.map fun c => BitVec.ofNat 32 c.toNat) = us
  have hlen : us.length = cs.length := by simp [← hus]
  rw [← hlen]
  exact ⟨setMsg_length us, fun i c hc => setMsg_unit (by simp [← hus, hc]), setMsg_last us⟩

end Sys2Proof.Proofs
end

section
/-! PROOFS. Control (40_control.md): how a command begins or ends its operation, whose turn runs what, and that the host
cannot reach a busy block (R100 to R106). -/

namespace Sys2Proof.Proofs

open Sys2Proof.Machine

/-! ## The host beside a busy block -/

/-- While busy a command is not performed (40_control.md R100). -/
theorem acceptCommand_of_busy {s : State} (h : busy s = true) (v : Word) : acceptCommand v s = .next s := if_pos h

/-- A write that goes on while the block is busy changes nothing (20_memory.md R58). -/
theorem memWrite_next_of_busy {addr v : Word} {width : Nat} {s t : State} (hb : busy s = true)
    (h : memWrite addr width v s = .next t) : t = s := by
  rcases memWrite_cases h with ⟨-, hc⟩ | ht | ⟨hidle, -⟩ | ⟨hidle, -⟩
  · rw [acceptCommand_of_busy hb] at hc
    cases hc; rfl
  · exact ht
  · simp [hb] at hidle
  · simp [hb] at hidle

/-- A branch that goes on changes only the host's line. -/
theorem hostBranch_next {name l : Nat} {mask : Word} {s t : State} (h : hostBranch name mask l s = .next t) :
    ∃ k, t = hostGoto k s := by
  unfold hostBranch at h
  split at h
  · cases h
  · split at h
    · cases h; exact ⟨s.host.pc + 1, rfl⟩
    · split at h
      · cases h
      · next k _ => cases h; exact ⟨k, rfl⟩

/-- Of a state with a busy block an operation of the host changes only the host itself and the count of draws. -/
theorem hostPerform_of_busy {op : HostOp} {s t : State} (hb : busy s = true) (h : hostPerform op s = .next t) :
    ∃ host draws, t = { s with host := host, draws := draws } := by
  cases op with
  | write addr width v =>
    obtain rfl := memWrite_next_of_busy (s := hostAdvance s) hb h
    exact ⟨_, _, rfl⟩
  | read addr width name =>
    simp only [hostPerform] at h
    split at h
    · cases h
    · next v u hr =>
      have hu : u = { hostAdvance s with draws := u.draws } := readsChangeNothing _ _ _ _ _ hr
      cases h
      rw [hu]
      exact ⟨_, _, rfl⟩
  | label l => cases h; exact ⟨_, _, rfl⟩
  | bnz name mask l =>
    obtain ⟨k, rfl⟩ := hostBranch_next h
    exact ⟨_, _, rfl⟩

/-- Settles O41: a turn of the host is one operation, or nothing when its program has ended. -/
theorem hostCannotDisturbABusyBlock : Obligations.HostCannotDisturbABusyBlock := by
  intro s t hb h
  unfold hostTurn at h
  split at h
  · cases h; exact ⟨rfl, rfl, rfl, rfl, rfl⟩
  · obtain ⟨_, _, rfl⟩ := hostPerform_of_busy hb h
    exact ⟨rfl, rfl, rfl, rfl, rfl⟩

/-! ## Whose turn runs what -/

/-- The agent at the head of the agenda moves, from the state with its entry taken off (20_memory.md R68). -/
theorem step_of_agenda_cons {s : State} {e : Event} {rest : List Event} (h : s.agenda = e :: rest) :
    step s = perform e { s with agenda := rest } := by
  simp [step, nextEvent, popAgenda, h]

/-- The block's turn runs what `PHASE` decodes to (40_control.md R106). -/
theorem blockTurn_of_decode {s : State} {i : Instr} (h : decode (.phase s.block.phase) = .ok i) :
    blockTurn s = exec i s := by
  simp only [blockTurn, h]

/-- The block's turn at a reserved phase is a fault (30_encoding.md R87). -/
theorem blockTurn_reserved {s : State} (h : 6 ≤ s.block.phase.toNat) : blockTurn s = .fault .phaseReserved := by
  have reserved : s.block.phase = 6#3 ∨ s.block.phase = 7#3 := by bv_omega
  unfold blockTurn
  rcases reserved with hp | hp <;> rw [hp] <;> rfl

/-- Settles O5: the turn comes from the agenda, or by default to a busy block. -/
theorem blockTurnRunsThePhase : Obligations.BlockTurnRunsThePhase := by
  refine fun s => ⟨fun rest i ha hd => ?listed, fun i ha hp hd => ?byDefault, fun hp ha => ?reserved⟩
  case listed => exact (step_of_agenda_cons ha).trans (blockTurn_of_decode hd)
  case byDefault => exact (step_of_busy (decide_eq_true hp) ha).trans (blockTurn_of_decode hd)
  case reserved =>
    rcases ha with ha | ⟨rest, ha⟩
    · have hne : s.block.phase ≠ phaseIdle := by unfold phaseIdle; bv_omega
      exact (step_of_busy (decide_eq_true hne) ha).trans (blockTurn_reserved hp)
    · exact (step_of_agenda_cons ha).trans (blockTurn_reserved hp)

/-! ## A command written to `CTRL` -/

/-- An idle block performs the command written (40_control.md R100). -/
theorem acceptCommand_of_idle {s : State} {v : Word} {i : Instr} (h : busy s = false)
    (hd : decode (.command v) = .ok i) : acceptCommand v s = exec i s := by
  cases hd
  simp [acceptCommand, h]

/-- Settles O6: the host's line is a write of `CTRL`, which offers the command to the block. -/
theorem controlWritePerformsItsCommand : Obligations.ControlWritePerformsItsCommand := by
  intro s rest v ha hop t ht
  have hphase : t.block.phase = s.block.phase := by rw [ht]
  have hstep : step s = acceptCommand v t :=
    calc step s = hostTurn { s with agenda := rest } := step_of_agenda_cons ha
      _ = memWrite 0#32 4 v t := ht.symm ▸ hostTurn_of_line (s := { s with agenda := rest }) hop
      _ = acceptCommand v t := memWrite_fixed rfl (by decide) v t
  have performed {i : Instr} (hp : s.block.phase = 0#3) (hd : decode (.command v) = .ok i) : step s = exec i t :=
    hstep.trans (acceptCommand_of_idle ((busy_eq_false_iff t).2 (hphase.trans hp)) hd)
  obtain ⟨hnop, hencode, hdecode, hillegal, -⟩ := commandSelectedByLowTwoBits v t
  exact ⟨fun hp => hstep.trans (acceptCommand_of_busy (decide_eq_true (hphase ▸ hp)) v),
    fun hp hv => performed hp (hnop hv), fun hp hv => performed hp (hencode hv),
    fun hp hv => performed hp (hdecode hv), fun hp hv => performed hp (hillegal hv)⟩

/-! ## What each command does -/

/-- Settles O7: a busy block ignores the write, an idle one performs NOP. -/
theorem nopChangesNothing : Obligations.NopChangesNothing := by
  refine fun s => ⟨rfl, fun v hv => ?_⟩
  obtain ⟨hnop, -⟩ := commandSelectedByLowTwoBits v s
  cases hb : busy s with
  | true => exact acceptCommand_of_busy hb v
  | false => exact acceptCommand_of_idle hb (hnop hv)

/-- The slots of a carrier in the order of factors the capacity check of 40_control.md R102 has. -/
theorem carrierSlots_eq (g : Grid) : carrierSlots g = 3 * g.w.toNat * g.h.toNat := (Nat.mul_assoc _ _ _).symm

/-- Settles O8: each clause decides the checks before the one it is about. -/
theorem encodeAcceptance : Obligations.EncodeAcceptance := by
  intro s
  have hexec : exec .encode s = execEncode s := rfl
  rw [hexec, execEncode, carrierSlots_eq, streamLength]
  refine ⟨fun hro => if_pos hro, fun hw hlen => ?tooLong, fun hw hlen hcap => ?noRoom, fun hw hlen hfits => ?starts⟩
  case tooLong => rw [if_neg (by simp [hw]), if_pos hlen]; rfl
  case noRoom => rw [if_neg (by simp [hw]), if_neg (Nat.not_lt.2 hlen), if_pos hcap]; rfl
  case starts => rw [if_neg (by simp [hw]), if_neg (Nat.not_lt.2 hlen), if_neg (Nat.not_lt.2 hfits)]; rfl

/-- Settles O9: the one check is of the grid's size. -/
theorem decodeAcceptance : Obligations.DecodeAcceptance :=
  fun _ => ⟨fun hempty => if_pos hempty, fun hw hh => if_neg (not_or.2 ⟨hw, hh⟩)⟩

/-- Settles O10: the command is `finish(ILLEGAL_COMMAND)`, and a busy block does not perform it. -/
theorem illegalCommandReports : Obligations.IllegalCommandReports :=
  fun _ => ⟨rfl, fun v _ hp => acceptCommand_of_busy (decide_eq_true hp) v⟩

/-- Settles O11: IDLE answers the state it is given. -/
theorem idleBlockTakesNoStep : Obligations.IdleBlockTakesNoStep := fun _ => rfl

end Sys2Proof.Proofs
end

section
/-! PROOFS. The encode bitstream: the message's bits and the terminator's (41_bitstream_encoder.md R120 to R123). -/

namespace Sys2Proof.Proofs

open Sys2Proof.Machine

/-! ## The bits by their place -/

/-- Past the message the stream has the terminator's zeros (41_bitstream_encoder.md R121). -/
theorem streamBit_of_terminator {b : Block} {i : Nat} (h : 8 * b.msgLen.toNat ≤ i) : streamBit b i = some false :=
  if_neg (Nat.not_lt.2 h)

/-- Bit `k` of the eight of code unit `j`, the most significant first (41_bitstream_encoder.md R121). -/
theorem streamBit_of_unit {b : Block} {j k : Nat} {u : Word} (hj : j < b.msgLen.toNat)
    (hu : lookupAt j b.msg = some u) (hk : k < 8) : streamBit b (8 * j + k) = some (u.getLsbD (7 - k)) := by
  have hdiv : (8 * j + k) / 8 = j := by omega
  have hmod : (8 * j + k) % 8 = k := by omega
  have hcases := streamBit_cases b (8 * j + k)
  rw [hdiv, hmod, hu] at hcases
  rcases hcases with ⟨hpast, -⟩ | ⟨-, hnone, -⟩ | ⟨-, v, hv, hbit⟩
  · omega
  · cases hnone
  · cases hv; exact hbit

/-- A stream bit is one of the code unit modulo 256: the code unit is used in no other way (41_bitstream_encoder.md
R122). -/
theorem streamBit_eq_testBit (b : Block) (i : Nat) :
    streamBit b i =
      if i < 8 * b.msgLen.toNat then
        ((lookupAt (i / 8) b.msg).map fun u => u.toNat % 256).map fun m => m.testBit (7 - i % 8)
      else some false := by
  rw [streamBit, Option.map_map]
  rfl

/-! ## The whole stream -/

/-- A listing of `n` groups of `d`, group by group. -/
theorem map_range_mul {α : Type} (f : Nat → α) (d n : Nat) :
    (List.range (d * n)).map f = (List.range n).flatMap fun j => (List.range d).map fun k => f (d * j + k) := by
  induction n with
  | zero => rfl
  | succ n ih =>
    rw [Nat.mul_succ, List.range_add, List.map_append, ih, List.map_map, List.range_succ, List.flatMap_append,
      List.flatMap_singleton]
    rfl

/-- Settles O28: the stream goes by groups of eight, one for each code unit and one for the terminator. -/
theorem streamIsMessageThenTerminator : Obligations.StreamIsMessageThenTerminator := by
  intro b u hmsg
  rw [map_range_mul, List.range_succ (n := b.msgLen.toNat), List.flatMap_append, List.flatMap_singleton]
  refine congrArg₂ (· ++ ·) (List.flatMap_congr fun j hj => ?units) ?terminator
  case units =>
    have hlt := List.mem_range.1 hj
    calc (List.range 8).map (fun k => streamBit b (8 * j + k))
        = (List.range 8).map (fun k => some ((u j).getLsbD (7 - k))) :=
          List.map_congr_left fun k hk => streamBit_of_unit hlt (hmsg j hlt) (List.mem_range.1 hk)
      _ = _ := rfl
  case terminator =>
    calc (List.range 8).map (fun k => streamBit b (8 * b.msgLen.toNat + k))
        = (List.range 8).map (fun _ => some false) :=
          List.map_congr_left fun k _ => streamBit_of_terminator (Nat.le_add_right _ k)
      _ = List.replicate 8 (some false) := rfl

/-- Settles O29: a stream bit is one of the code unit modulo 256, or a zero of the terminator. -/
theorem streamMasksCodeUnits : Obligations.StreamMasksCodeUnits := by
  refine ⟨fun b b' hlen hmod i => ?masked, fun b i u hu => ?written, fun b hempty => ?empty⟩
  case masked => rw [streamBit_eq_testBit, streamBit_eq_testBit, hlen, hmod]
  case written =>
    rw [streamBit_eq_testBit, hu]
    split
    · rfl
    · rfl
  case empty =>
    have hzero : b.msgLen.toNat = 0 := by rw [hempty]; rfl
    exact ⟨by rw [hzero]; rfl, fun i => streamBit_of_terminator (by omega)⟩

end Sys2Proof.Proofs
end

section
/-! PROOFS. The traversal: `Advance` follows the raster order (42_traversal.md R130, R131). -/

namespace Sys2Proof.Proofs

open Sys2Proof.Machine

/-- Settles O30: `Advance` leaves the cursor in a column of the grid, with the next index, and such a cursor is its
index's remainder and quotient by the width. -/
theorem advanceIsRasterOrder : Obligations.AdvanceIsRasterOrder := by
  intro s hx hy
  obtain ⟨x, y, ha, hcolumn, -, hindex⟩ := advance_next hx hy
  rw [ha]
  exact ⟨hindex, coordinates_of_index hcolumn hindex.symm⟩

end Sys2Proof.Proofs
end

section
/-! PROOFS. The parity toggle and the byte it writes (43_embedder.md R140 to R143). -/

namespace Sys2Proof.Proofs

open Sys2Proof.Machine

/-! ## Toggle by its bit -/

/-- With bit 0 an odd value moves, up unless it is the largest (43_embedder.md R140). -/
theorem toggle_false (v : Half) :
    toggle v false = if v.toNat % 2 = 1 then if v.toNat = 65535 then (v.toNat : Int) - 1 else v.toNat + 1
      else v.toNat := by
  have largest : (v.toNat : Int) = chMax ↔ v.toNat = 65535 := by unfold chMax; omega
  simp [toggle, parityBit_eq, largest]

/-- With bit 1 an even value moves, up unless it is 0 (43_embedder.md R140). -/
theorem toggle_true (v : Half) :
    toggle v true = if v.toNat % 2 = 0 then if v.toNat = 0 then (v.toNat : Int) - 1 else v.toNat + 1
      else v.toNat := by
  simp [toggle, parityBit_eq]

/-- Settles O25. -/
theorem toggleMakesTheseComparisons : Obligations.ToggleMakesTheseComparisons := by
  intro v
  simp only [toggle_false, toggle_true]
  exact ⟨fun hodd hmax => (if_pos hodd).trans (if_pos hmax), fun hodd hmax => (if_pos hodd).trans (if_neg hmax),
    fun heven => if_neg (by omega), fun heven hzero => (if_pos heven).trans (if_pos hzero),
    fun heven hzero => (if_pos heven).trans (if_neg hzero), fun hodd => if_neg (by omega)⟩

/-! ## What the toggle reaches -/

/-- A toggled value has the parity of the bit, also at the ends -1 and 65534 (43_embedder.md R142). -/
theorem toggle_emod_two (v : Half) (b : Bool) : toggle v b % 2 = b.toNat := by
  cases b with
  | false => rw [toggle_false, Bool.toNat_false]; split_ifs <;> omega
  | true => rw [toggle_true, Bool.toNat_true]; split_ifs <;> omega

/-- Settles O26: narrowing keeps the parity of the toggled value. -/
theorem writtenByteHasTheBitsParity : Obligations.WrittenByteHasTheBitsParity := by
  intro v b
  have hnarrow := narrow8_toNat_emod_two (toggle v b)
  rw [toggle_emod_two] at hnarrow
  exact_mod_cast hnarrow

/-- A value of the bit's parity stays (43_embedder.md R143). -/
theorem toggle_of_parity {v : Half} {b : Bool} (h : v.toNat % 2 = b.toNat) : toggle v b = v.toNat := by
  cases b with
  | false => rw [toggle_false]; exact if_neg (by rw [h]; decide)
  | true => rw [toggle_true]; exact if_neg (by rw [h]; decide)

/-- A value of the other parity moves by one: down where the move up would leave the range, up elsewhere (43_embedder.md
R143). -/
theorem toggle_of_other_parity {v : Half} {b : Bool} (h : v.toNat % 2 ≠ b.toNat) :
    toggle v b = if v.toNat = 65535 ∧ b = false ∨ v.toNat = 0 ∧ b = true then (v.toNat : Int) - 1 else v.toNat + 1 := by
  cases b with
  | false =>
    have hodd : v.toNat % 2 = 1 := Nat.mod_two_ne_zero.1 h
    simp [toggle_false, hodd]
  | true =>
    have heven : v.toNat % 2 = 0 := Nat.mod_two_ne_one.1 h
    simp [toggle_true, heven]

/-- The byte written, over its number (43_embedder.md R141). -/
theorem embedByte_toNat (v : Half) (b : Bool) : ((embedByte v b).toNat : Int) = toggle v b % 256 := narrow8_toNat _

/-- The byte written for a value read as `257·w`: such a value has the parity of `w`, and is at an end of its range
exactly when `w` is at an end of a byte's (43_embedder.md R143). -/
theorem embedByte_of_8bit (w : Byte) (b : Bool) :
    embedByte (BitVec.ofNat 16 (257 * w.toNat)) b =
      if w.toNat % 2 = b.toNat then w
      else if w.toNat = 255 ∧ b = false then 254#8
      else if w.toNat = 0 ∧ b = true then 255#8
      else w + 1#8 := by
  have hw := w.isLt
  have hv : (BitVec.ofNat 16 (257 * w.toNat)).toNat = 257 * w.toNat := by rw [BitVec.toNat_ofNat]; omega
  have hbyte := embedByte_toNat (BitVec.ofNat 16 (257 * w.toNat)) b
  apply BitVec.eq_of_toNat_eq
  by_cases hp : w.toNat % 2 = b.toNat
  · rw [toggle_of_parity (by omega), hv] at hbyte
    rw [if_pos hp]
    omega
  · have hlargest : 257 * w.toNat = 65535 ↔ w.toNat = 255 := by omega
    have hsmallest : 257 * w.toNat = 0 ↔ w.toNat = 0 := by omega
    rw [toggle_of_other_parity (by omega), hv] at hbyte
    simp only [hlargest, hsmallest] at hbyte
    rw [if_neg hp]
    by_cases hmax : w.toNat = 255 ∧ b = false
    · rw [if_pos (.inl hmax)] at hbyte
      rw [if_pos hmax, BitVec.toNat_ofNat]
      omega
    · by_cases hmin : w.toNat = 0 ∧ b = true
      · rw [if_pos (.inr hmin)] at hbyte
        rw [if_neg hmax, if_pos hmin, BitVec.toNat_ofNat]
        omega
      · rw [if_neg (not_or.2 ⟨hmax, hmin⟩)] at hbyte
        rw [if_neg hmax, if_neg hmin, BitVec.toNat_add, BitVec.toNat_ofNat]
        omega

/-- Settles O27. -/
theorem toggleMovesByAtMostOne : Obligations.ToggleMovesByAtMostOne := by
  refine ⟨fun v b => ⟨toggle_of_parity, fun h => ?_⟩, embedByte_of_8bit⟩
  rw [toggle_of_other_parity h]
  split_ifs <;> omega

end Sys2Proof.Proofs
end

section
/-! PROOFS. What each encode micro-operation does (43_embedder.md R144 to R146). -/

namespace Sys2Proof.Proofs

open Sys2Proof.Machine

/-- A pixel narrowed is the low bytes of its channels (43_embedder.md R144). -/
theorem map_narrowHalf (p : Quad Half) :
    p.map narrowHalf = ⟨p.r.setWidth 8, p.g.setWidth 8, p.b.setWidth 8, p.a.setWidth 8⟩ := by
  simp [Quad.map, narrowHalf_eq]

/-- ENC_LOAD at a pixel of the grid (43_embedder.md R144). -/
theorem execEncLoad_of_lt {s : State} (hx : s.block.x.toNat < s.grid.w.toNat) (hy : s.block.y.toNat < s.grid.h.toNat) :
    execEncLoad s = .next (setPhase phaseEncSlot (latchForEncode (pixelAt s s.block.x s.block.y) s)) := by
  simp only [execEncLoad, gridRead_of_lt hx hy]

/-- Settles O12. -/
theorem encLoadLatchesThePixel : Obligations.EncLoadLatchesThePixel := by
  rintro s hx hy p rfl
  rw [← map_narrowHalf]
  exact execEncLoad_of_lt hx hy

theorem streamDone_iff (s : State) :
    streamDone s = true ↔ s.block.nbits.toNat = 8 * (s.block.msgLen.toNat + 1) := decide_eq_true_iff

/-- Settles O13: the bit is embedded and counted before the test of where to go. -/
theorem encSlotEmbedsOneBit : Obligations.EncSlotEmbedsOneBit := by
  rintro s b hb n o rfl rfl
  have hexec : exec .encSlot s = execEncSlot s := rfl
  have hdone := streamDone_iff (countBit (embedBit b s))
  rw [hexec]
  simp only [execEncSlot, hb]
  exact ⟨fun hend => if_pos (hend.imp_left hdone.2), fun hmore hch => if_neg (not_or.2 ⟨mt hdone.1 hmore, hch⟩)⟩

/-- `Advance` with the cursor it goes to given (42_traversal.md R131). -/
theorem advance_eq_of_cursor {s : State} {x y : Half}
    (h : (x, y) = if s.block.x + 1#16 = s.grid.w then (0#16, s.block.y + 1#16) else (s.block.x + 1#16, s.block.y)) :
    advance s = { s with block := { s.block with x := x, y := y } } := by
  unfold advance
  split at h
  · next hlast => rw [if_pos hlast]; cases h; rfl
  · next hmore => rw [if_neg hmore]; cases h; rfl

/-- Settles O15: the store comes first, and leaves the cursor and the count of bits to `Advance` and the test. -/
theorem encStoreWritesThePixel : Obligations.EncStoreWritesThePixel := by
  intro s hx hy hw x' y' hxy
  refine ⟨_, fun k => storedAt_storePixel_written s.grid.pixels k _ s.block.o8, ?_⟩
  have hexec : exec .encStore s = execEncStore s := rfl
  have ha := advance_eq_of_cursor (s := { s with grid := { s.grid with
    pixels := storePixel s.grid.pixels (pixelKey s.block.x s.block.y) (.written s.block.o8) } }) hxy
  rw [hexec, execEncStore_of_writable ((inGrid_iff _ _ _).2 ⟨hx, hy⟩) hw rfl, ha]
  exact ⟨fun hend => if_pos ((streamDone_iff s).2 hend), fun hmore => if_neg (mt (streamDone_iff s).1 hmore)⟩

end Sys2Proof.Proofs
end

section
/-! PROOFS. A whole encode: the pixels written so far as an invariant of the run, and the steps left as its measure
(43_embedder.md R150, R152, 70_reset_and_hazards.md R228). -/

namespace Sys2Proof.Proofs

open Sys2Proof.Machine

/-! ## The pixels written so far -/

/-- In `m` the first `p` pixels of the grid of `s` carry the stream of its message (43_embedder.md R150), and the others
hold what they held in `s`. -/
def PixelsEncoded (s : State) (m : Memory) (p : Nat) : Prop :=
  ∀ x y : Half, x.toNat < s.grid.w.toNat → y.toNat < s.grid.h.toNat →
    storedAt m (pixelKey x y) =
      if y.toNat * s.grid.w.toNat + x.toNat < p then
        .written (encodedPixel s.block (streamLength s.block.msgLen.toNat) (y.toNat * s.grid.w.toNat + x.toNat)
          (pixelAt s x y))
      else storedAt s.grid.pixels (pixelKey x y)

theorem pixelsEncoded_zero (s : State) : PixelsEncoded s s.grid.pixels 0 := fun x y _ _ => by simp

/-- Two pixels of the grid with the same index are the same pixel. -/
theorem pixel_eq_of_index_eq {x y x' y' : Half} {w : Nat} (hx : x.toNat < w) (hx' : x'.toNat < w)
    (h : y.toNat * w + x.toNat = y'.toNat * w + x'.toNat) : x = x' ∧ y = y' := by
  obtain ⟨hmod, hdiv⟩ := coordinates_of_index hx rfl
  obtain ⟨hmod', hdiv'⟩ := coordinates_of_index hx' rfl
  rw [← h] at hmod' hdiv'
  exact ⟨BitVec.eq_of_toNat_eq (hmod.trans hmod'.symm), BitVec.eq_of_toNat_eq (hdiv.trans hdiv'.symm)⟩

/-- Writing the next pixel keeps the pixels before it and after it. -/
theorem PixelsEncoded.store {s : State} {m : Memory} {x y : Half} {p : Nat} (h : PixelsEncoded s m p)
    (hx : x.toNat < s.grid.w.toNat) (hp : y.toNat * s.grid.w.toNat + x.toNat = p) :
    PixelsEncoded s
      (storePixel m (pixelKey x y)
        (.written (encodedPixel s.block (streamLength s.block.msgLen.toNat) p (pixelAt s x y)))) (p + 1) := by
  intro x' y' hx' hy'
  rw [storedAt_storePixel_written]
  by_cases hcursor : pixelKey x' y' = pixelKey x y
  · obtain ⟨rfl, rfl⟩ := pixelKey_inj hcursor
    rw [if_pos rfl, if_pos (by omega), hp]
  · have hother : y'.toNat * s.grid.w.toNat + x'.toNat ≠ p := fun hq =>
      hcursor ((pixelKey_eq_iff _ _ _ _).2 (pixel_eq_of_index_eq hx' hx (hq.trans hp.symm)))
    rw [if_neg hcursor, h x' y' hx' hy']
    exact if_congr (by omega) rfl rfl

/-! ## What the run has done so far -/

/-- What an encode begun in `s` has done by the state `t`: the pixels before the cursor are written, and everything else
a run reads or reports is as in `s`. -/
structure EncodedBeforeCursor (s t : State) : Prop where
  params : t.params = s.params
  agenda : t.agenda = []
  width : t.grid.w = s.grid.w
  height : t.grid.h = s.grid.h
  writable : t.grid.writable = s.grid.writable
  msg : t.block.msg = s.block.msg
  msgLen : t.block.msgLen = s.block.msgLen
  outLen : t.block.outLen = s.block.outLen
  obuf : t.block.obuf = s.block.obuf
  pixels : PixelsEncoded s t.grid.pixels (pixelIndex t)

/-- An ENCODE that leaves the block busy is one that has started (40_control.md R102). -/
theorem execEncode_of_busy {s t : State} (h : execEncode s = .next t) (hb : busy t = true) :
    t = setPhase phaseEncLoad (homeCursor (beginOperation s)) := by
  rcases execEncode_cases h with ⟨-, rfl⟩ | ⟨-, -, rfl⟩ | ⟨-, -, -, rfl⟩ | ⟨-, -, -, ht⟩
  case inr.inr.inr => exact ht
  all_goals cases hb

/-- It starts with no pixel written. -/
theorem encodedBeforeCursor_start {s : State} (ha : s.agenda = []) :
    EncodedBeforeCursor s (setPhase phaseEncLoad (homeCursor (beginOperation s))) where
  params := rfl
  agenda := ha
  width := rfl
  height := rfl
  writable := rfl
  msg := rfl
  msgLen := rfl
  outLen := rfl
  obuf := rfl
  pixels := by simpa [pixelIndex] using pixelsEncoded_zero s

section
variable {s t : State} (h : EncodedBeforeCursor s t)
include h

/-- The stream is the one of the message the encode began with. -/
theorem EncodedBeforeCursor.streamBit_eq (i : Nat) : streamBit t.block i = streamBit s.block i := by
  unfold streamBit
  rw [h.msg, h.msgLen]

/-- So are the bytes it gives a pixel. -/
theorem EncodedBeforeCursor.encodedPixel_eq (nb q : Nat) (v : Quad Half) :
    encodedPixel t.block nb q v = encodedPixel s.block nb q v := by
  unfold encodedPixel streamBitOr
  simp only [h.streamBit_eq]

theorem EncodedBeforeCursor.cursor_index :
    t.block.y.toNat * s.grid.w.toNat + t.block.x.toNat = pixelIndex t := by
  rw [← h.width]
  rfl

/-- The pixel at the cursor is still to be written, so it reads as it did. -/
theorem EncodedBeforeCursor.pixelAt_cursor (ht : AtPixel t) :
    pixelAt t t.block.x t.block.y = pixelAt s t.block.x t.block.y := by
  have hkept := h.pixels t.block.x t.block.y (h.width ▸ ht.xInGrid) (h.height ▸ ht.yInGrid)
  rw [h.cursor_index, if_neg (lt_irrefl _)] at hkept
  unfold pixelAt
  rw [hkept, h.params]

end

/-! ## The pixel ENC_STORE writes -/

/-- Pixels with the same four channels are equal. -/
theorem quad_ext {α : Type} {p q : Quad α} (h : ∀ c, selectChannel p c = selectChannel q c) : p = q := by
  obtain ⟨r, g, b, a⟩ := p
  obtain ⟨r', g', b', a'⟩ := q
  obtain rfl : r = r' := h 0#2
  obtain rfl : g = g' := h 1#2
  obtain rfl : b = b' := h 2#2
  obtain rfl : a = a' := h 3#2
  rfl

/-- A channel of the pixel an encode writes: the slots have their bit up to the end of the stream, alpha has none
(43_embedder.md R150). -/
theorem selectChannel_encodedPixel (b : Block) (nb q : Nat) (v : Quad Half) (c : BitVec 2) :
    selectChannel (encodedPixel b nb q v) c =
      if c.toNat < 3 ∧ 3 * q + c.toNat < nb then
        embedByte (selectChannel v c) (streamBitOr b (3 * q + c.toNat))
      else narrowHalf (selectChannel v c) := by
  have four_channels : ∀ c : BitVec 2, c = 0#2 ∨ c = 1#2 ∨ c = 2#2 ∨ c = 3#2 := by decide
  rcases four_channels c with rfl | rfl | rfl | rfl <;> simp [selectChannel, encodedPixel, embedByte, narrowHalf_eq]

/-- The working copy that ENC_STORE writes: up to the end of the stream or of the pixel, every slot has its bit. -/
theorem workingCopy_at_store {t : State} (e : EncodeProgress t) (hp : t.block.phase = phaseEncStore) :
    t.block.o8 = encodedPixel t.block (streamLength t.block.msgLen.toNat) (pixelIndex t)
      (pixelAt t t.block.x t.block.y) := by
  obtain ⟨hn, hle, hend⟩ := e.storeCursor hp
  have hload : t.block.phase ≠ phaseEncLoad := by rw [hp]; decide
  refine quad_ext fun c => ?_
  rw [e.workingCopy hload, e.latched hload, selectChannel_encodedPixel]
  refine if_congr ?_ rfl rfl
  rcases hend with hlast | hch
  · rw [hlast]
  · rw [hch, BitVec.toNat_ofNat] at hn
    omega

/-- ENC_STORE writes the pixel at the cursor, which is then one before the cursor. -/
theorem EncodedBeforeCursor.store {s t : State} {x y : Half} (h : EncodedBeforeCursor s t) (e : EncodeProgress t)
    (hp : t.block.phase = phaseEncStore) (hxy : y.toNat * t.grid.w.toNat + x.toNat = pixelIndex t + 1) :
    EncodedBeforeCursor s { t with
      grid := { t.grid with
        pixels := storePixel t.grid.pixels (pixelKey t.block.x t.block.y) (.written t.block.o8) }
      block := { t.block with x := x, y := y } } := by
  have hstored := h.pixels.store (h.width ▸ e.atPixel.xInGrid) h.cursor_index
  rw [← h.encodedPixel_eq, ← h.pixelAt_cursor e.atPixel, ← h.msgLen, ← workingCopy_at_store e hp, ← hxy] at hstored
  exact { h with pixels := hstored }

/-! ## The steps left -/

/-- The stream of a written message has every bit (10_state.md R39). -/
theorem streamBit_of_written {b : Block} (h : messageWritten b) (i : Nat) : ∃ v, streamBit b i = some v := by
  rcases streamBit_cases b i with ⟨-, hb⟩ | ⟨hlt, hnone, -⟩ | ⟨-, u, -, hb⟩
  · exact ⟨_, hb⟩
  · have := h (i / 8) (by omega)
    simp [hnone] at this
  · exact ⟨_, hb⟩

theorem busy_of_encoding {t : State} (h : encoding t) : busy t = true := by
  rcases h with hp | hp | hp <;> simp [busy, hp] <;> decide

/-- The steps to the end of an encode of `nb` bits that has come to `t`: a slot for each bit left, and a load and a store
for each pixel left, the load of the present one done or not (70_reset_and_hazards.md R228). -/
def encodeStepsLeft (nb : Nat) (t : State) : Nat :=
  nb - t.block.nbits.toNat + 2 * (pixelsFor nb - pixelIndex t) - if t.block.phase = phaseEncLoad then 0 else 1

section
variable {nb : Nat} {t u : State}

theorem encodeStepsLeft_load (ht : t.block.phase = phaseEncLoad) (hu : u.block.phase ≠ phaseEncLoad)
    (hn : u.block.nbits = t.block.nbits) (hp : pixelIndex u = pixelIndex t) (hmore : t.block.nbits.toNat < nb) :
    encodeStepsLeft nb t = encodeStepsLeft nb u + 1 := by
  simp only [encodeStepsLeft, ht, hn, hp, if_pos, if_neg hu]
  omega

theorem encodeStepsLeft_slot (ht : t.block.phase ≠ phaseEncLoad) (hu : u.block.phase ≠ phaseEncLoad)
    (hn : u.block.nbits.toNat = t.block.nbits.toNat + 1) (hp : pixelIndex u = pixelIndex t)
    (hmore : t.block.nbits.toNat < nb) (hroom : pixelIndex t < pixelsFor nb) :
    encodeStepsLeft nb t = encodeStepsLeft nb u + 1 := by
  simp only [encodeStepsLeft, hn, hp, if_neg ht, if_neg hu]
  omega

theorem encodeStepsLeft_store (ht : t.block.phase ≠ phaseEncLoad) (hu : u.block.phase = phaseEncLoad)
    (hn : u.block.nbits = t.block.nbits) (hp : pixelIndex u = pixelIndex t + 1) (hroom : pixelIndex t < pixelsFor nb) :
    encodeStepsLeft nb t = encodeStepsLeft nb u + 1 := by
  simp only [encodeStepsLeft, hu, hn, hp, if_pos, if_neg ht]
  omega

theorem encodeStepsLeft_lastStore (ht : t.block.phase ≠ phaseEncLoad) (hn : t.block.nbits.toNat = nb)
    (hp : pixelIndex t + 1 = pixelsFor nb) : encodeStepsLeft nb t = 1 := by
  simp only [encodeStepsLeft, hn, ← hp, if_neg ht]
  omega

end

/-- The state in which an encode of the message of `s` ends (43_embedder.md R152). -/
structure EncodeEnded (s u : State) : Prop where
  encoded : EncodedBeforeCursor s u
  idle : busy u = false
  done : u.block.done = true
  result : u.block.result = 0#4
  nbits : u.block.nbits.toNat = streamLength s.block.msgLen.toNat
  column : u.block.x.toNat < s.grid.w.toNat
  cursor : pixelIndex u = pixelsFor (streamLength s.block.msgLen.toNat)
  channel : u.block.ch.toNat = (streamLength s.block.msgLen.toNat - 1) % 3

/-- What one step of an encode of `s` comes to: one step less is left, or it was the last. -/
def EncodeStepTo (s t u : State) : Prop :=
  (encoding u ∧ EncodedBeforeCursor s u ∧
    encodeStepsLeft (streamLength s.block.msgLen.toNat) t =
      encodeStepsLeft (streamLength s.block.msgLen.toNat) u + 1) ∨
  (EncodeEnded s u ∧ encodeStepsLeft (streamLength s.block.msgLen.toNat) t = 1)

/-- ENC_LOAD is the step of the load it does. -/
theorem encodeStep_load {s t : State} (h : EncodedBeforeCursor s t) (e : EncodeProgress t)
    (hp : t.block.phase = phaseEncLoad) : ∃ u, execEncLoad t = .next u ∧ EncodeStepTo s t u := by
  have loaded : phaseEncSlot ≠ phaseEncLoad := by decide
  have hmore := (e.loadCursor hp).2
  rw [h.msgLen] at hmore
  exact ⟨_, execEncLoad_of_lt e.atPixel.xInGrid e.atPixel.yInGrid,
    .inl ⟨.inr (.inl rfl), { h with }, encodeStepsLeft_load hp loaded rfl rfl hmore⟩⟩

/-- ENC_SLOT is the step of the bit it embeds. -/
theorem encodeStep_slot {s t : State} (h : EncodedBeforeCursor s t) (e : EncodeProgress t)
    (hp : t.block.phase = phaseEncSlot) (hw : messageWritten s.block) :
    ∃ u, execEncSlot t = .next u ∧ EncodeStepTo s t u := by
  have loaded : t.block.phase ≠ phaseEncLoad := by rw [hp]; decide
  obtain ⟨v, hv⟩ := streamBit_of_written hw t.block.nbits.toNat
  obtain ⟨u, hu⟩ := execEncSlot_of_bit ((h.streamBit_eq _).trans hv)
  obtain ⟨b, -, hcases⟩ := execEncSlot_cases hu
  have hcount := embedded_nbits_toNat e hp b
  obtain ⟨hn, hmore⟩ := e.slotCursor hp
  rw [h.msgLen] at hmore
  have hroom : pixelIndex t < pixelsFor (streamLength s.block.msgLen.toNat) := by unfold pixelsFor; omega
  refine ⟨u, hu, .inl ?_⟩
  rcases hcases with ⟨-, rfl⟩ | ⟨-, rfl⟩
  · have stored : phaseEncStore ≠ phaseEncLoad := by decide
    exact ⟨.inr (.inr rfl), { h with }, encodeStepsLeft_slot loaded stored hcount rfl hmore hroom⟩
  · exact ⟨.inr (.inl hp), { h with }, encodeStepsLeft_slot loaded loaded hcount rfl hmore hroom⟩

/-- ENC_STORE is the step of the pixel it writes, and the last one at the end of the stream. -/
theorem encodeStep_store {s t : State} (h : EncodedBeforeCursor s t) (e : EncodeProgress t)
    (hp : t.block.phase = phaseEncStore) (hch : t.block.ch.toNat ≤ 2) :
    ∃ u, execEncStore t = .next u ∧ EncodeStepTo s t u := by
  have loaded : t.block.phase ≠ phaseEncLoad := by rw [hp]; decide
  obtain ⟨hn, hle, -⟩ := e.storeCursor hp
  rw [h.msgLen] at hle
  obtain ⟨u, hu⟩ := execEncStore_of_atPixel e.atPixel e.writable
  obtain ⟨hx, hy, -, _, rfl, hcases⟩ := execEncStore_cases hu
  obtain ⟨x, y, ha, hx', -, hxy⟩ := advance_next (s := { t with grid := { t.grid with
    pixels := storePixel t.grid.pixels (pixelKey t.block.x t.block.y) (.written t.block.o8) } }) hx hy
  have h' := h.store e hp hxy
  rw [ha] at hcases
  refine ⟨u, hu, ?_⟩
  rcases hcases with ⟨hlast, rfl⟩ | ⟨-, rfl⟩
  · have hall : t.block.nbits.toNat = streamLength s.block.msgLen.toNat := by
      rw [← h.msgLen]
      exact (streamDone_iff _).1 hlast
    have hcursor : pixelIndex t + 1 = pixelsFor (streamLength s.block.msgLen.toNat) := by unfold pixelsFor; omega
    have hchannel : t.block.ch.toNat = (streamLength s.block.msgLen.toNat - 1) % 3 := by omega
    refine .inr ⟨?_, encodeStepsLeft_lastStore loaded hall hcursor⟩
    exact {
      encoded := { h' with }
      idle := rfl
      done := rfl
      result := rfl
      nbits := hall
      column := h.width ▸ hx'
      cursor := hxy.trans hcursor
      channel := hchannel }
  · have hroom : pixelIndex t < pixelsFor (streamLength s.block.msgLen.toNat) := by unfold pixelsFor; omega
    exact .inl ⟨.inl rfl, { h' with }, encodeStepsLeft_store loaded rfl rfl hxy hroom⟩

/-- From a running encode of a written message every step of the block is one of these. -/
theorem encodeStep {s t : State} (hi : Inv t) (h : EncodedBeforeCursor s t) (henc : encoding t)
    (hw : messageWritten s.block) : ∃ u, step t = .next u ∧ EncodeStepTo s t u := by
  have e := hi.encode henc
  rw [step_of_busy (busy_of_encoding henc) h.agenda]
  rcases henc with hp | hp | hp
  · rw [blockTurn_encLoad hp]; exact encodeStep_load h e hp
  · rw [blockTurn_encSlot hp]; exact encodeStep_slot h e hp hw
  · rw [blockTurn_encStore hp]; exact encodeStep_store h e hp hi.channelLegal

/-- A running encode of a written message, left alone, ends in as many steps as it has left. -/
theorem encode_runs_to_end {s t : State} (n : Nat) (hi : Inv t) (h : EncodedBeforeCursor s t) (henc : encoding t)
    (hw : messageWritten s.block) 
    (hn : encodeStepsLeft (streamLength s.block.msgLen.toNat) t = n) : ∃ u, endsAfter n t u ∧ EncodeEnded s u := by
  induction n generalizing t with
  | zero =>
    obtain ⟨v, -, ⟨-, -, hleft⟩ | ⟨-, hleft⟩⟩ := encodeStep hi h henc hw <;> omega
  | succ n ih =>
    obtain ⟨v, hv, ⟨henc', h', hleft⟩ | ⟨hend, hleft⟩⟩ := encodeStep hi h henc hw
    · obtain ⟨u, hu, hend⟩ := ih (everyStepKeepsTheInvariant t v hi hv) h' henc' (by omega)
      exact ⟨u, endsAfter_succ (busy_of_encoding henc) hv hu, hend⟩
    · obtain rfl : n = 0 := by omega
      exact ⟨v, endsAfter_succ (busy_of_encoding henc) hv (endsAfter_zero hend.idle), hend⟩

/-- Settles O53: the run from the acceptance, with the end state's cursor taken from its pixel index. -/
theorem encodeWritesTheStream : Obligations.EncodeWritesTheStream := by
  rintro s t hi hidle ha hw hexec hb nb p rfl rfl
  obtain rfl := execEncode_of_busy hexec hb
  have hsteps : encodeStepsLeft (streamLength s.block.msgLen.toNat)
      (setPhase phaseEncLoad (homeCursor (beginOperation s))) =
      8 * (s.block.msgLen.toNat + 1) + 2 * ((8 * (s.block.msgLen.toNat + 1) + 2) / 3) := by
    simp [encodeStepsLeft, pixelIndex, streamLength, pixelsFor]
  obtain ⟨u, hrun, hend⟩ := encode_runs_to_end _ (inv_execEncode (atRest_of_inv hi) hexec)
    (encodedBeforeCursor_start ha) (.inl rfl) hw hsteps
  have e := hend.encoded
  obtain ⟨hx, hy⟩ := coordinates_of_index hend.column (hend.cursor.symm.trans e.cursor_index.symm)
  refine ⟨u, hrun, hend.done, hend.result, hend.nbits, hx, hy, hend.channel, e.outLen, e.obuf, e.msg, e.msgLen, e.width,
    e.height, e.writable, ?_⟩
  rintro x y hx hy q rfl
  have hpixel := e.pixels x y hx hy
  rw [hend.cursor] at hpixel
  exact hpixel

end Sys2Proof.Proofs
end

section
/-! PROOFS. What each decode micro-operation does (44_scanner.md R160, R161), and that no instruction but ENC_STORE
writes the grid (R165). -/

namespace Sys2Proof.Proofs

open Sys2Proof.Machine

/-! ## DEC_LOAD -/

/-- DEC_LOAD at a pixel of the grid (44_scanner.md R160). -/
theorem execDecLoad_of_lt {s : State} (hx : s.block.x.toNat < s.grid.w.toNat) (hy : s.block.y.toNat < s.grid.h.toNat) :
    execDecLoad s = .next (setPhase phaseDecSlot (latchForDecode (pixelAt s s.block.x s.block.y) s)) := by
  simp only [execDecLoad, gridRead_of_lt hx hy]

/-- Settles O18. -/
theorem decLoadLatchesThePixel : Obligations.DecLoadLatchesThePixel := fun _ hx hy => execDecLoad_of_lt hx hy

/-! ## DEC_SLOT, check by check -/

/-- A character that completes with no room for it ends the operation (44_scanner.md R161). -/
theorem execDecSlot_of_overflow {s : State} (hd : characterDone (countBit (scanBit s)) = true)
    (hi : s.params.obufDepth.val ≤ characterIndex (countBit (scanBit s))) :
    execDecSlot s = .next (finish .outOverflow (countBit (scanBit s))) :=
  (if_pos hd).trans (if_pos hi)

/-- Where there is room for a character that completes, the terminator check follows. -/
theorem execDecSlot_of_room {s : State}
    (hroom : characterDone (countBit (scanBit s)) = true →
      characterIndex (countBit (scanBit s)) < s.params.obufDepth.val) :
    execDecSlot s = .next (afterCharacter (scanned s)) := by
  by_cases hd : characterDone (countBit (scanBit s)) = true
  · have hstore : scanned s = storeCharacter (characterIndex (countBit (scanBit s))) (countBit (scanBit s)) :=
      if_pos hd
    rw [hstore]
    exact (if_pos hd).trans (if_neg (Nat.not_le.2 (hroom hd)))
  · have hkeep : scanned s = countBit (scanBit s) := if_neg hd
    rw [hkeep]
    exact if_neg hd

theorem terminatorSeen_iff (s : State) : terminatorSeen s = true ↔ s.block.sr = 0#8 ∧ 8 ≤ s.block.nbits.toNat :=
  decide_eq_true_iff

/-! The four ways on from a scanned bit, each from the tests that select it (44_scanner.md R161). -/

section
variable {s : State} {x y : Half}

theorem afterCharacter_of_terminator (ht : terminatorSeen s = true) : afterCharacter s = finish .ok (setOutLen s) :=
  if_pos ht

theorem afterCharacter_of_slot (ht : ¬ terminatorSeen s = true) (hc : s.block.ch.toNat < 2) :
    afterCharacter s = nextSlot s :=
  (if_neg ht).trans (if_pos hc)

theorem afterCharacter_of_pixel (ht : ¬ terminatorSeen s = true) (hc : 2 ≤ s.block.ch.toNat)
    (ha : advance s = { s with block := { s.block with x := x, y := y } }) (hy : y ≠ s.grid.h) :
    afterCharacter s = setPhase phaseDecLoad { s with block := { s.block with x := x, y := y } } := by
  have hrow : (advance s).block.y ≠ s.grid.h := by rw [ha]; exact hy
  rw [← ha]
  exact (if_neg ht).trans ((if_neg (Nat.not_lt.2 hc)).trans (if_neg hrow))

theorem afterCharacter_of_gridEnd (ht : ¬ terminatorSeen s = true) (hc : 2 ≤ s.block.ch.toNat)
    (ha : advance s = { s with block := { s.block with x := x, y := y } }) (hy : y = s.grid.h) :
    afterCharacter s = finish .terminatorNotFound { s with block := { s.block with x := x, y := y } } := by
  have hrow : (advance s).block.y = s.grid.h := by rw [ha]; exact hy
  rw [← ha]
  exact (if_neg ht).trans ((if_neg (Nat.not_lt.2 hc)).trans (if_pos hrow))

end

/-- The parity of a channel value shifted in, as R161 writes it. -/
theorem shiftIn_parityBit (sr : Byte) (v : Half) :
    shiftIn sr (parityBit v) = BitVec.ofNat 8 ((2 * sr.toNat + v.toNat % 2) % 256) := by
  have hbit : (parityBit v).toNat = v.toNat % 2 := by
    rw [parityBit_eq]
    rcases Nat.mod_two_eq_zero_or_one v.toNat with h | h <;> rw [h] <;> rfl
  unfold shiftIn
  rw [hbit]
  exact BitVec.eq_of_toNat_eq (by simp)

/-- The state after the bit and its character, register by register. -/
theorem scanned_eq {s : State} {n : Word} {sr : Byte} {o : List (Nat × Byte)} (hn : n = s.block.nbits + 1#32)
    (hsr : sr = shiftIn s.block.sr (parityBit (selectChannel s.block.inp s.block.ch)))
    (ho : o = if n.toNat % 8 = 0 then putAt (n.toNat / 8 - 1) sr s.block.obuf else s.block.obuf) :
    scanned s = { s with block := { s.block with sr := sr, nbits := n, obuf := o } } := by
  subst hn hsr ho
  by_cases hd : (s.block.nbits + 1#32).toNat % 8 = 0
  · rw [if_pos hd]
    exact if_pos (decide_eq_true hd)
  · rw [if_neg hd]
    exact if_neg fun hc => hd (of_decide_eq_true hc)

/-- Settles O19: the checks in R161's order, each on the state the one before it leaves. -/
theorem decSlotScansOneBit : Obligations.DecSlotScansOneBit := by
  intro s n sr hn _ hsr
  rw [← shiftIn_parityBit] at hsr
  refine ⟨fun hd hi => ?overflow, fun hroom o ho => ?room⟩
  case overflow =>
    subst hn hsr
    exact execDecSlot_of_overflow (decide_eq_true hd) hi
  case room =>
    have hexec : exec .decSlot s =
        .next (afterCharacter { s with block := { s.block with sr := sr, nbits := n, obuf := o } }) := by
      rw [← scanned_eq hn hsr ho]
      subst hn
      exact execDecSlot_of_room fun hd => Nat.lt_of_not_le fun hi => hroom ⟨of_decide_eq_true hd, hi⟩
    rw [hexec]
    refine ⟨fun hz h8 => ?terminator, fun hgo => ⟨fun hc => ?slot, fun hc x' y' hxy => ⟨fun hy => ?pixel,
      fun hy => ?gridEnd⟩⟩⟩
    case terminator =>
      exact congrArg Host.Outcome.next (afterCharacter_of_terminator ((terminatorSeen_iff _).2 ⟨hz, h8⟩))
    case slot =>
      exact congrArg Host.Outcome.next (afterCharacter_of_slot (mt (terminatorSeen_iff _).1 hgo) hc)
    case pixel =>
      exact congrArg Host.Outcome.next
        (afterCharacter_of_pixel (mt (terminatorSeen_iff _).1 hgo) hc (advance_eq_of_cursor hxy) hy)
    case gridEnd =>
      exact congrArg Host.Outcome.next
        (afterCharacter_of_gridEnd (mt (terminatorSeen_iff _).1 hgo) hc (advance_eq_of_cursor hxy) hy)

/-! ## The grid -/

/-- Settles O20: ENC_STORE replaces pixels and nothing else of the grid, and every other instruction keeps the grid. -/
theorem onlyEncStoreWritesTheGrid : Obligations.OnlyEncStoreWritesTheGrid := by
  intro i s t h
  refine ⟨exec_grid h, ?_⟩
  by_cases hstore : i = .encStore
  · subst hstore
    rw [(execEncStore_grid h).2]
    exact ⟨rfl, rfl, rfl⟩
  · rw [exec_grid h hstore]
    exact ⟨rfl, rfl, rfl⟩

end Sys2Proof.Proofs
end

section
/-! PROOFS. The terminator: the zero register, the last eight bits and the source's running count of zeros are one test
(44_scanner.md R162, R163). -/

namespace Sys2Proof.Proofs

open Sys2Proof.Machine

/-- The running count is at least `k` exactly when the last `k` bits are there and zero (44_scanner.md R162, `Z(n)`). -/
theorem le_zeroCount_iff (f : Nat → Bool) (n k : Nat) :
    k ≤ zeroCount f n ↔ k ≤ n ∧ ∀ i, i < k → f (n - 1 - i) = false := by
  induction n generalizing k with
  | zero =>
    refine ⟨fun h => ⟨h, fun i hi => absurd (lt_of_lt_of_le hi h) (Nat.not_lt_zero i)⟩, fun h => h.1⟩
  | succ n ih =>
    cases k with
    | zero => simp
    | succ k =>
      have hlast : (∀ i, i < k + 1 → f (n + 1 - 1 - i) = false) ↔
          f n = false ∧ ∀ i, i < k → f (n - 1 - i) = false := by
        rw [Nat.forall_lt_succ_left]
        simp only [Nat.add_sub_cancel, Nat.sub_zero, Nat.sub_sub, Nat.add_comm 1]
      rw [hlast, zeroCount]
      by_cases hf : f n = true
      · simp [hf]
      · rw [if_neg hf, Nat.succ_le_succ_iff, ih k, Nat.succ_le_succ_iff]
        simp [hf]

/-- The count reaches eight exactly at the ends of terminators (44_scanner.md R162). -/
theorem endsInTerminator_iff_zeroCount (f : Nat → Bool) (n : Nat) : endsInTerminator f n ↔ 8 ≤ zeroCount f n :=
  (le_zeroCount_iff f n 8).symm

/-- Nine zeros at the end are a terminator that has ended one bit before (44_scanner.md R163). -/
theorem zeroCount_at_firstTerminator {f : Nat → Bool} {n : Nat} (h : firstTerminator f n) : zeroCount f n = 8 := by
  obtain ⟨hends, hfirst⟩ := h
  refine le_antisymm (Nat.le_of_not_lt fun hnine => ?_) ((endsInTerminator_iff_zeroCount f n).1 hends)
  obtain ⟨hn, hzeros⟩ := (le_zeroCount_iff f n 9).1 hnine
  refine hfirst (n - 1) (by omega) ⟨by omega, fun k hk => ?_⟩
  rw [Nat.sub_sub (n - 1), Nat.add_comm]
  exact hzeros (k + 1) (Nat.succ_lt_succ hk)

/-- Settles O31. -/
theorem terminatorTestsAgree : Obligations.TerminatorTestsAgree := fun f n =>
  ⟨(holdsLastBits_shiftRegister f n).terminator_iff, endsInTerminator_iff_zeroCount f n,
    zeroCount_at_firstTerminator⟩

end Sys2Proof.Proofs
end

section
/-! PROOFS. A whole decode: how far a scan goes, the steps left to a bit as its measure, and the ends at the terminator
and at the end of the grid (44_scanner.md R164 to R167, 70_reset_and_hazards.md R228). -/

namespace Sys2Proof.Proofs

open Sys2Proof.Machine

/-! ## What a decode keeps, and how far it goes -/

/-- What a decode begun in `s` has not changed by the state `t`. -/
structure KeptByDecode (s t : State) : Prop where
  params : t.params = s.params
  agenda : t.agenda = []
  grid : t.grid = s.grid
  msg : t.block.msg = s.block.msg
  msgLen : t.block.msgLen = s.block.msgLen

/-- The bits it scans are those of the grid it began with. -/
theorem KeptByDecode.slotParity_eq {s t : State} (h : KeptByDecode s t) : slotParity t = slotParity s :=
  slotParity_congr h.grid h.params

/-- A scan of the grid of `s` stops at no bit before bit `n`: no terminator, no character without room, and not the end
of the grid (44_scanner.md R161). -/
structure ReachesBit (s : State) (n : Nat) : Prop where
  noTerminator : ∀ m, m < n → ¬ endsInTerminator (slotParity s) m
  room : (n - 1) / 8 ≤ s.params.obufDepth.val
  slots : n ≤ carrierSlots s.grid

/-- The steps to the DEC_SLOT of bit `n`, it included, of a decode that has come to `t`: a slot for each bit left and a
load for each pixel left, the load of the present one done or not (70_reset_and_hazards.md R228). -/
def decodeStepsTo (n : Nat) (t : State) : Nat :=
  n - t.block.nbits.toNat + (pixelsFor n - pixelIndex t) - if t.block.phase = phaseDecLoad then 0 else 1

section
variable {n : Nat} {t u : State}

theorem decodeStepsTo_load (ht : t.block.phase = phaseDecLoad) (hu : u.block.phase ≠ phaseDecLoad)
    (hn : u.block.nbits = t.block.nbits) (hp : pixelIndex u = pixelIndex t) (hleft : pixelIndex t < pixelsFor n) :
    decodeStepsTo n t = decodeStepsTo n u + 1 := by
  simp only [decodeStepsTo, ht, hn, hp, if_pos, if_neg hu]
  omega

theorem decodeStepsTo_slot (ht : t.block.phase ≠ phaseDecLoad) (hu : u.block.phase ≠ phaseDecLoad)
    (hn : u.block.nbits.toNat = t.block.nbits.toNat + 1) (hp : pixelIndex u = pixelIndex t)
    (hmore : t.block.nbits.toNat < n) (hleft : pixelIndex t < pixelsFor n) :
    decodeStepsTo n t = decodeStepsTo n u + 1 := by
  simp only [decodeStepsTo, hn, hp, if_neg ht, if_neg hu]
  omega

theorem decodeStepsTo_nextPixel (ht : t.block.phase ≠ phaseDecLoad) (hu : u.block.phase = phaseDecLoad)
    (hn : u.block.nbits = t.block.nbits) (hp : pixelIndex u = pixelIndex t + 1) (hleft : pixelIndex t < pixelsFor n) :
    decodeStepsTo n u = decodeStepsTo n t := by
  simp only [decodeStepsTo, hu, hn, hp, if_pos, if_neg ht]
  omega

theorem decodeStepsTo_lastSlot (ht : t.block.phase ≠ phaseDecLoad) (hn : t.block.nbits.toNat + 1 = n)
    (hp : pixelIndex t + 1 = pixelsFor n) : decodeStepsTo n t = 1 := by
  subst hn
  simp only [decodeStepsTo, if_neg ht]
  omega

end

/-- A DECODE that leaves the block busy is one that has started, on a grid that has slots (40_control.md R103). -/
theorem execDecode_of_busy {s t : State} (h : execDecode s = .next t) (hb : busy t = true) :
    0 < carrierSlots s.grid ∧ t = setPhase phaseDecLoad (homeCursor (clearDecode (beginOperation s))) := by
  rcases execDecode_cases h with ⟨-, rfl⟩ | ⟨hw, hh, ht⟩
  · cases hb
  · have hfirst := (decodeProgress_start hw hh).atPixel
    exact ⟨Nat.mul_pos three_pos (Nat.mul_pos hfirst.xInGrid hfirst.yInGrid), ht⟩

theorem busy_of_decoding {t : State} (h : decoding t = true) : busy t = true := by
  rcases (decoding_iff t).1 h with hp | hp <;> simp [busy, hp] <;> decide

/-! ## One bit -/

/-- In a decode begun in `s`, bit `n` has just been scanned: its character is stored, and what follows is to be decided
(44_scanner.md R161). -/
structure BitScanned (s : State) (n : Nat) (v : State) : Prop where
  kept : KeptByDecode s v
  bits : BitsScanned v
  atPixel : AtPixel v
  phase : v.block.phase = phaseDecSlot
  channel : v.block.ch.toNat ≤ 2
  nbits : v.block.nbits.toNat = n
  slot : n = 3 * pixelIndex v + v.block.ch.toNat + 1

/-- DEC_SLOT with room for the bit's character scans the bit, then decides. -/
theorem execDecSlot_scans {s t : State} (h : KeptByDecode s t) (hi : Inv t) (hp : t.block.phase = phaseDecSlot)
    (hfit : (t.block.nbits.toNat + 1) / 8 ≤ s.params.obufDepth.val) :
    ∃ v, execDecSlot t = .next (afterCharacter v) ∧ BitScanned s (t.block.nbits.toNat + 1) v := by
  have e := hi.decode ((decoding_iff t).2 (.inr hp))
  have hn := scanned_nbits_toNat e.fitsOutput
  have hroom : characterDone (countBit (scanBit t)) = true →
      characterIndex (countBit (scanBit t)) < t.params.obufDepth.val := by
    intro hdone
    have hd : (countBit (scanBit t)).block.nbits.toNat % 8 = 0 := of_decide_eq_true hdone
    unfold characterIndex
    rw [h.params]
    omega
  have hbits := BitsScanned.scanned { e with } (scannedBit_eq e hp hi.channelLegal) hroom
  refine ⟨scanned t, execDecSlot_of_room hroom, ?_⟩
  have hslot := e.slotCursor hp
  have hv := scanned_eq (s := t) rfl rfl rfl
  rw [hv] at hbits ⊢
  exact ⟨{ h with }, hbits, { e.atPixel with }, hp, hi.channelLegal, hn, congrArg (· + 1) hslot⟩

section
variable {s v : State} {m n : Nat} (h : BitScanned s m v)
include h

theorem BitScanned.terminatorSeen_iff : terminatorSeen v = true ↔ endsInTerminator (slotParity s) m := by
  rw [h.bits.terminatorSeen_iff, h.kept.slotParity_eq, h.nbits]

/-- A bit before bit `n` is followed by another: the next slot of the pixel, or the load of the next pixel, one step
nearer to bit `n` in either case. -/
theorem BitScanned.goes_on (hr : ReachesBit s n) (hm : m < n) :
    KeptByDecode s (afterCharacter v) ∧ decoding (afterCharacter v) = true ∧
      (afterCharacter v).block.nbits.toNat = m ∧ decodeStepsTo n (afterCharacter v) = decodeStepsTo n v := by
  have ht : ¬ terminatorSeen v = true := fun ht => hr.noTerminator m hm (h.terminatorSeen_iff.1 ht)
  have hslot := h.slot
  by_cases hc : v.block.ch.toNat < 2
  · rw [afterCharacter_of_slot ht hc]
    exact ⟨{ h.kept with }, (decoding_iff _).2 (.inr h.phase), h.nbits, rfl⟩
  · obtain ⟨x, y, ha, -, -, hxy⟩ := advance_next h.atPixel.xInGrid h.atPixel.yInGrid
    have hch := h.channel
    have hslots := hr.slots
    unfold carrierSlots at hslots
    have hroom : y.toNat * s.grid.w.toNat + x.toNat < s.grid.w.toNat * s.grid.h.toNat := by
      rw [h.kept.grid] at hxy
      omega
    have hy : y ≠ v.grid.h := by
      rw [h.kept.grid]
      rintro rfl
      exact lt_irrefl _ (row_lt_of_index_lt hroom)
    rw [afterCharacter_of_pixel ht (Nat.le_of_not_lt hc) ha hy]
    refine ⟨{ h.kept with }, (decoding_iff _).2 (.inl rfl), h.nbits, ?_⟩
    have loaded : v.block.phase ≠ phaseDecLoad := by rw [h.phase]; decide
    have hleft : pixelIndex v < pixelsFor n := by unfold pixelsFor; omega
    exact decodeStepsTo_nextPixel loaded rfl rfl hxy hleft

/-- The terminator ends the operation (45_decoder.md R183). -/
theorem BitScanned.ends_at_terminator (hterm : endsInTerminator (slotParity s) m) :
    afterCharacter v = finish .ok (setOutLen v) :=
  afterCharacter_of_terminator (h.terminatorSeen_iff.2 hterm)

/-- The last slot of the grid ends it too, with the cursor just below the last row (44_scanner.md R164). -/
theorem BitScanned.ends_at_gridEnd (hnone : ¬ endsInTerminator (slotParity s) m) (hm : m = carrierSlots s.grid) :
    v.block.ch = 2#2 ∧ afterCharacter v =
      finish .terminatorNotFound { v with block := { v.block with x := 0#16, y := s.grid.h } } := by
  obtain ⟨x, y, ha, hx, -, hxy⟩ := advance_next h.atPixel.xInGrid h.atPixel.yInGrid
  have hslot := h.slot
  have hch := h.channel
  unfold carrierSlots at hm
  have hlast : v.block.ch.toNat = 2 := by omega
  have hindex : s.grid.w.toNat * s.grid.h.toNat = y.toNat * s.grid.w.toNat + x.toNat := by
    rw [h.kept.grid] at hxy
    omega
  rw [h.kept.grid] at hx
  obtain ⟨hcolumn, hrow⟩ := coordinates_of_index hx hindex
  rw [Nat.mul_mod_right] at hcolumn
  rw [Nat.mul_div_cancel_left _ (Nat.zero_lt_of_lt hx)] at hrow
  obtain rfl : x = 0#16 := BitVec.eq_of_toNat_eq hcolumn
  obtain rfl : y = s.grid.h := BitVec.eq_of_toNat_eq hrow
  exact ⟨BitVec.eq_of_toNat_eq hlast, afterCharacter_of_gridEnd (mt h.terminatorSeen_iff.1 hnone) hlast.ge ha
    (congrArg Grid.h h.kept.grid).symm⟩

end

/-! ## The run to a bit -/

/-- A decode that has come to `t` is at the DEC_SLOT of bit `n`, or its next step goes on to it. -/
theorem decodeStep {s t : State} {n : Nat} (hi : Inv t) (h : KeptByDecode s t) (hd : decoding t = true)
    (hr : ReachesBit s n) (hn : t.block.nbits.toNat < n) :
    (t.block.phase = phaseDecSlot ∧ t.block.nbits.toNat + 1 = n ∧ decodeStepsTo n t = 1) ∨
    ∃ u, step t = .next u ∧ KeptByDecode s u ∧ decoding u = true ∧ u.block.nbits.toNat < n ∧
      decodeStepsTo n t = decodeStepsTo n u + 1 := by
  have e := hi.decode hd
  have hch := hi.channelLegal
  rw [step_of_busy (busy_of_decoding hd) h.agenda]
  rcases (decoding_iff t).1 hd with hp | hp
  · have hload := e.loadCursor hp
    have hleft : pixelIndex t < pixelsFor n := by unfold pixelsFor; omega
    rw [blockTurn_decLoad hp, execDecLoad_of_lt e.atPixel.xInGrid e.atPixel.yInGrid]
    exact .inr ⟨_, rfl, { h with }, (decoding_iff _).2 (.inr rfl), hn,
      decodeStepsTo_load hp (show phaseDecSlot ≠ phaseDecLoad by decide) rfl rfl hleft⟩
  · have hslot := e.slotCursor hp
    have loaded : t.block.phase ≠ phaseDecLoad := by rw [hp]; decide
    by_cases hlast : t.block.nbits.toNat + 1 = n
    · have hpixel : pixelIndex t + 1 = pixelsFor n := by unfold pixelsFor; omega
      exact .inl ⟨hp, hlast, decodeStepsTo_lastSlot loaded hlast hpixel⟩
    · have hleft : pixelIndex t < pixelsFor n := by unfold pixelsFor; omega
      have hfit : (t.block.nbits.toNat + 1) / 8 ≤ s.params.obufDepth.val := by have := hr.room; omega
      obtain ⟨v, hv, hbit⟩ := execDecSlot_scans h hi hp hfit
      have loaded' : v.block.phase ≠ phaseDecLoad := by rw [hbit.phase]; decide
      have hpixel : pixelIndex v = pixelIndex t := by have := hbit.slot; have := hbit.channel; omega
      obtain ⟨hkept, hdec, hnbits, hsteps⟩ := hbit.goes_on hr (by omega)
      rw [blockTurn_decSlot hp, hv]
      exact .inr ⟨_, rfl, hkept, hdec, by omega,
        hsteps ▸ decodeStepsTo_slot loaded loaded' hbit.nbits hpixel hn hleft⟩

/-- A decode that reaches bit `n`, left alone, comes to the DEC_SLOT of that bit, and if that ends the operation it is
the last of as many steps as there are to it. -/
theorem decode_runs_to_bit {s t : State} {n : Nat} (k : Nat) (hi : Inv t) (h : KeptByDecode s t)
    (hd : decoding t = true) (hr : ReachesBit s n) (hn : t.block.nbits.toNat < n) (hk : decodeStepsTo n t = k) :
    ∃ w, Inv w ∧ KeptByDecode s w ∧ w.block.phase = phaseDecSlot ∧ w.block.nbits.toNat + 1 = n ∧
      ∀ u, execDecSlot w = .next u → busy u = false → endsAfter k t u := by
  induction k generalizing t with
  | zero => obtain ⟨-, -, hleft⟩ | ⟨u, -, -, -, -, hleft⟩ := decodeStep hi h hd hr hn <;> omega
  | succ k ih =>
    have hb := busy_of_decoding hd
    obtain ⟨hp, hlast, hleft⟩ | ⟨v, hv, h', hd', hn', hleft⟩ := decodeStep hi h hd hr hn
    · obtain rfl : k = 0 := by omega
      refine ⟨t, hi, h, hp, hlast, fun u hu hidle => endsAfter_succ hb ?_ (endsAfter_zero hidle)⟩
      rw [step_of_busy hb h.agenda, blockTurn_decSlot hp, hu]
    · obtain ⟨w, hw, hkept, hp, hlast, hends⟩ := ih (everyStepKeepsTheInvariant t v hi hv) h' hd' hn' (by omega)
      exact ⟨w, hw, hkept, hp, hlast, fun u hu hidle => endsAfter_succ hb hv (hends u hu hidle)⟩

/-- So does one from its acceptance: to bit `n` it is `n` slots and a load for each pixel they touch (44_scanner.md
R167). -/
theorem decode_reaches_bit {s t : State} {n : Nat} (hi : Inv s) (ha : s.agenda = []) (hexec : exec .decode s = .next t)
    (hb : busy t = true) (hr : ReachesBit s n) (hn : 0 < n) :
    ∃ w, Inv w ∧ KeptByDecode s w ∧ w.block.phase = phaseDecSlot ∧ w.block.nbits.toNat + 1 = n ∧
      ∀ u, execDecSlot w = .next u → busy u = false → endsAfter (n + pixelsFor n) t u := by
  have hinv : Inv t := inv_execDecode (atRest_of_inv hi) hexec
  obtain ⟨-, rfl⟩ := execDecode_of_busy hexec hb
  exact decode_runs_to_bit _ hinv ⟨rfl, ha, rfl, rfl, rfl⟩ ((decoding_iff _).2 (.inl rfl)) hr hn
    (by simp [decodeStepsTo, pixelIndex])

/-- With room for the character of bit `n` too, the bit is scanned, and an end at it is the last of these steps. -/
theorem decode_scans_bit {s t : State} {n : Nat} (hi : Inv s) (ha : s.agenda = []) (hexec : exec .decode s = .next t)
    (hb : busy t = true) (hr : ReachesBit s n) (hn : 0 < n) (hfit : n / 8 ≤ s.params.obufDepth.val) :
    ∃ v, BitScanned s n v ∧
      (busy (afterCharacter v) = false → endsAfter (n + pixelsFor n) t (afterCharacter v)) := by
  obtain ⟨w, hw, hkept, hp, rfl, hends⟩ := decode_reaches_bit hi ha hexec hb hr hn
  obtain ⟨v, hv, hbit⟩ := execDecSlot_scans hkept hw hp hfit
  exact ⟨v, hbit, hends _ hv⟩

/-! ## The two ends -/

/-- Settles O55: the scan goes on up to bit `n`, and ends there with the cursor still on it. -/
theorem decodeReadsUpToTheTerminator : Obligations.DecodeReadsUpToTheTerminator := by
  rintro s t n hi - ha hexec hb ⟨hterm, hfirst⟩ hslots hfit
  have hr : ReachesBit s n := ⟨hfirst, by omega, by rwa [carrierSlots_eq]⟩
  obtain ⟨v, hbit, hends⟩ := decode_scans_bit hi ha hexec hb hr (by have := hterm.1; omega) hfit
  rw [hbit.ends_at_terminator hterm] at hends
  have hslot := hbit.slot
  have hch := hbit.channel
  have hx := hbit.atPixel.xInGrid
  have hindex : (n - 1) / 3 = v.block.y.toNat * s.grid.w.toNat + v.block.x.toNat := by
    rw [← hbit.kept.grid]
    unfold pixelIndex at hslot
    omega
  rw [hbit.kept.grid] at hx
  obtain ⟨hcolumn, hrow⟩ := coordinates_of_index hx hindex
  have hchannel : v.block.ch.toNat = (n - 1) % 3 := by omega
  have hlen : (BitVec.ofNat 32 (v.block.nbits.toNat / 8)).toNat = n / 8 := by
    have hdepth : s.params.obufDepth.val ≤ 4194304 := Nat.le_of_lt_succ s.params.obufDepth.isLt
    rw [hbit.nbits, BitVec.toNat_ofNat]
    omega
  have hchars := hbit.bits.characters
  rw [hbit.nbits, hbit.kept.slotParity_eq] at hchars
  exact ⟨_, hends rfl, rfl, rfl, hbit.nbits, hlen, hchars, hcolumn, hrow, hchannel, hbit.kept.grid, hbit.kept.msg,
    hbit.kept.msgLen⟩

/-- Settles O57: the scan goes on up to the last slot of the grid, and ends there. -/
theorem decodeWithoutTerminator : Obligations.DecodeWithoutTerminator := by
  intro s t hi _ ha hexec hb hnone hfit
  rw [← carrierSlots_eq] at hnone hfit
  have hr : ReachesBit s (carrierSlots s.grid) := ⟨fun m hm => hnone m hm.le, by omega, le_rfl⟩
  obtain ⟨v, hbit, hends⟩ := decode_scans_bit hi ha hexec hb hr (execDecode_of_busy hexec hb).1 hfit
  obtain ⟨hch, hend⟩ := hbit.ends_at_gridEnd (hnone _ le_rfl) rfl
  rw [hend] at hends
  have hsteps : carrierSlots s.grid + pixelsFor (carrierSlots s.grid) = 4 * s.grid.w.toNat * s.grid.h.toNat := by
    unfold pixelsFor carrierSlots
    rw [Nat.mul_assoc]
    omega
  rw [← hsteps]
  exact ⟨_, hends rfl, rfl, rfl, rfl, hbit.bits.noOutput, rfl, rfl, hch, hbit.kept.grid⟩

end Sys2Proof.Proofs
end

section
/-! PROOFS. The character buffer overflows (45_decoder.md R184). -/

namespace Sys2Proof.Proofs

open Sys2Proof.Machine

/-- DEC_SLOT of the bit that completes the character at index `OBUF_DEPTH` ends the operation (45_decoder.md R184). -/
theorem execDecSlot_overflows {s : State} (hfits : s.block.nbits.toNat / 8 ≤ s.params.obufDepth.val)
    (hn : s.block.nbits.toNat + 1 = 8 * (s.params.obufDepth.val + 1)) :
    execDecSlot s = .next (finish .outOverflow (countBit (scanBit s))) := by
  have hcount : (countBit (scanBit s)).block.nbits.toNat = 8 * (s.params.obufDepth.val + 1) :=
    (scanned_nbits_toNat hfits).trans hn
  have hdone : (countBit (scanBit s)).block.nbits.toNat % 8 = 0 := by omega
  have hindex : s.params.obufDepth.val ≤ (countBit (scanBit s)).block.nbits.toNat / 8 - 1 := by omega
  exact execDecSlot_of_overflow (decide_eq_true hdone) hindex

/-- Settles O56: the scan goes on up to the last bit of the first character without room, and ends there. -/
theorem decodeOverflowsTheBuffer : Obligations.DecodeOverflowsTheBuffer := by
  rintro s t n hi - ha hexec hb hn hslots hnone
  have hr : ReachesBit s n := ⟨hnone, by omega, by rwa [carrierSlots_eq]⟩
  obtain ⟨w, hw, hkept, hp, hlast, hends⟩ := decode_reaches_bit hi ha hexec hb hr (by omega)
  have e := hw.decode ((decoding_iff w).2 (.inr hp))
  have hend := execDecSlot_overflows e.fitsOutput (by rw [hkept.params]; exact hlast.trans hn)
  exact ⟨_, hends _ hend rfl, rfl, rfl, rfl, e.noOutput, hkept.grid⟩

end Sys2Proof.Proofs
end

section
/-! PROOFS. The text of a bit sequence (45_decoder.md R180, R181), and of a message's stream: its characters, and where
its first terminator is (R185). -/

namespace Sys2Proof.Proofs

open Sys2Proof.Machine

/-- Settles O32: the shift register holds the last bits, and after `8·(j + 1)` these are character `j`. -/
theorem registerAssemblesCharacters : Obligations.RegisterAssemblesCharacters := fun f j =>
  (holdsLastBits_shiftRegister f (8 * (j + 1))).eq_packCharacter

/-! ## The first terminator of a sequence -/

/-- A terminator has a first one no later. -/
theorem exists_firstTerminator {f : Nat → Bool} {m : Nat} (h : endsInTerminator f m) :
    ∃ n, firstTerminator f n ∧ n ≤ m := by
  classical
  have hex : ∃ n, endsInTerminator f n := ⟨m, h⟩
  exact ⟨Nat.find hex, ⟨Nat.find_spec hex, fun _ => Nat.find_min hex⟩, Nat.find_min' hex h⟩

theorem firstTerminator_le {f : Nat → Bool} {n m : Nat} (hn : firstTerminator f n) (hm : endsInTerminator f m) :
    n ≤ m :=
  Nat.le_of_not_lt fun hlt => hn.2 m hlt hm

/-- A one among the last eight bits is no part of a terminator. -/
theorem not_endsInTerminator_of_one {f : Nat → Bool} {n i : Nat} (hi : f i = true) (hlt : i < n) (hlast : n ≤ i + 8) :
    ¬ endsInTerminator f n := by
  rintro ⟨-, hzeros⟩
  have hzero := hzeros (n - 1 - i) (by omega)
  rw [show n - 1 - (n - 1 - i) = i by omega, hi] at hzero
  cases hzero

section
variable {f g : Nat → Bool} {n : Nat} (h : ∀ i, i < n → f i = g i)
include h

theorem endsInTerminator_congr : endsInTerminator f n ↔ endsInTerminator g n :=
  and_congr_right fun hn => forall₂_congr fun k _ => by rw [h (n - 1 - k) (by omega)]

/-- The first terminator depends on the bits up to its end alone. -/
theorem firstTerminator_congr : firstTerminator f n ↔ firstTerminator g n :=
  and_congr (endsInTerminator_congr h) <| forall₂_congr fun _ hm =>
    not_congr (endsInTerminator_congr fun i hi => h i (hi.trans hm))

end

/-- A character depends on its own eight bits alone. -/
theorem packCharacter_congr {f g : Nat → Bool} {j : Nat} (h : ∀ i, i < 8 * (j + 1) → f i = g i) :
    packCharacter f j = packCharacter g j := by
  refine BitVec.eq_of_getLsbD_eq fun k hk => ?_
  rw [packCharacter_getLsbD f j hk, packCharacter_getLsbD g j hk, h _ (by omega)]

/-! ## The stream of a message -/

theorem streamBitOr_of_terminator {b : Block} {i : Nat} (h : 8 * b.msgLen.toNat ≤ i) : streamBitOr b i = false := by
  rw [streamBitOr, streamBit_of_terminator h]
  rfl

/-- Bit `k` of code unit `j`, counted from its low end. -/
theorem streamBitOr_of_unit {b : Block} {j k : Nat} {u : Word} (hj : j < b.msgLen.toNat)
    (hu : lookupAt j b.msg = some u) (hk : k < 8) : streamBitOr b (8 * j + 7 - k) = u.getLsbD k := by
  have hplace : 8 * j + 7 - k = 8 * j + (7 - k) := by omega
  rw [streamBitOr, hplace, streamBit_of_unit hj hu (by omega), Option.getD_some, Nat.sub_sub_self (by omega)]

/-- The stream ends in its terminator (41_bitstream_encoder.md R121). -/
theorem endsInTerminator_streamLength (b : Block) :
    endsInTerminator (streamBitOr b) (8 * (b.msgLen.toNat + 1)) :=
  ⟨by omega, fun _ _ => streamBitOr_of_terminator (by omega)⟩

/-- The characters of a written message's stream are the low bytes of its code units, then the NUL (45_decoder.md
R185). -/
theorem packCharacter_streamBitOr {b : Block} (h : messageWritten b) (j : Nat) :
    packCharacter (streamBitOr b) j =
      if j < b.msgLen.toNat then ((lookupAt j b.msg).getD 0#32).setWidth 8 else 0#8 := by
  refine BitVec.eq_of_getLsbD_eq fun k hk => ?_
  rw [packCharacter_getLsbD _ _ hk]
  split
  · next hj =>
    obtain ⟨u, hu⟩ := Option.isSome_iff_exists.1 (h j hj)
    rw [streamBitOr_of_unit hj hu hk, hu]
    simp [hk]
  · next hj =>
    rw [streamBitOr_of_terminator (by omega)]
    simp

/-! ## The three cases -/

/-- Where no run of eight zeros ends inside the message, the first one starts with the `z` zeros its last code unit ends
in, right after the lowest one bit of its low byte (45_decoder.md R185). -/
theorem firstTerminator_after_last_one {b : Block} {n z : Nat} {u : Word} (hn : firstTerminator (streamBitOr b) n)
    (hnone : ∀ m, m ≤ 8 * b.msgLen.toNat → ¬ endsInTerminator (streamBitOr b) m) (hlen : 0 < b.msgLen.toNat)
    (hu : lookupAt (b.msgLen.toNat - 1) b.msg = some u) (hz : z < 8) (hzeros : ∀ k, k < z → u.getLsbD k = false)
    (hone : u.getLsbD z = true) : n = 8 * b.msgLen.toNat + 8 - z := by
  have hbit (k : Nat) (hk : k < 8) : streamBitOr b (8 * b.msgLen.toNat - 1 - k) = u.getLsbD k := by
    rw [← streamBitOr_of_unit (by omega) hu hk]
    congr 1
    omega
  refine le_antisymm (firstTerminator_le hn ⟨by omega, fun k hk => ?zeros⟩) (Nat.le_of_not_lt fun hlt => ?earlier)
  case zeros =>
    by_cases hmsg : 8 * b.msgLen.toNat ≤ 8 * b.msgLen.toNat + 8 - z - 1 - k
    · exact streamBitOr_of_terminator hmsg
    · rw [← hzeros (k + z - 8) (by omega), ← hbit (k + z - 8) (by omega)]
      congr 1
      omega
  case earlier =>
    have hpast : 8 * b.msgLen.toNat < n := Nat.lt_of_not_le fun hle => hnone n hle hn.1
    exact not_endsInTerminator_of_one ((hbit z hz).trans hone) (by omega) (by omega) hn.1

/-- Settles O59. -/
theorem roundTripCases : Obligations.RoundTripCases := by
  refine fun b n _ hn => ⟨fun hnone => ⟨fun hempty => ?empty, fun u z hlen hu hz hzeros hone => ?past⟩,
    fun ⟨m, hm, hends⟩ => (firstTerminator_le hn hends).trans hm⟩
  case empty =>
    have hle := firstTerminator_le hn (endsInTerminator_streamLength b)
    rw [hempty] at hle
    exact le_antisymm hle hn.1.1
  case past => exact firstTerminator_after_last_one hn hnone hlen hu hz hzeros hone

end Sys2Proof.Proofs
end

section
/-! PROOFS. The round trip: a run has one end and keeps the invariant, an encode leaves the stream in the parities of the
slots, and a decode reads it back (45_decoder.md R185). -/

namespace Sys2Proof.Proofs

open Sys2Proof.Machine

/-! ## Runs -/

/-- A run of one more step starts with a step that goes on. -/
theorem exists_step_of_runSteps_succ {s u : State} {k : Nat} (h : runSteps (k + 1) s = .next u) :
    ∃ t, step s = .next t ∧ runSteps k t = .next u := by
  have hcore : Host.Core.step Sys2Proof.core s = step s := rfl
  cases hs : step s with
  | next t => exact ⟨t, rfl, (runSteps_succ hs k).symm.trans h⟩
  | fault r | refused r => simp [runSteps, Host.Core.run, hcore, hs] at h

theorem inv_runSteps {s u : State} {k : Nat} (hi : Inv s) (h : runSteps k s = .next u) : Inv u := by
  induction k generalizing s with
  | zero => cases h; exact hi
  | succ k ih =>
    obtain ⟨t, ht, hrun⟩ := exists_step_of_runSteps_succ h
    exact ih (everyStepKeepsTheInvariant s t hi ht) hrun

/-- A run that ends is not idle before its end. -/
theorem le_of_endsAfter {s t u : State} {m n : Nat} (hu : endsAfter n s u) (hrun : runSteps m s = .next t)
    (hidle : busy t = false) : n ≤ m := by
  obtain ⟨-, -, hbusy⟩ := hu
  refine Nat.le_of_not_lt fun hlt => ?_
  obtain ⟨v, hv, hb⟩ := hbusy m hlt
  cases hrun.symm.trans hv
  exact Bool.false_ne_true (hidle.symm.trans hb)

/-- So a run has one end. -/
theorem endsAfter_unique {s t u : State} {m n : Nat} (ht : endsAfter m s t) (hu : endsAfter n s u) : t = u := by
  have ⟨hrun, hidle, _⟩ := ht
  have ⟨hrun', hidle', _⟩ := hu
  obtain rfl : m = n := le_antisymm (le_of_endsAfter ht hrun' hidle') (le_of_endsAfter hu hrun hidle)
  exact Host.Outcome.next.inj (hrun.symm.trans hrun')

/-! ## What the encode leaves -/

/-- A pixel index of the grid is the index of one of its pixels. -/
theorem exists_pixel_of_index {g : Grid} {q : Nat} (h : q < g.w.toNat * g.h.toNat) :
    ∃ x y : Half, BitVec.ofNat 16 (q % g.w.toNat) = x ∧ BitVec.ofNat 16 (q / g.w.toNat) = y ∧
      x.toNat < g.w.toNat ∧ y.toNat < g.h.toNat ∧ y.toNat * g.w.toNat + x.toNat = q := by
  have hcolumn : q % g.w.toNat < g.w.toNat := Nat.mod_lt _ (Nat.pos_of_mul_pos_right (Nat.zero_lt_of_lt h))
  have hrow : q / g.w.toNat < g.h.toNat := Nat.div_lt_of_lt_mul h
  refine ⟨_, _, rfl, rfl, ?_⟩
  rw [BitVec.toNat_ofNat, BitVec.toNat_ofNat, Nat.mod_eq_of_lt (hcolumn.trans g.w.isLt),
    Nat.mod_eq_of_lt (hrow.trans g.h.isLt)]
  exact ⟨hcolumn, hrow, Nat.div_add_mod' q _⟩

/-- A byte written for a bit reads back with the parity of the bit, if `GRID_EXPAND` keeps parities (43_embedder.md
R142). -/
theorem parityBit_gridExpand_embedByte {p : Params} (h : ∀ w : Byte, (p.gridExpand w).toNat % 2 = w.toNat % 2)
    (v : Half) (b : Bool) : parityBit (p.gridExpand (embedByte v b)) = b := by
  have hparity : (embedByte v b).toNat % 2 = b.toNat := writtenByteHasTheBitsParity v b
  rw [parityBit_eq, h, hparity]
  cases b <;> rfl

/-- The encode an accepted ENCODE comes to, if it comes to an end (43_embedder.md R152). -/
theorem encodeEnded_of_endsAfter {s t u : State} {k : Nat} (hi : Inv s) (ha : s.agenda = [])
    (hw : messageWritten s.block) (hexec : exec .encode s = .next t) (hb : busy t = true) (hends : endsAfter k t u) :
    EncodeEnded s u := by
  have hinv : Inv t := inv_execEncode (atRest_of_inv hi) hexec
  obtain rfl := execEncode_of_busy hexec hb
  obtain ⟨u', hends', hended⟩ := encode_runs_to_end _ hinv (encodedBeforeCursor_start ha) (.inl rfl) hw rfl
  rwa [endsAfter_unique hends hends']

/-- An ENCODE starts only where its stream fits the grid (40_control.md R102). -/
theorem streamLength_le_of_execEncode {s t : State} (hexec : execEncode s = .next t) (hb : busy t = true) :
    streamLength s.block.msgLen.toNat ≤ carrierSlots s.grid := by
  rcases execEncode_cases hexec with ⟨-, rfl⟩ | ⟨-, -, rfl⟩ | ⟨-, -, -, rfl⟩ | ⟨-, -, hfits, -⟩
  case inr.inr.inr => exact hfits
  all_goals cases hb

section
variable {s u : State} (h : EncodeEnded s u)
include h

theorem EncodeEnded.carrierSlots_eq : carrierSlots u.grid = carrierSlots s.grid := by
  unfold carrierSlots
  rw [h.encoded.width, h.encoded.height]

/-- The pixels the stream reaches are those of R150. -/
theorem EncodeEnded.rasterPixel_eq {q : Nat} (hq : q < s.grid.w.toNat * s.grid.h.toNat)
    (hreached : q < pixelsFor (streamLength s.block.msgLen.toNat)) :
    ∃ v, rasterPixel u q =
      (encodedPixel s.block (streamLength s.block.msgLen.toNat) q v).map s.params.gridExpand := by
  have e := h.encoded
  obtain ⟨x, y, hcolumn, hrow, hx, hy, hindex⟩ := exists_pixel_of_index hq
  have hstored := e.pixels x y hx hy
  rw [h.cursor, hindex, if_pos hreached] at hstored
  refine ⟨pixelAt s x y, ?_⟩
  unfold rasterPixel
  rw [e.width, hcolumn, hrow]
  unfold pixelAt
  rw [hstored, e.params]
  rfl

/-- The slots the stream reaches have the parities of its bits (43_embedder.md R142, R150). -/
theorem EncodeEnded.slotParity_eq (hfits : streamLength s.block.msgLen.toNat ≤ carrierSlots s.grid)
    (hexpand : ∀ w : Byte, (s.params.gridExpand w).toNat % 2 = w.toNat % 2) {i : Nat}
    (hi : i < streamLength s.block.msgLen.toNat) : slotParity u i = streamBitOr s.block i := by
  have hq : i / 3 < s.grid.w.toNat * s.grid.h.toNat := by unfold carrierSlots at hfits; omega
  have hreached : i / 3 < pixelsFor (streamLength s.block.msgLen.toNat) := by unfold pixelsFor; omega
  obtain ⟨v, hpixel⟩ := h.rasterPixel_eq hq hreached
  have hchannel : (BitVec.ofNat 2 (i % 3)).toNat = i % 3 := by rw [BitVec.toNat_ofNat]; omega
  have hslot : 3 * (i / 3) + i % 3 = i := Nat.div_add_mod i 3
  have hcarries : i % 3 < 3 ∧ i < streamLength s.block.msgLen.toNat := ⟨Nat.mod_lt i three_pos, hi⟩
  unfold slotParity slotValue
  rw [hpixel, selectChannel_map, selectChannel_encodedPixel, hchannel, hslot, if_pos hcarries]
  exact parityBit_gridExpand_embedByte hexpand _ _

end

/-! ## The decode that follows -/

/-- A DECODE of a grid that has slots starts (40_control.md R103). -/
theorem busy_of_execDecode {s t : State} (h : execDecode s = .next t) (hslots : 0 < carrierSlots s.grid) :
    busy t = true := by
  rcases execDecode_cases h with ⟨hempty, -⟩ | ⟨-, -, rfl⟩
  · unfold carrierSlots at hslots
    rcases hempty with hw | hh
    · simp [hw] at hslots
    · simp [hh] at hslots
  · rfl

/-- Settles O58: up to the end of the stream the decode scans the stream itself, so it ends at the stream's first
terminator with the stream's characters. -/
theorem roundTrip : Obligations.RoundTrip := by
  intro s t u v k hi _ ha hw hexpand hdepth hexec hb hends hdecode
  have hended := encodeEnded_of_endsAfter hi ha hw hexec hb hends
  have hinv : Inv u := inv_runSteps (inv_execEncode (atRest_of_inv hi) hexec) hends.1
  have hfits := streamLength_le_of_execEncode hexec hb
  obtain ⟨n, hn, hle⟩ := exists_firstTerminator (endsInTerminator_streamLength s.block)
  have hbits (i : Nat) (hlt : i < 8 * (s.block.msgLen.toNat + 1)) : slotParity u i = streamBitOr s.block i :=
    hended.slotParity_eq hfits hexpand hlt
  have hscan : firstTerminator (slotParity u) n :=
    (firstTerminator_congr fun i hlt => hbits i (hlt.trans_le hle)).2 hn
  have hslots : 8 * (s.block.msgLen.toNat + 1) ≤ carrierSlots u.grid := hended.carrierSlots_eq ▸ hfits
  have hbusy : busy v = true := busy_of_execDecode hdecode (by omega)
  have hroom : n / 8 ≤ u.params.obufDepth.val := by rw [hended.encoded.params]; omega
  obtain ⟨z, hrun, hdone, hresult, hnbits, houtLen, hchars, -⟩ := decodeReadsUpToTheTerminator u v n hinv hended.idle
    hended.encoded.agenda hdecode hbusy hscan (carrierSlots_eq u.grid ▸ hle.trans hslots) hroom
  refine ⟨n, hn, hle, z, hrun, hdone, hresult, hnbits, houtLen, fun j hj => ?_⟩
  rw [hchars j hj, ← packCharacter_streamBitOr hw]
  exact congrArg some (packCharacter_congr fun i hlt => hbits i (by omega))

end Sys2Proof.Proofs
end

section
/-! PROOFS. From a legal state the one fault is ENC_SLOT's read of an unwritten message (60_exceptions.md R215): the host
and the platform are refused where they have no meaning, never faulted, and of the block's micro-operations the invariant
leaves ENC_SLOT alone to stop. -/

namespace Sys2Proof.Proofs

open Sys2Proof.Machine

/-! ## The host -/

/-- A command goes on: what it cannot do it reports in `RESULT` (40_control.md R101 to R104). -/
theorem exec_decodeCommand_ne_fault (v : Word) (s : State) (f : Fault) : exec (decodeCommand v) s ≠ .fault f := by
  rcases decodeCommand_cases v with ⟨-, hi⟩ | ⟨-, hi⟩ | ⟨-, hi⟩ | ⟨-, hi⟩ <;> rw [hi]
  · exact nofun
  · show execEncode s ≠ .fault f
    unfold execEncode
    split_ifs <;> exact nofun
  · show execDecode s ≠ .fault f
    unfold execDecode
    split_ifs <;> exact nofun
  · exact nofun

/-- A register write is ignored or takes effect; through `CTRL` it performs a command (20_memory.md R58). -/
theorem writeReg_ne_fault (v : Word) (s : State) (r : Reg) (f : Fault) : writeReg v s r ≠ .fault f := by
  cases hb : busy s with
  | true => rw [writeReg_of_busy hb]; exact nofun
  | false =>
    cases r with
    | ctrl => rw [writeReg, acceptCommand_of_idle hb rfl]; exact exec_decodeCommand_ne_fault v s f
    | msgLen | msg i => simp [writeReg, hb]
    | status | gridW | gridH | nbits | outLen | posX | posY | out i | unmapped => exact nofun

theorem memWrite_ne_fault (addr : Word) (width : Nat) (v : Word) (s : State) (f : Fault) :
    memWrite addr width v s ≠ .fault f := by
  unfold memWrite
  split
  · exact writeReg_ne_fault v s _ f
  · exact nofun

/-- A branch that means nothing is refused (30_encoding.md R89). -/
theorem hostBranch_ne_fault (name : Nat) (mask : Word) (l : Nat) (s : State) (f : Fault) :
    hostBranch name mask l s ≠ .fault f := by
  unfold hostBranch
  split
  · exact nofun
  · split
    · exact nofun
    · split <;> exact nofun

theorem hostTurn_ne_fault (s : State) (f : Fault) : hostTurn s ≠ .fault f := by
  cases hop : hostOp s with
  | none => simp [hostTurn, hop]
  | some op =>
    rw [hostTurn_of_line hop]
    cases op with
    | write addr width v => exact memWrite_ne_fault addr width v _ f
    | read addr width name =>
      simp only [hostPerform]
      split <;> exact nofun
    | label l => exact nofun
    | bnz name mask l => exact hostBranch_ne_fault name mask l s f

/-! ## The block -/

/-- The stream lacks a bit exactly where it needs an entry of the message not written since reset (10_state.md R39). -/
theorem streamBit_eq_none_iff (b : Block) (i : Nat) :
    streamBit b i = none ↔ lookupAt (i / 8) b.msg = none ∧ i / 8 < b.msgLen.toNat := by
  have hdiv : i / 8 < b.msgLen.toNat ↔ i < 8 * b.msgLen.toNat := by omega
  rcases streamBit_cases b i with ⟨hle, h⟩ | ⟨hlt, hm, h⟩ | ⟨-, u, hm, h⟩
  · simp [h, hdiv, Nat.not_lt.2 hle]
  · simp [h, hdiv, hlt, hm]
  · simp [h, hm]

/-- From a state that meets the invariant every turn of the block but ENC_SLOT's goes on: the cursor is in the grid, and
an encode's grid is writable. -/
theorem blockTurn_of_not_encSlot {s : State} (hi : Inv s) (hne : s.block.phase ≠ phaseEncSlot) :
    ∃ t, blockTurn s = .next t := by
  rcases blockTurn_cases hi.phaseLegal with ⟨-, hb⟩ | ⟨hp, hb⟩ | ⟨hp, -⟩ | ⟨hp, hb⟩ | ⟨hp, hb⟩ | ⟨-, hb⟩
  · exact ⟨s, hb⟩
  · rw [hb]; exact (execLoad_of_atPixel (hi.encode (.inl hp)).atPixel).1
  · exact absurd hp hne
  · have e := hi.encode (.inr (.inr hp))
    rw [hb]; exact execEncStore_of_atPixel e.atPixel e.writable
  · rw [hb]; exact (execLoad_of_atPixel (hi.decode ((decoding_iff s).2 (.inl hp))).atPixel).2
  · rw [hb]; obtain ⟨u, -, ⟨-, -, ht⟩ | ⟨-, -, ht⟩ | ⟨-, ht⟩⟩ := execDecSlot_cases s <;> exact ⟨_, ht⟩

/-- From a state that meets the invariant the block's turn stops only in ENC_SLOT, for want of its stream bit. -/
theorem blockTurn_fault {s : State} {f : Fault} (hi : Inv s) (h : blockTurn s = .fault f) :
    f = .msgUnwritten ∧ s.block.phase = phaseEncSlot ∧ streamBit s.block s.block.nbits.toNat = none := by
  by_cases hp : s.block.phase = phaseEncSlot
  · rw [blockTurn_encSlot hp] at h
    cases hbit : streamBit s.block s.block.nbits.toNat with
    | none =>
      rw [execEncSlot_of_no_bit hbit] at h
      cases h
      exact ⟨rfl, hp, rfl⟩
    | some b =>
      obtain ⟨t, ht⟩ := execEncSlot_of_bit hbit
      cases ht.symm.trans h
  · obtain ⟨t, ht⟩ := blockTurn_of_not_encSlot hi hp
    cases ht.symm.trans h

/-! ## Every agent -/

/-- A step that ends in a fault is the block's (60_exceptions.md R215). -/
theorem perform_fault {s : State} {e : Event} {f : Fault} (h : perform e s = .fault f) : blockTurn s = .fault f := by
  cases e with
  | block => exact h
  | host => exact absurd h (hostTurn_ne_fault s f)
  | reset => cases h
  | attach | drain =>
    simp only [perform, attachTurn, drainTurn] at h
    split at h <;> cases h

/-- Settles O52: a fault is the block's, and the block stops only at a stream bit whose `MSG` entry is unwritten. -/
theorem onlyAnUnwrittenMessageFaults : Obligations.OnlyAnUnwrittenMessageFaults := by
  intro s f hi h
  have hinv : Inv (popAgenda s) := inv_congr hi rfl rfl rfl rfl
  obtain ⟨hf, hp, hbit⟩ := blockTurn_fault hinv (perform_fault h)
  exact ⟨hf, hp, (streamBit_eq_none_iff _ _).1 hbit⟩

end Sys2Proof.Proofs
end

section
/-! PROOFS. Reset and the platform's touches of the grid (70_reset_and_hazards.md R220, R225), and what a host reads
while a decode runs (R224). -/

namespace Sys2Proof.Proofs

open Sys2Proof.Machine

/-- Settles O42. -/
theorem resetGivesTheResetValues : Obligations.ResetGivesTheResetValues := fun _ _ ha => step_of_agenda_cons ha

/-- Settles O43: both touches ask first whether the block is busy. -/
theorem gridTouchedWhileBusyRefused : Obligations.GridTouchedWhileBusyRefused := by
  intro s rest w h wr ps
  refine ⟨fun ha => ?attach, fun ha => ?drain⟩
  all_goals
    rw [step_of_agenda_cons ha]
    exact ⟨fun hbusy => if_pos (decide_eq_true hbusy),
      fun hidle => if_neg (not_not_intro hidle ∘ of_decide_eq_true)⟩

/-- Settles O37: `OUT_LEN` is 0 throughout a decode, so a read of `OUT` draws, even of a character already held. -/
theorem progressReadsWhileDecoding : Obligations.ProgressReadsWhileDecoding := by
  intro s hi hp
  have hd : decoding s = true := (decoding_iff s).2 hp
  have e := hi.decode hd
  have hbusy : (statusWord s).getLsbD 0 = true := (statusWord_fields s).1.trans (busy_of_decoding hd)
  obtain ⟨-, hdone, -, -, hresult, hphase, -, hch, -⟩ := statusWord_fields s
  obtain ⟨-, -, -, -, hnbits, hout, hx, hy, -⟩ := registerReads s
  rw [e.atPixel.notDone] at hdone
  rw [e.atPixel.noResult] at hresult
  rw [e.noOutput] at hout
  refine ⟨⟨_, memRead_fixed rfl (by decide) s, hbusy, hdone, hresult, hphase, hch⟩, hnbits, hout, hx, hy,
    fun j hj => ?_⟩
  have habove : s.block.outLen.toNat ≤ j := by rw [e.noOutput]; exact Nat.zero_le j
  exact ⟨e.characters j hj, (unspecifiedReadsAreFree s j).1 (hj.trans_le e.fitsOutput) habove⟩

end Sys2Proof.Proofs
end

section
/-! PROOFS. Every operation ends (70_reset_and_hazards.md R229): a decode at the first bit that ends it, an encode when
its steps have run out, or at a message entry that was never written. -/

namespace Sys2Proof.Proofs

open Sys2Proof.Machine

/-! ## A decode -/

/-- A scan of the grid of `s` that reaches bit `n` ends there: at a terminator, at a character without room, or at the
last slot (44_scanner.md R161). -/
def EndsAtBit (s : State) (n : Nat) : Prop :=
  endsInTerminator (slotParity s) n ∨ n = 8 * (s.params.obufDepth.val + 1) ∨ n = carrierSlots s.grid

/-- A running decode has slots left. -/
theorem nbits_lt_carrierSlots {s : State} (hi : Inv s) (hd : decoding s = true) :
    s.block.nbits.toNat < carrierSlots s.grid := by
  have e := hi.decode hd
  have hpixel := pixelIndex_lt e.atPixel.xInGrid e.atPixel.yInGrid
  have hch := hi.channelLegal
  unfold carrierSlots
  rcases (decoding_iff s).1 hd with hp | hp
  · have := e.loadCursor hp; omega
  · have := e.slotCursor hp; omega

/-- Of the bits after those scanned, the scan ends at the least that ends it. -/
theorem exists_endBit {s : State} (hi : Inv s) (hd : decoding s = true) :
    ∃ n, s.block.nbits.toNat < n ∧ ReachesBit s n ∧ EndsAtBit s n := by
  classical
  have e := hi.decode hd
  have hfits := e.fitsOutput
  have hslots := nbits_lt_carrierSlots hi hd
  have hex : ∃ n, s.block.nbits.toNat < n ∧ EndsAtBit s n := ⟨_, hslots, .inr (.inr rfl)⟩
  obtain ⟨hn, hend⟩ := Nat.find_spec hex
  have hleast {m : Nat} (hm : s.block.nbits.toNat < m) (h : EndsAtBit s m) : Nat.find hex ≤ m :=
    Nat.find_min' hex ⟨hm, h⟩
  have hroom := hleast (m := 8 * (s.params.obufDepth.val + 1)) (by omega) (.inr (.inl rfl))
  refine ⟨Nat.find hex, hn, ⟨fun m hm hterm => ?_, by omega, hleast hslots (.inr (.inr rfl))⟩, hend⟩
  rcases Nat.lt_or_ge s.block.nbits.toNat m with hlt | hle
  · exact absurd (hleast hlt (.inl hterm)) (Nat.not_le.2 hm)
  · exact e.noTerminator m hle hterm

/-- The DEC_SLOT of that bit ends the operation. -/
theorem execDecSlot_ends {s w : State} {n : Nat} (hi : Inv w) (h : KeptByDecode s w) (hp : w.block.phase = phaseDecSlot)
    (hn : w.block.nbits.toNat + 1 = n) (hr : ReachesBit s n) (hend : EndsAtBit s n) :
    ∃ u, execDecSlot w = .next u ∧ busy u = false ∧ u.block.done = true := by
  subst hn
  by_cases hfull : w.block.nbits.toNat + 1 = 8 * (s.params.obufDepth.val + 1)
  · rw [← h.params] at hfull
    exact ⟨_, execDecSlot_overflows (hi.decode ((decoding_iff w).2 (.inr hp))).fitsOutput hfull, rfl, rfl⟩
  · have hroom := hr.room
    obtain ⟨v, hv, hbit⟩ := execDecSlot_scans h hi hp (by omega)
    refine ⟨_, hv, ?_⟩
    by_cases hterm : endsInTerminator (slotParity s) (w.block.nbits.toNat + 1)
    · rw [hbit.ends_at_terminator hterm]
      exact ⟨rfl, rfl⟩
    · rw [(hbit.ends_at_gridEnd hterm ((hend.resolve_left hterm).resolve_left hfull)).2]
      exact ⟨rfl, rfl⟩

/-- A running decode, left alone, ends within the steps to the last slot. -/
theorem decode_ends {s : State} (hi : Inv s) (ha : s.agenda = []) (hd : decoding s = true) :
    ∃ k t, k ≤ 4 * (s.grid.w.toNat * s.grid.h.toNat) ∧ endsAfter k s t ∧ t.block.done = true := by
  obtain ⟨n, hn, hr, hend⟩ := exists_endBit hi hd
  obtain ⟨w, hw, hkept, hp, hlast, hends⟩ := decode_runs_to_bit _ hi ⟨rfl, ha, rfl, rfl, rfl⟩ hd hr hn rfl
  obtain ⟨t, ht, hidle, hdone⟩ := execDecSlot_ends hw hkept hp hlast hr hend
  refine ⟨_, t, ?_, hends t ht hidle, hdone⟩
  have hslots := hr.slots
  unfold carrierSlots at hslots
  unfold decodeStepsTo pixelsFor
  omega

/-! ## An encode -/

/-- The steps left of an encode of its own message. -/
abbrev stepsLeft (t : State) : Nat := encodeStepsLeft (streamLength t.block.msgLen.toNat) t

/-- What one step comes to: one step less is left, or it was the last. -/
def CountsDown (t u : State) : Prop :=
  (encoding u ∧ stepsLeft t = stepsLeft u + 1) ∨ (busy u = false ∧ u.block.done = true ∧ stepsLeft t = 1)

theorem countsDown_execEncLoad {t u : State} (e : EncodeProgress t) (hp : t.block.phase = phaseEncLoad)
    (h : execEncLoad t = .next u) : CountsDown t u := by
  have loaded : phaseEncSlot ≠ phaseEncLoad := by decide
  obtain ⟨-, -, rfl⟩ := execEncLoad_next h
  exact .inl ⟨.inr (.inl rfl), encodeStepsLeft_load hp loaded rfl rfl (e.loadCursor hp).2⟩

theorem countsDown_execEncSlot {t u : State} (e : EncodeProgress t) (hp : t.block.phase = phaseEncSlot)
    (h : execEncSlot t = .next u) : CountsDown t u := by
  have loaded : t.block.phase ≠ phaseEncLoad := by rw [hp]; decide
  have stored : phaseEncStore ≠ phaseEncLoad := by decide
  obtain ⟨b, -, hcases⟩ := execEncSlot_cases h
  have hcount := embedded_nbits_toNat e hp b
  obtain ⟨hn, hmore⟩ := e.slotCursor hp
  have hroom : pixelIndex t < pixelsFor (streamLength t.block.msgLen.toNat) := by unfold pixelsFor; omega
  rcases hcases with ⟨-, rfl⟩ | ⟨-, rfl⟩
  · exact .inl ⟨.inr (.inr rfl), encodeStepsLeft_slot loaded stored hcount rfl hmore hroom⟩
  · exact .inl ⟨.inr (.inl hp), encodeStepsLeft_slot loaded loaded hcount rfl hmore hroom⟩

theorem countsDown_execEncStore {t u : State} (e : EncodeProgress t) (hp : t.block.phase = phaseEncStore)
    (hch : t.block.ch.toNat ≤ 2) (h : execEncStore t = .next u) : CountsDown t u := by
  have loaded : t.block.phase ≠ phaseEncLoad := by rw [hp]; decide
  obtain ⟨hn, hle, -⟩ := e.storeCursor hp
  obtain ⟨hx, hy, -, _, rfl, hcases⟩ := execEncStore_cases h
  obtain ⟨x, y, ha, -, -, hxy⟩ := advance_next (s := { t with grid := { t.grid with
    pixels := storePixel t.grid.pixels (pixelKey t.block.x t.block.y) (.written t.block.o8) } }) hx hy
  rw [ha] at hcases
  rcases hcases with ⟨hlast, rfl⟩ | ⟨-, rfl⟩
  · have hall : t.block.nbits.toNat = streamLength t.block.msgLen.toNat := (streamDone_iff _).1 hlast
    have hcursor : pixelIndex t + 1 = pixelsFor (streamLength t.block.msgLen.toNat) := by unfold pixelsFor; omega
    exact .inr ⟨rfl, rfl, encodeStepsLeft_lastStore loaded hall hcursor⟩
  · have hroom : pixelIndex t < pixelsFor (streamLength t.block.msgLen.toNat) := by unfold pixelsFor; omega
    exact .inl ⟨.inl rfl, encodeStepsLeft_store loaded rfl rfl hxy hroom⟩

/-- Every turn of a running encode that goes on counts down. -/
theorem countsDown_blockTurn {t u : State} (hi : Inv t) (henc : encoding t) (h : blockTurn t = .next u) :
    CountsDown t u := by
  have e := hi.encode henc
  rcases henc with hp | hp | hp
  · rw [blockTurn_encLoad hp] at h; exact countsDown_execEncLoad e hp h
  · rw [blockTurn_encSlot hp] at h; exact countsDown_execEncSlot e hp h
  · rw [blockTurn_encStore hp] at h; exact countsDown_execEncStore e hp hi.channelLegal h

/-- The block's turn keeps the agenda, and what of the message has been written (10_state.md R30, R31). -/
theorem blockTurn_keeps_message {t u : State} (h : blockTurn t = .next u) :
    u.agenda = t.agenda ∧ (messageWritten u.block ↔ messageWritten t.block) := by
  unfold blockTurn at h
  split at h
  · obtain ⟨hmsg, hlen, -, -, hagenda, -⟩ := blockNeverWritesTheMessage _ _ _ h
    refine ⟨hagenda, ?_⟩
    unfold messageWritten
    rw [hmsg, hlen]
  · cases h

/-- From a state that meets the invariant the block's turn goes on, or stops for want of a message entry (10_state.md
R39). -/
theorem blockTurn_outcomes {t : State} (hi : Inv t) :
    (∃ u, blockTurn t = .next u) ∨ (blockTurn t = .fault .msgUnwritten ∧ ¬ messageWritten t.block) := by
  by_cases hp : t.block.phase = phaseEncSlot
  · rw [blockTurn_encSlot hp]
    cases hbit : streamBit t.block t.block.nbits.toNat with
    | some b => exact .inl (execEncSlot_of_bit hbit)
    | none =>
      refine .inr ⟨execEncSlot_of_no_bit hbit, fun hw => ?_⟩
      obtain ⟨b, hb⟩ := streamBit_of_written hw t.block.nbits.toNat
      cases hbit.symm.trans hb
  · exact .inl (blockTurn_of_not_encSlot hi hp)

/-- A run whose first step is a fault ends in it. -/
theorem runSteps_of_fault {s : State} {f : Fault} (h : step s = .fault f) (k : Nat) :
    runSteps (k + 1) s = .fault f := by
  have hcore : Host.Core.step Sys2Proof.core s = .fault f := h
  simp only [runSteps, Host.Core.run, hcore]
  rfl

/-- A running encode has a step left. -/
theorem stepsLeft_pos {t : State} (hi : Inv t) (henc : encoding t) : 0 < stepsLeft t := by
  have e := hi.encode henc
  have hch := hi.channelLegal
  have hload : (if t.block.phase = phaseEncLoad then 0 else 1) ≤ 1 := by split <;> decide
  unfold stepsLeft encodeStepsLeft pixelsFor
  rcases henc with hp | hp | hp
  · have := e.loadCursor hp; omega
  · have := e.slotCursor hp; omega
  · have := e.storeCursor hp; omega

/-- A running encode, left alone, ends when its steps have run out, or has stopped before at an entry of its message
that was not written. -/
theorem encode_ends {t : State} (n : Nat) (hi : Inv t) (ha : t.agenda = []) (henc : encoding t) (hn : stepsLeft t = n) :
    ∃ k, k ≤ n ∧ ((∃ u, endsAfter k t u ∧ u.block.done = true) ∨
      (runSteps k t = .fault .msgUnwritten ∧ ¬ messageWritten t.block)) := by
  induction n generalizing t with
  | zero => exact absurd hn (stepsLeft_pos hi henc).ne'
  | succ n ih =>
    have hb := busy_of_encoding henc
    have hstep := step_of_busy hb ha
    rcases blockTurn_outcomes hi with ⟨u, hu⟩ | ⟨hfault, hw⟩
    · rw [hu] at hstep
      rcases countsDown_blockTurn hi henc hu with ⟨henc', hleft⟩ | ⟨hidle, hdone, -⟩
      · obtain ⟨hagenda, hmessage⟩ := blockTurn_keeps_message hu
        obtain ⟨k, hk, hend⟩ := ih (everyStepKeepsTheInvariant t u hi hstep) (hagenda.trans ha) henc' (by omega)
        refine ⟨k + 1, Nat.succ_le_succ hk, ?_⟩
        rw [runSteps_succ hstep, ← hmessage]
        exact hend.imp_left fun ⟨v, hv, hdone⟩ => ⟨v, endsAfter_succ hb hstep hv, hdone⟩
      · exact ⟨1, Nat.succ_pos n, .inl ⟨u, endsAfter_succ hb hstep (endsAfter_zero hidle), hdone⟩⟩
    · exact ⟨1, Nat.succ_pos n, .inr ⟨runSteps_of_fault (hstep.trans hfault) 0, hw⟩⟩

/-! ## Either operation -/

/-- The block is busy with an encode or with a decode. -/
theorem encoding_or_decoding {s : State} (hi : Inv s) (hb : busy s = true) : encoding s ∨ decoding s = true := by
  rw [decoding_iff]
  unfold encoding
  rcases blockTurn_cases hi.phaseLegal with ⟨hp, -⟩ | ⟨hp, -⟩ | ⟨hp, -⟩ | ⟨hp, -⟩ | ⟨hp, -⟩ | ⟨hp, -⟩
  · simp [busy, hp] at hb
  all_goals simp [hp]

/-- Settles O60: an encode has at most the steps of its whole stream left, and the stream fits the grid. -/
theorem everyOperationEnds : Obligations.EveryOperationEnds := by
  intro s hi hb ha
  rw [Nat.mul_assoc, Nat.mul_assoc]
  rcases encoding_or_decoding hi hb with henc | hd
  · obtain ⟨k, hk, hend⟩ := encode_ends _ hi ha henc rfl
    have hfits := (hi.encode henc).streamFits
    have hbound : k ≤ streamLength s.block.msgLen.toNat + 2 * pixelsFor (streamLength s.block.msgLen.toNat) := by
      unfold stepsLeft encodeStepsLeft at hk
      omega
    refine ⟨k, ?_, fun hd => absurd hd (encoding_not_decoding henc), ?_, hend.imp_right fun h => ⟨henc, h⟩⟩
    · unfold pixelsFor at hbound
      unfold carrierSlots at hfits
      omega
    · rintro - nb rfl
      exact hbound
  · obtain ⟨k, t, hk, hend⟩ := decode_ends hi ha hd
    exact ⟨k, by omega, fun _ => hk, fun henc => absurd hd (encoding_not_decoding henc), .inl ⟨t, hend⟩⟩

end Sys2Proof.Proofs
end

section
/-! PROOFS. An encode that ends before the reset comes: with the agenda empty an idle block lets the host move (log 1),
so a block busy again may be in an encode of another message (70_reset_and_hazards.md R221). -/

namespace Sys2Proof.Proofs

open Sys2Proof.Machine

/-- An idle block about to encode the empty message in six zero pixels, whose host then encodes one code unit. -/
def encodesTwice : State where
  block := { Block.reset with msg := [(0, 0x80#32)] }
  grid := ⟨6#16, 1#16, true, []⟩
  params := ⟨1, 0, Vector.replicate 256 0#16⟩
  host := ⟨[w32 0x08#32 1#32, cmdEncode], 0, []⟩
  agenda := []
  resets := 0
  draws := 0

/-- Its first encode accepted. -/
def firstEncode : State := setPhase phaseEncLoad (homeCursor (beginOperation encodesTwice))

theorem encodesTwice_inv : Inv encodesTwice :=
  have rest : AtRest encodesTwice := {
    channelLegal := by decide
    resultLegal := by decide
    resultNeedsDone := fun _ => rfl
    output := fun i hi => absurd hi (Nat.not_lt_zero i)
    storage := ⟨rfl, nofun, rfl, rfl, rfl, rfl, rfl⟩ }
  rest.inv_of_idle rfl

/-- The first encode takes 14 steps, the host's two writes the next two, and the second encode's first pixel five more:
it carries a bit 1, which the first encode's stream does not have. -/
theorem secondEncode_wrote_pixel :
    (∃ t, runSteps 14 firstEncode = .next t ∧ busy t = false) ∧
    ∃ u, runSteps 21 firstEncode = .next u ∧ busy u = true ∧
      storedAt u.grid.pixels 0 = .written ⟨255#8, 0#8, 0#8, 0#8⟩ :=
  ⟨⟨_, rfl, rfl⟩, _, rfl, rfl, by decide⟩

/-- Refutes O54: nothing in it says that the block is busy with one and the same encode all along. Here the first has
ended and the host has started another, whose first pixel the reset leaves: it is neither the first encode's nor the
carrier's. -/
theorem not_resetAbandonsAnEncode : ¬ Obligations.ResetAbandonsAnEncode := by
  intro h
  obtain ⟨-, u, hrun, hb, hpixel⟩ := secondEncode_wrote_pixel
  obtain ⟨-, -, -, -, -, -, m, -, hpixels⟩ := h encodesTwice firstEncode u _ 21 encodesTwice_inv rfl rfl rfl rfl
    hrun hb (step_of_agenda_cons (s := { u with agenda := [.reset] }) rfl) _ rfl
  have hfirst := hpixel.symm.trans (hpixels 0#16 0#16 (by decide) (by decide) 0 rfl)
  split at hfirst
  · exact absurd hfirst (by decide)
  · exact absurd hfirst (by decide)

end Sys2Proof.Proofs
end
